-- ==== Sys2Proof/Word.lean ====
section
/-! DEFINITION. The word types of the block: bytes, 16-bit asset rows and 32-bit command words (rule R10). -/

namespace Sys2Proof

/-- A byte: a framebuffer byte, an operand-memory byte, a bus byte (R10). -/
abbrev Byte := BitVec 8

/-- One 16-bit row of a glyph or sprite (R10, R47). -/
abbrev PixelRow := BitVec 16

/-- A command word, or a word read through the read-back port (R10, R31). -/
abbrev Word := BitVec 32

end Sys2Proof
end

