-- ==== Sys2Proof/Syntax.lean ====
section
/-! DEFINITION. The 18 operations of the opcode table (rule R66) as one inductive, with their operands (R64, R65). -/

namespace Sys2Proof

/-- The two colours (R11): `BLACK` is background, `WHITE` is foreground. -/
inductive Color where
  | black
  | white
  deriving DecidableEq, Repr

/-- The logical complement `!c` (R11). -/
def Color.complement : Color → Color
  | .black => .white
  | .white => .black

/-- An operation with its operands. Every field the table gives fixed bits is a value of exactly those bits; the burst
length is the natural number `n` of the listing syntax (R65, R76), whose range `Instr.WellFormed` checks. -/
inductive Instr where
  /-- BUS.START (R92) -/
  | busStart
  /-- BUS.STOP (R93) -/
  | busStop
  /-- BUS.ADDR (R94) -/
  | busAddr (byte : BitVec 8)
  /-- BUS.BYTE (R95) -/
  | busByte (byte : BitVec 8)
  /-- BUS.BURST (R96): `n` bytes from operand memory at `addr` -/
  | busBurst (addr : BitVec 16) (n : Nat)
  /-- FB.FILL (R105) -/
  | fbFill (color : Color)
  /-- FB.PIXEL (R107) -/
  | fbPixel (x y : BitVec 8) (color : Color)
  /-- CUR.SET (R108) -/
  | curSet (x y : BitVec 8)
  /-- WR.CHAR (R114) -/
  | wrChar (ch : BitVec 8) (font : BitVec 4) (wrap : Bool) (color : Color)
  /-- WR.STR (R115) -/
  | wrStr (addr : BitVec 16) (font : BitVec 4) (wrap : Bool) (color : Color)
  /-- WR.IMG (R116) -/
  | wrImg (sprite : BitVec 4) (color : Color)
  /-- INIT (R128) -/
  | init
  /-- FLUSH (R129) -/
  | flush
  /-- MOVE.R (R131) -/
  | moveR
  /-- MOVE.L (R132) -/
  | moveL
  /-- TRIG.SVC (R142) -/
  | trigSvc
  /-- CFG.TIMEOUT (R140) -/
  | cfgTimeout (value : BitVec 24)
  /-- CFG.TRIG (R141) -/
  | cfgTrig (enR enL qclr : Bool)
  deriving DecidableEq, Repr

/-- The rows of the opcode table (R66), without operands. -/
inductive Op where
  | busStart | busStop | busAddr | busByte | busBurst
  | fbFill | fbPixel | curSet
  | wrChar | wrStr | wrImg
  | init | flush | moveR | moveL | trigSvc
  | cfgTimeout | cfgTrig
  deriving DecidableEq, Repr

/-- The row of an operation. -/
def Instr.op : Instr → Op
  | .busStart => .busStart
  | .busStop => .busStop
  | .busAddr _ => .busAddr
  | .busByte _ => .busByte
  | .busBurst _ _ => .busBurst
  | .fbFill _ => .fbFill
  | .fbPixel _ _ _ => .fbPixel
  | .curSet _ _ => .curSet
  | .wrChar _ _ _ _ => .wrChar
  | .wrStr _ _ _ _ => .wrStr
  | .wrImg _ _ => .wrImg
  | .init => .init
  | .flush => .flush
  | .moveR => .moveR
  | .moveL => .moveL
  | .trigSvc => .trigSvc
  | .cfgTimeout _ => .cfgTimeout
  | .cfgTrig _ _ _ => .cfgTrig

end Sys2Proof
end

