-- ==== Sys2Proof/WellFormed.lean ====
section
/-! DEFINITION. Which terms of `Instr` a command word can spell (R64, R65). Every operand but the burst length has
exactly the values of its field by its type. -/

namespace Sys2Proof

/-- A burst of no bytes cannot be spelled, nor one of more than 256 (R50, R65, U5). -/
def burstLengthOk (n : Nat) : Bool := decide (1 ≤ n) && decide (n ≤ 256)

/-- The operation can be spelled by a command word (R64, R65). -/
def Instr.WellFormed : Instr → Bool
  | .busBurst _ n => burstLengthOk n
  | .busStart => true
  | .busStop => true
  | .busAddr _ => true
  | .busByte _ => true
  | .fbFill _ => true
  | .fbPixel _ _ _ => true
  | .curSet _ _ => true
  | .wrChar _ _ _ _ => true
  | .wrStr _ _ _ _ => true
  | .wrImg _ _ => true
  | .init => true
  | .flush => true
  | .moveR => true
  | .moveL => true
  | .trigSvc => true
  | .cfgTimeout _ => true
  | .cfgTrig _ _ _ => true

end Sys2Proof
end

