-- ==== Sys2Proof/Decode.lean ====
section
/-! DEFINITION. The decoder of command words and, after it, the encoder: rules R63 to R67 and R78. A command word is
presented whole by the host, so no byte order arises (R54, R58). -/

namespace Sys2Proof

/-- Why a word is illegal (R67). -/
inductive DecodeError where
  /-- `opc` is not in the table -/
  | unknownOpcode
  /-- a listed `opc` with a nonzero reserved bit -/
  | reservedBits
  deriving DecidableEq, Repr

/-- The field of bits `hi` down to `lo` of a command word (R9). -/
def bits (w : Word) (hi lo : Nat) : BitVec (hi - lo + 1) := w.extractLsb' lo (hi - lo + 1)

/-- One bit of a command word as a flag (R9). -/
def bit (w : Word) (i : Nat) : Bool := w.getLsbD i

/-- A colour field: 0 is BLACK, 1 is WHITE (R11, R65). -/
def Color.ofBit (b : Bool) : Color := if b then .white else .black

/-- The bit of a colour (R11, R65). -/
def Color.toBit : Color → BitVec 1
  | .black => 0#1
  | .white => 1#1

/-- The operation code, bits [31:24] (R64, R66). -/
def Op.code : Op → BitVec 8
  | .busStart => 0x10#8
  | .busStop => 0x11#8
  | .busAddr => 0x12#8
  | .busByte => 0x13#8
  | .busBurst => 0x14#8
  | .fbFill => 0x20#8
  | .fbPixel => 0x21#8
  | .curSet => 0x22#8
  | .wrChar => 0x30#8
  | .wrStr => 0x31#8
  | .wrImg => 0x32#8
  | .init => 0x40#8
  | .flush => 0x41#8
  | .moveR => 0x42#8
  | .moveL => 0x43#8
  | .trigSvc => 0x44#8
  | .cfgTimeout => 0x50#8
  | .cfgTrig => 0x51#8

/-- The `mask` column of R66. -/
def Op.mask : Op → Word
  | .busStart => 0xFFFFFFFF#32
  | .busStop => 0xFFFFFFFF#32
  | .busAddr => 0xFFFFFF00#32
  | .busByte => 0xFFFFFF00#32
  | .busBurst => 0xFF000000#32
  | .fbFill => 0xFFFFFFFE#32
  | .fbPixel => 0xFF0000FE#32
  | .curSet => 0xFF0000FF#32
  | .wrChar => 0xFF00FF0C#32
  | .wrStr => 0xFF00000C#32
  | .wrImg => 0xFFFFFF0E#32
  | .init => 0xFFFFFFFF#32
  | .flush => 0xFFFFFFFF#32
  | .moveR => 0xFFFFFFFF#32
  | .moveL => 0xFFFFFFFF#32
  | .trigSvc => 0xFFFFFFFF#32
  | .cfgTimeout => 0xFF000000#32
  | .cfgTrig => 0xFFFFFFF8#32

/-- The `match` column of R66: the operation code over 24 zero bits, in every row. -/
def Op.pattern (o : Op) : Word := o.code ++ 0#24

/-- A word selects a row when `(word & mask) = match` (R66). -/
def Op.selects (o : Op) (w : Word) : Bool := decide (w &&& o.mask = o.pattern)

/-- The row of an operation code (R66). -/
def Op.ofCode (c : BitVec 8) : Option Op :=
  match c.toNat with
  | 0x10 => some .busStart
  | 0x11 => some .busStop
  | 0x12 => some .busAddr
  | 0x13 => some .busByte
  | 0x14 => some .busBurst
  | 0x20 => some .fbFill
  | 0x21 => some .fbPixel
  | 0x22 => some .curSet
  | 0x30 => some .wrChar
  | 0x31 => some .wrStr
  | 0x32 => some .wrImg
  | 0x40 => some .init
  | 0x41 => some .flush
  | 0x42 => some .moveR
  | 0x43 => some .moveL
  | 0x44 => some .trigSvc
  | 0x50 => some .cfgTimeout
  | 0x51 => some .cfgTrig
  | _ => none

/-- The operation of a row with the fields its format gives (R64, R65). -/
def Op.operands (o : Op) (w : Word) : Instr :=
  match o with
  | .busStart => .busStart
  | .busStop => .busStop
  | .busAddr => .busAddr (bits w 7 0)
  | .busByte => .busByte (bits w 7 0)
  | .busBurst => .busBurst (bits w 23 8) ((bits w 7 0).toNat + 1)
  | .fbFill => .fbFill (Color.ofBit (bit w 0))
  | .fbPixel => .fbPixel (bits w 23 16) (bits w 15 8) (Color.ofBit (bit w 0))
  | .curSet => .curSet (bits w 23 16) (bits w 15 8)
  | .wrChar => .wrChar (bits w 23 16) (bits w 7 4) (bit w 1) (Color.ofBit (bit w 0))
  | .wrStr => .wrStr (bits w 23 8) (bits w 7 4) (bit w 1) (Color.ofBit (bit w 0))
  | .wrImg => .wrImg (bits w 7 4) (Color.ofBit (bit w 0))
  | .init => .init
  | .flush => .flush
  | .moveR => .moveR
  | .moveL => .moveL
  | .trigSvc => .trigSvc
  | .cfgTimeout => .cfgTimeout (bits w 23 0)
  | .cfgTrig => .cfgTrig (bit w 0) (bit w 1) (bit w 2)

/-- The decoder, total on command words (R66, R67). -/
def decode (w : Word) : Except DecodeError Instr :=
  match Op.ofCode (bits w 31 24) with
  | none => .error .unknownOpcode
  | some o => if o.selects w then .ok (o.operands w) else .error .reservedBits

/-- The decoder read from a table word: every row of the table is one 32-bit word (R78). -/
def decodeTableWord (_nbits w : Nat) : Option Instr :=
  match decode (BitVec.ofNat 32 w) with
  | .ok i => some i
  | .error _ => none

/-- The word of an operation, fields laid out as R64 does. -/
def encode : Instr → Word
  | .busStart => 0x10#8 ++ 0#24
  | .busStop => 0x11#8 ++ 0#24
  | .busAddr byte => 0x12#8 ++ 0#16 ++ byte
  | .busByte byte => 0x13#8 ++ 0#16 ++ byte
  | .busBurst addr n => 0x14#8 ++ addr ++ BitVec.ofNat 8 (n - 1)
  | .fbFill color => 0x20#8 ++ 0#23 ++ color.toBit
  | .fbPixel x y color => 0x21#8 ++ x ++ y ++ 0#7 ++ color.toBit
  | .curSet x y => 0x22#8 ++ x ++ y ++ 0#8
  | .wrChar ch font wrap color => 0x30#8 ++ ch ++ 0#8 ++ font ++ 0#2 ++ BitVec.ofBool wrap ++ color.toBit
  | .wrStr addr font wrap color => 0x31#8 ++ addr ++ font ++ 0#2 ++ BitVec.ofBool wrap ++ color.toBit
  | .wrImg sprite color => 0x32#8 ++ 0#16 ++ sprite ++ 0#3 ++ color.toBit
  | .init => 0x40#8 ++ 0#24
  | .flush => 0x41#8 ++ 0#24
  | .moveR => 0x42#8 ++ 0#24
  | .moveL => 0x43#8 ++ 0#24
  | .trigSvc => 0x44#8 ++ 0#24
  | .cfgTimeout value => 0x50#8 ++ value
  | .cfgTrig enR enL qclr => 0x51#8 ++ 0#21 ++ BitVec.ofBool qclr ++ BitVec.ofBool enL ++ BitVec.ofBool enR

end Sys2Proof
end

