-- ==== Sys2Proof/Config.lean ====
section
/-! DEFINITION. What one block fixes: the parameters of rule R8 with the values the spec gives them, the shape of
the parameters the spec leaves OPEN (`Platform`), and the free values: opaque constants nothing can evaluate. -/

namespace Sys2Proof

/-- A font of the ASSET space: `FontDesc` is `(width, height)`, `GlyphRow` is indexed into `rows` (R44, R45). -/
structure Font where
  width : BitVec 8
  height : BitVec 8
  rows : List PixelRow
  deriving DecidableEq, Repr, Inhabited

/-- A sprite of the ASSET space: `SpriteDesc` is `(width, height, sections)`, `SpriteRow` is indexed into `rows`
(R44, R46). -/
structure Sprite where
  width : BitVec 8
  height : BitVec 8
  sections : BitVec 8
  rows : List PixelRow
  deriving DecidableEq, Repr, Inhabited

/-- The parameters the spec leaves OPEN (R8): `STEP` (1 to 64, held less 1), `TRIG_QDEPTH` (at least 1, held
less 1) and the installed assets by identifier (an identifier not listed has no asset, R44). No operation and no
event changes them (log 14). -/
structure Platform where
  stepLess1 : Fin 64
  queueDepthLess1 : Nat
  fonts : List (BitVec 4 × Font)
  sprites : List (BitVec 4 × Sprite)
  deriving DecidableEq, Repr, Inhabited

/-- `STEP`, with `1 ≤ STEP` and `2 * STEP ≤ W` (R8, D18). -/
def Platform.step (p : Platform) : Nat := p.stepLess1.val + 1

/-- `TRIG_QDEPTH`, at least 1 (R8, D21). -/
def Platform.queueDepth (p : Platform) : Nat := p.queueDepthLess1 + 1

namespace Config

/-- `W`, panel width in pixels (R8). -/
abbrev W : Nat := 128

/-- `H`, panel height in pixels (R8). -/
abbrev H : Nat := 64

/-- `FB_BYTES = (W*H)/8` (R8). -/
abbrev fbBytes : Nat := 1024

/-- `PAGES = H/8` (R8). -/
abbrev pages : Nat := 8

/-- `OPM_BYTES` (R8). -/
abbrev opmBytes : Nat := 65536

/-- `ADDR_BYTE` (R69; C7 and D30 settle the reading). -/
abbrev addrByte : Byte := 0x78#8

/-- `CTRL_CMD` (R70). -/
abbrev ctrlCmd : Byte := 0x00#8

/-- `CTRL_DATA` (R70). -/
abbrev ctrlData : Byte := 0x40#8

/-- `FAIL_SENTINEL` (R8; PRESUMED by the spec itself, G1, log 21). -/
abbrev failSentinel : Byte := 0x01#8

/-- `TERMINATOR` (R8; PRESUMED by the spec itself, G2, log 21). -/
abbrev terminator : Byte := 0x00#8

/-- `LEGACY_UNBOUNDED_WAITS`, false: the block as specified (R8, R91, log 15). -/
abbrev legacyUnboundedWaits : Bool := false

/-- `INIT_SEQ`, the 28 command bytes of INIT in order (R71; byte 13 is R74, byte 22 is R73). -/
def initSeq : List Byte :=
  [0xAE#8, 0x20#8, 0x10#8, 0xB0#8, 0x00#8, 0x10#8, 0xC8#8, 0x40#8, 0x81#8, 0xFF#8, 0xA1#8, 0xA6#8, 0xA8#8, 0x3F#8] ++
  [0xA4#8, 0xD3#8, 0x00#8, 0xD5#8, 0xF0#8, 0xD9#8, 0x22#8, 0xDA#8, 0x12#8, 0xDB#8, 0x20#8, 0x8D#8, 0x14#8, 0xAF#8]

/-- The OPEN parameters of the machine `State.reset` describes: any platform (R8, log 14). -/
opaque platform : Platform

/-- Free value: byte `a` of `FB` after the reset numbered `k` (R33, U1, log 6). -/
opaque fbAtReset (k a : Nat) : Byte

/-- Free value: `BTO.value` after the reset numbered `k`, while `BTO.valid = 0` (R33, U2, log 7). -/
opaque btoAtReset (k : Nat) : BitVec 24

/-- Free value: `LastSprite.id` after the reset numbered `k`, while `LastSprite.valid = 0` (R33, U2, log 7). -/
opaque lastIdAtReset (k : Nat) : BitVec 4

/-- Free value: the environment's answer to the port draw numbered `n`, where the state scripts none (R28, U6, U12,
log 4, log 5). -/
opaque freeSample (n : Nat) : Bool

/-- Free value: an asset row read outside its table (R45, U3, log 8). -/
opaque freeRow (n : Nat) : PixelRow

/-- Free value: which of the values that a changed operand byte has had an `OpmRead` returns; `n` numbers the draw, `a`
is the address (R59, U8, log 12). -/
opaque freePick (n a : Nat) : Nat

/-- Free value: what the read-back port returns where R31 gives no value (U9, log 17). -/
opaque freeRead (n addr : Nat) : Word

/-- Free value: how many zero samples an unbounded wait of the original takes before a one, `none` for never (R91,
U13, log 15). -/
opaque freeWait (n : Nat) : Option Nat

end Config

end Sys2Proof
end

