-- ==== Sys2Proof/Machine/State.lean ====
section
/-! DEFINITION. The state of the block (rules R14 to R26), the environment and parameters that `step` takes along with
it as plain data (R28 to R30, R40), the reasons a step can stop, and the state after reset (R33). -/

namespace Sys2Proof.Machine

/-- A byte memory: cells in one canonical form, addresses strictly rising (`Memory.wf`, log 22). -/
abbrev Memory := List Host.Cell

/-- The two byte spaces (R40). -/
inductive Space where
  /-- the framebuffer -/
  | fb
  /-- operand memory -/
  | opm
  deriving DecidableEq, Repr

/-- What an address of operand memory that is not listed reads as (DESIGN CHOICE, log 11). -/
abbrev opmUnlisted : Byte := 0#8

/-- The canonical form of a memory. `FB`: all 1024 addresses, each once, in rising order, so that no address of the
space is unlisted (R14, log 22). `OPM`: addresses strictly rising and inside the space, no byte equal to what an
unlisted address reads as (R48, log 11). -/
def Memory.wf : Space → Memory → Bool
  | .fb, m => decide (m.map Prod.fst = List.range Config.fbBytes)
  | .opm, m => decide ((m.map Prod.fst).Pairwise (· < ·)) &&
      m.all (fun c => decide (c.1 < Config.opmBytes) && decide (c.2 ≠ opmUnlisted))

/-- The five cursor registers (R15, R18). -/
structure Cursor where
  x : BitVec 16
  y : BitVec 16
  xInit : BitVec 16
  yInit : BitVec 16
  wc : BitVec 16
  deriving DecidableEq, Repr

/-- `LastSprite` (R19). -/
structure LastSprite where
  valid : Bool
  id : BitVec 4
  deriving DecidableEq, Repr

/-- `BTO` (R21). -/
structure Bto where
  valid : Bool
  value : BitVec 24
  deriving DecidableEq, Repr

/-- `TEN` (R22). -/
structure TrigEnable where
  enR : Bool
  enL : Bool
  deriving DecidableEq, Repr

/-- A trigger, and an entry of `TQ` (R23, R159). -/
inductive Trigger where
  | right
  | left
  deriving DecidableEq, Repr

/-- `RES` (R25, R149). `fail` is the or of the four error bits, so it is no field (`Res.fail`). -/
structure Res where
  ret : Byte := 0#8
  busTimeout : Bool := false
  noSpace : Bool := false
  init : Bool := false
  usage : Bool := false
  deriving DecidableEq, Repr

/-- The four flags of the bus peripheral (R51). -/
inductive Flag where
  | start
  | addr
  | txe
  | btf
  deriving DecidableEq, Repr

/-- An entry of the bus log: one of the six port actions, or one flag sample with its value (R29, R51). -/
inductive BusEvent where
  | reqStart
  | reqStop
  | txAddr (b : Byte)
  | txData (b : Byte)
  | rdStatus1
  | rdStatus2
  | sample (f : Flag) (v : Bool)
  deriving DecidableEq, Repr

/-- The answers the environment gives to one kind of draw: the scripted ones, next first, then the steady one for
ever; with no steady answer every further draw is a free value (R28, U12, log 4). -/
structure Source where
  answers : List Bool
  steady : Option Bool
  deriving DecidableEq, Repr

/-- The peripheral port as the block sees it: one source for each flag (R51), one for which of the two status reads
comes first (`true`: `RdStatus1`; U6, log 5), the model's own counter of draws, and the bus log, held newest entry first
(R29; `Port.busLog` is the spec's order). -/
structure Port where
  start : Source
  addr : Source
  txe : Source
  btf : Source
  order : Source
  draws : Nat
  log : List BusEvent
  deriving DecidableEq, Repr

/-- The position of a WR.STR that goes on: its operands, and the address of the next character (R20, R115, log 16). -/
structure StringRun where
  font : BitVec 4
  wrap : Bool
  color : Color
  addr : BitVec 16
  deriving DecidableEq, Repr

/-- What the outside can do to the block between two operations (log 2). -/
inductive HostEvent where
  /-- the host presents a command word (R63) -/
  | command (w : Word)
  /-- a trigger edge (R159) -/
  | edge (t : Trigger)
  /-- a byte of operand memory is written, by the host, or by another master while the block is busy (R48, R59) -/
  | opmWrite (addr : BitVec 16) (b : Byte)
  /-- the host reads the read-back port (R31) -/
  | readBack (addr : Nat)
  /-- the reset input changes to this level: `true` asserted, `false` released (R176) -/
  | reset (asserted : Bool)
  /-- the host presents a command word and another master makes these writes of operand memory during the operation
  (R59, U8, log 12) -/
  | commandWithWrites (w : Word) (ws : List (BitVec 16 × Byte))
  /-- the same, and reset is asserted when the operation has made `k` entries in the bus log (R176, log 18) -/
  | commandCutByReset (w : Word) (ws : List (BitVec 16 × Byte)) (k : Nat)
  /-- a string in progress draws up to `n` more characters before the next event (R192, log 16) -/
  | pass (n : Nat)
  deriving DecidableEq, Repr

/-- The block (`fb` to `running`; R14 to R25, and the position inside a string that goes on, R20) and beside it, as plain
data, the environment and the parameters (`opm` to `draws`; R28 to R31, R40, and the earlier values of operand bytes
changed during the operation in progress, R59): see INVENTORY.md. -/
structure State where
  fb : Memory
  cur : Cursor
  last : LastSprite
  bto : Bto
  ten : TrigEnable
  tq : List Trigger
  tqOvf : Bool
  res : Res
  busy : Bool
  running : Option StringRun
  opm : Memory
  stale : List (BitVec 16 × Byte)
  platform : Platform
  port : Port
  inbox : List HostEvent
  inReset : Bool
  reads : List (Nat × Word)
  draws : Nat
  deriving DecidableEq, Repr

/-- The block has no trap and no fault: an error is a bit of `RES` and the machine goes on (R148, R155), so no step
raises one. -/
inductive Fault where
  deriving DecidableEq, Repr

/-- The steps the model declines: none. -/
inductive Refusal where
  /-- an operation that has no meaning yet; raised by `exec` by name; safe. No arm of this model raises it. -/
  | notModelled (mnemonic : String)
  deriving DecidableEq, Repr

/-- A source that scripts nothing: every draw is free (log 4). -/
def Source.free : Source := { answers := [], steady := none }

/-- The framebuffer after the reset numbered `k`: 1024 unspecified bytes (R33, U1, log 6). -/
def fbReset (k : Nat) : Memory := (List.range Config.fbBytes).map fun a => (a, Config.fbAtReset k a)

/-- The machine right after reset: every row of R33, the environment unscripted, nothing presented (log 2, log 4,
log 11, log 14). -/
def State.reset : State where
  fb := fbReset 0
  cur := { x := 0#16, y := 0#16, xInit := 0#16, yInit := 0#16, wc := 1#16 }
  last := { valid := false, id := Config.lastIdAtReset 0 }
  bto := { valid := false, value := Config.btoAtReset 0 }
  ten := { enR := false, enL := false }
  tq := []
  tqOvf := false
  res := {}
  busy := false
  running := none
  opm := []
  stale := []
  platform := Config.platform
  port := { start := .free, addr := .free, txe := .free, btf := .free, order := .free, draws := 0, log := [] }
  inbox := []
  inReset := false
  reads := []
  draws := 1

end Sys2Proof.Machine
end

