-- ==== Sys2Proof/Machine/Ops.lean ====
section
/-! DEFINITION. The shared operations over memory, cursor registers, result register and peripheral port: byte access
(R43, R48), pixel access (R41, R106), the end of an operation (R155), port actions, samples and polls (R51, R90, R91). -/

namespace Sys2Proof.Machine

/-! ## Byte memories -/

/-- The byte listed at an address, if any. -/
def Memory.find : Memory → Nat → Option Byte
  | [], _ => none
  | c :: m, a => if c.1 = a then some c.2 else Memory.find m a

/-- The memory with `b` listed at `a`, addresses kept rising. -/
def Memory.put : Memory → Nat → Byte → Memory
  | [], a, b => [(a, b)]
  | c :: m, a, b =>
    if c.1 < a then c :: Memory.put m a b
    else if c.1 = a then (a, b) :: m
    else (a, b) :: c :: m

/-- The memory with nothing listed at `a`. -/
def Memory.drop : Memory → Nat → Memory
  | [], _ => []
  | c :: m, a => if c.1 = a then Memory.drop m a else c :: Memory.drop m a

/-- `FB[i]` (R43). In the canonical form every byte of `FB` is listed; elsewhere the byte is a reset byte (R33, U1). -/
def fbRead (m : Memory) (i : Nat) : Byte := (m.find i).getD (Config.fbAtReset 0 i)

/-- `FB[i] <- b` (R43). -/
def fbWrite (m : Memory) (i : Nat) (b : Byte) : Memory := m.put i b

/-- `OpmRead(a)` (R48). -/
def opmRead (m : Memory) (a : BitVec 16) : Byte := (m.find a.toNat).getD opmUnlisted

/-- The host's write of one byte of operand memory (R48): an unlisted address already reads as `opmUnlisted`. -/
def opmWrite (m : Memory) (a : BitVec 16) (b : Byte) : Memory :=
  if b = opmUnlisted then m.drop a.toNat else m.put a.toNat b

/-- One byte of operand memory written during an operation: the value it had is kept beside it, because an `OpmRead` of
that operation may return either (R59, U8, log 12). -/
def overwriteOperand (a : BitVec 16) (b : Byte) (s : State) : State :=
  { s with opm := opmWrite s.opm a b, stale := (a, opmRead s.opm a) :: s.stale }

/-- One byte of operand memory written, by the host, or by another master while the block is busy (R48, R59). -/
def changeOperand (a : BitVec 16) (b : Byte) (s : State) : State :=
  if s.busy then overwriteOperand a b s else { s with opm := opmWrite s.opm a b }

/-- The values beside the present one that an `OpmRead` of the operation in progress may return (R59). -/
def staleAt (s : State) (a : BitVec 16) : List Byte := (s.stale.filter fun c => decide (c.1 = a)).map Prod.snd

/-- `OpmRead(a)` inside an operation: the byte, or any of the values it has had since the operation began (R48, R59, U8,
log 12). -/
def operandByte (s : State) (a : BitVec 16) : Byte :=
  match staleAt s a with
  | [] => opmRead s.opm a
  | vs => (opmRead s.opm a :: vs).getD (Config.freePick s.draws a.toNat % (vs.length + 1)) (opmRead s.opm a)

/-- The state after one `OpmRead` of a string: a free choice is numbered once (log 12). -/
def afterRead (a : BitVec 16) (s : State) : State :=
  match staleAt s a with
  | [] => s
  | _ => { s with draws := s.draws + 1 }

/-! ## Pixels -/

/-- `idx(x, y) = x + (y div 8) * W` (R41). -/
def pixelIndex (x y : Nat) : Nat := x + y / 8 * Config.W

/-- `bit(x, y) = y mod 8` (R41). -/
def pixelBit (y : Nat) : Nat := y % 8

/-- The pixel is foreground (R41). -/
def pixel (m : Memory) (x y : Nat) : Bool := (fbRead m (pixelIndex x y)).getLsbD (pixelBit y)

/-- One bit of a byte set for WHITE, cleared for BLACK, the other seven kept (R106, R122). -/
def paintBit (b : Byte) (k : Nat) (c : Color) : Byte :=
  match c with
  | .white => b ||| (1#8 <<< k)
  | .black => b &&& ~~~(1#8 <<< k)

/-- `DrawPixel(x, y, c)` (R106): a pixel outside the panel is dropped. -/
def drawPixel (x y : Nat) (c : Color) (m : Memory) : Memory :=
  if Config.W ≤ x ∨ Config.H ≤ y then m
  else fbWrite m (pixelIndex x y) (paintBit (fbRead m (pixelIndex x y)) (pixelBit y) c)

/-- The byte FB.FILL writes (R105). -/
def fillByte : Color → Byte
  | .white => 0xFF#8
  | .black => 0x00#8

/-- `Fill(c)`: all 1024 bytes replaced (R105). -/
def fillFrame (c : Color) : Memory := (List.range Config.fbBytes).map fun a => (a, fillByte c)

/-- The bytes of page `p`, column 0 first (R42). -/
def pageBytes (m : Memory) (p : Nat) : List Byte := (List.range Config.W).map fun c => fbRead m (p * Config.W + c)

/-! ## Cursor stores and the end of an operation -/

/-- `trunc_16`, the only truncation of the block, made when a cursor register is stored (R9, R18, R121, log 10). -/
def trunc16 (n : Nat) : BitVec 16 := BitVec.ofNat 16 n

/-- The end of an operation: `RES` is written, once, and the block goes idle (R20, R25, R155). -/
def finish (r : Res) (s : State) : State := { s with res := r, busy := false }

/-- The end of an operation that raised `Usage` (R154): nothing but `RES` is written. -/
def finishUsage (s : State) : State := finish { usage := true } s

/-- A wait of the original that never returns: the block stays busy and `RES` is not written (R91, U13, log 15). -/
def neverEnds (s : State) : State := { s with busy := true }

/-! ## The peripheral port -/

/-- `Emit(action)`: one action appended to the bus log (R51). -/
def emit (e : BusEvent) (p : Port) : Port := { p with log := e :: p.log }

/-- The bus log in the order the sequencer made it, oldest entry first (R29). -/
def Port.busLog (p : Port) : List BusEvent := p.log.reverse

/-- The answer to the next draw of a source; `n` numbers the draw (R28, log 4). -/
def Source.answer (q : Source) (n : Nat) : Bool :=
  match q.answers with
  | b :: _ => b
  | [] => q.steady.getD (Config.freeSample n)

/-- The source after one draw. -/
def Source.next (q : Source) : Source := { q with answers := q.answers.tail }

/-- The source that answers a flag (R51). -/
def Port.source (p : Port) : Flag → Source
  | .start => p.start
  | .addr => p.addr
  | .txe => p.txe
  | .btf => p.btf

/-- The port with another source for a flag. -/
def Port.withSource (p : Port) (f : Flag) (q : Source) : Port :=
  match f with
  | .start => { p with start := q }
  | .addr => { p with addr := q }
  | .txe => { p with txe := q }
  | .btf => { p with btf := q }

/-- The value the next `Sample(flag)` returns (R28). -/
def Port.flagValue (p : Port) (f : Flag) : Bool := (p.source f).answer p.draws

/-- The port after `Sample(flag)`: one draw made, one entry in the bus log (R28, R51). -/
def Port.sampled (p : Port) (f : Flag) : Port :=
  { p.withSource f (p.source f).next with draws := p.draws + 1, log := .sample f (p.flagValue f) :: p.log }

/-- How a poll ends (R90); `never` only for an unbounded wait of the original (R91). -/
inductive PollResult where
  | ok
  | timeout
  | never
  deriving DecidableEq, Repr

/-- `Poll(flag, n)`: up to `n + 1` samples, ended by the first that reads 1 (R90). -/
def poll (f : Flag) : Nat → Port → Port × PollResult
  | 0, p => if p.flagValue f then (p.sampled f, .ok) else (p.sampled f, .timeout)
  | n + 1, p => if p.flagValue f then (p.sampled f, .ok) else poll f n (p.sampled f)

/-- What an unbounded wait meets when the flag has no scripted answer left: a steady 1 ends it, a steady 0 never does,
and with no steady answer the number of zero samples before the first one is free (R91, U13, log 15). -/
def waitUnscripted (f : Flag) (p : Port) : Port × PollResult :=
  match (p.source f).steady with
  | some true => (p.sampled f, .ok)
  | some false => (p, .never)
  | none =>
    match Config.freeWait p.draws with
    | some k =>
      ({ p with draws := p.draws + k + 1, log := .sample f true :: (List.replicate k (.sample f false) ++ p.log) }, .ok)
    | none => (p, .never)

/-- `PollForever(flag)` of the original (R91), by recursion on the scripted answers. -/
def pollForever (f : Flag) : List Bool → Port → Port × PollResult
  | [], p => waitUnscripted f p
  | true :: _, p => (p.sampled f, .ok)
  | false :: bs, p => pollForever f bs (p.sampled f)

/-- The wait of `Start` and the transmit-empty wait: `Poll`, or `PollForever` with the original's unbounded waits
(R91). -/
def waitFor (legacy : Bool) (f : Flag) (n : Nat) (p : Port) : Port × PollResult :=
  if legacy then pollForever f (p.source f).answers p else poll f n p

end Sys2Proof.Machine
end

