-- ==== Sys2Proof/Machine/Operands.lean ====
section
/-! DEFINITION. The operand forms: burst operands in operand memory (R50), assets by identifier and their rows
(R44 to R47). A field of a command word is its own value (R65); a string is read byte by byte (R49, `writeString`). -/

namespace Sys2Proof.Machine

/-- The bytes of a burst operand, ascending addresses modulo 65536, each read once (R48, R50, R59, R96). -/
def burstBytes (s : State) (addr : BitVec 16) (n : Nat) : List Byte :=
  (List.range n).map fun i => operandByte s (addr + BitVec.ofNat 16 i)

/-- The font an identifier names, if the platform installed one (R44, U4). -/
def fontOf (p : Platform) (f : BitVec 4) : Option Font := p.fonts.lookup f

/-- The sprite an identifier names, if the platform installed one (R44, U4). -/
def spriteOf (p : Platform) (k : BitVec 4) : Option Sprite := p.sprites.lookup k

/-- Row `k` of a row sequence, `k` an integer; outside the sequence the row is the free value numbered `n` (R45, U3,
log 8). -/
def assetRow (rows : List PixelRow) (k : Int) (n : Nat) : PixelRow :=
  if k < 0 then Config.freeRow n else (rows[k.toNat]?).getD (Config.freeRow n)

/-- The rows of the glyph of character code `ch`: row `i` is row `(ch - 32) * height + i`, over the integers (R45). -/
def glyphRows (f : Font) (ch : Byte) (draws : Nat) : List PixelRow :=
  (List.range f.height.toNat).map fun (i : Nat) =>
    assetRow f.rows (((ch.toNat : Int) - 32) * (f.height.toNat : Int) + (i : Int)) (draws + i)

/-- The rows of section `t` of a sprite: row `i` is row `t * height + i` (R46). -/
def sectionRows (sp : Sprite) (t : Nat) (draws : Nat) : List PixelRow :=
  (List.range sp.height.toNat).map fun (i : Nat) =>
    assetRow sp.rows ((t * sp.height.toNat + i : Nat) : Int) (draws + (t * sp.height.toNat + i))

/-- Column `j` of a row: bit `15 - j`, and unset from column 16 on (R47). -/
def rowColumn (r : PixelRow) (j : Nat) : Bool := if j ≤ 15 then r.getLsbD (15 - j) else false

end Sys2Proof.Machine
end

