-- ==== Sys2Proof/Machine/Flags.lean ====
section
/-! DEFINITION. The result and status registers as the host reads them (R25, R26), the results of the error kinds
(R149), and the clamp of the animation step (R9, R130). -/

namespace Sys2Proof.Machine

/-- `RES.fail`, the or of the four error bits (R25). -/
def Res.fail (r : Res) : Bool := r.busTimeout || r.noSpace || r.init || r.usage

/-- `RES` as a 32-bit word (R25). -/
def Res.toWord (r : Res) : Word :=
  0#19 ++ BitVec.ofBool r.fail ++ BitVec.ofBool r.usage ++ BitVec.ofBool r.init ++ BitVec.ofBool r.noSpace
    ++ BitVec.ofBool r.busTimeout ++ r.ret

/-- `STAT`, a live view of other state (R26). -/
def statWord (s : State) : Word :=
  0#16 ++ BitVec.ofNat 8 (min s.tq.length 255) ++ 0#3 ++ BitVec.ofBool s.last.valid ++ BitVec.ofBool s.bto.valid
    ++ BitVec.ofBool s.tqOvf ++ BitVec.ofBool (!s.tq.isEmpty) ++ BitVec.ofBool s.busy

/-- `BTO` as a 32-bit word (R21). -/
def btoWord (b : Bto) : Word := 0#8 ++ b.value

/-- `TEN` as a 32-bit word (R22). -/
def tenWord (t : TrigEnable) : Word := 0#30 ++ BitVec.ofBool t.enL ++ BitVec.ofBool t.enR

/-- `LastSprite` as a 32-bit word (R31). -/
def lastWord (l : LastSprite) : Word := 0#23 ++ BitVec.ofBool l.valid ++ 0#4 ++ l.id

/-- The result of a bus procedure that timed out or not (R99). -/
def busRes (timedOut : Bool) : Res := { busTimeout := timedOut }

/-- The result of a drawing operation that did not fit (R152). -/
def noSpaceRes (ret : Byte) : Res := { ret := ret, noSpace := true }

/-- The result of a failed INIT: a timed-out poll is its only cause (R128, R153). -/
def initFailRes : Res := { init := true, busTimeout := true }

/-- `clamp(v, lo, hi)` over the integers (R9). -/
def clamp (v lo hi : Int) : Int := if v < lo then lo else if hi < v then hi else v

end Sys2Proof.Machine
end

