-- ==== Sys2Proof/Machine/Bus.lean ====
section
/-! DEFINITION. The bus master: the five primitives as procedures on the port and as host operations (R92 to R100). -/

namespace Sys2Proof.Machine

/-! ## Procedures; `legacy` is `LEGACY_UNBOUNDED_WAITS` (R91) -/

/-- `Start(t)` (R92). -/
def start (legacy : Bool) (t : Nat) (p : Port) : Port × PollResult := waitFor legacy .start t (emit .reqStart p)

/-- The two status reads that clear `F_ADDR`, in the order the environment draws (R94, U6, log 5). -/
def statusReads (p : Port) : Port :=
  { p with
    order := p.order.next
    draws := p.draws + 1
    log := if p.order.answer p.draws then .rdStatus2 :: .rdStatus1 :: p.log else .rdStatus1 :: .rdStatus2 :: p.log }

/-- `SendAddress(a, t)` (R94). -/
def sendAddress (a : Byte) (t : Nat) (p : Port) : Port × PollResult :=
  let r := poll .addr t (emit (.txAddr a) p)
  match r.2 with
  | .ok => (statusReads r.1, .ok)
  | .timeout => (r.1, .timeout)
  | .never => (r.1, .never)

/-- `SendBurst(ds, t)` (R96); `SendByte(d, t)` is the burst of one byte (R95). -/
def sendBurst (legacy : Bool) (t : Nat) : List Byte → Port → Port × PollResult
  | [], p => poll .btf t p
  | d :: ds, p =>
    let r := waitFor legacy .txe t p
    match r.2 with
    | .ok => sendBurst legacy t ds (emit (.txData d) r.1)
    | .timeout => (r.1, .timeout)
    | .never => (r.1, .never)

/-- `SendByte(d, t)` (R95). -/
def sendByte (legacy : Bool) (d : Byte) (t : Nat) (p : Port) : Port × PollResult :=
  let r := waitFor legacy .txe t p
  match r.2 with
  | .ok => poll .btf t (emit (.txData d) r.1)
  | .timeout => (r.1, .timeout)
  | .never => (r.1, .never)

/-! ## Host operations -/

/-- The end of a host-issued bus operation (R99). -/
def endBus (r : Port × PollResult) (s : State) : State :=
  match r.2 with
  | .ok => finish (busRes false) { s with port := r.1 }
  | .timeout => finish (busRes true) { s with port := r.1 }
  | .never => neverEnds { s with port := r.1 }

/-- A host-issued bus operation that polls: with no bound set it ends in `Usage` (R98), else the procedure runs with
the bound `BTO.value` (R21). -/
def busOperation (procedure : Nat → Port → Port × PollResult) (s : State) : State :=
  if s.bto.valid then endBus (procedure s.bto.value.toNat s.port) s else finishUsage s

/-- BUS.START (R92). -/
def execBusStart (s : State) : Host.Outcome State Fault Refusal :=
  .next (busOperation (start Config.legacyUnboundedWaits) s)

/-- BUS.STOP (R93): it waits for nothing and needs no bound. -/
def execBusStop (s : State) : Host.Outcome State Fault Refusal :=
  .next (finish (busRes false) { s with port := emit .reqStop s.port })

/-- BUS.ADDR (R94). -/
def execBusAddr (byte : BitVec 8) (s : State) : Host.Outcome State Fault Refusal :=
  .next (busOperation (sendAddress byte) s)

/-- BUS.BYTE (R95). -/
def execBusByte (byte : BitVec 8) (s : State) : Host.Outcome State Fault Refusal :=
  .next (busOperation (sendByte Config.legacyUnboundedWaits byte) s)

/-- BUS.BURST (R96). -/
def execBusBurst (addr : BitVec 16) (n : Nat) (s : State) : Host.Outcome State Fault Refusal :=
  .next (busOperation (fun t => sendBurst Config.legacyUnboundedWaits t (burstBytes s addr n)) s)

end Sys2Proof.Machine
end

