-- ==== Sys2Proof/Machine/Frame.lean ====
section
/-! DEFINITION. Framebuffer and cursor operations (R105 to R108). -/

namespace Sys2Proof.Machine

/-- FB.FILL (R105). -/
def execFbFill (color : Color) (s : State) : Host.Outcome State Fault Refusal :=
  .next (finish {} { s with fb := fillFrame color })

/-- FB.PIXEL (R107): `RES = 0` in range and out of range alike. -/
def execFbPixel (x y : BitVec 8) (color : Color) (s : State) : Host.Outcome State Fault Refusal :=
  .next (finish {} { s with fb := drawPixel x.toNat y.toNat color s.fb })

/-- CUR.SET (R108): `x_init`, `y_init` and `wc` are not written. -/
def execCurSet (x y : BitVec 8) (s : State) : Host.Outcome State Fault Refusal :=
  .next (finish {} { s with cur := { s.cur with x := x.setWidth 16, y := y.setWidth 16 } })

end Sys2Proof.Machine
end

