-- ==== Sys2Proof/Machine/Render.lean ====
section
/-! DEFINITION. The rasterizer: the cell blit and the three drawing operations (R113 to R122). -/

namespace Sys2Proof.Machine

/-! ## The cell blit -/

/-- The colour a column is drawn in: `c` where the row bit is set, its complement elsewhere (R113). -/
def columnColor (r : PixelRow) (j : Nat) (c : Color) : Color := if rowColumn r j then c else c.complement

/-- One row of a cell, columns left to right (R113). -/
def blitRow (r : PixelRow) (w x0 y : Nat) (c : Color) (m : Memory) : Memory :=
  (List.range w).foldl (fun m j => drawPixel (x0 + j) y (columnColor r j c) m) m

/-- `BlitCell`: the rows of a cell top to bottom, the first at `y` (R113). -/
def blitCell : List PixelRow → Nat → Nat → Nat → Color → Memory → Memory
  | [], _, _, _, _, m => m
  | r :: rs, w, x0, y, c, m => blitCell rs w x0 (y + 1) c (blitRow r w x0 y c m)

/-! ## WR.CHAR -/

/-- Where a character goes and the next wrap counter, `none` for `InsufficientSpace`: the width test on the entry `x`,
the wrap with its multiplicative advance, the height test on the wrapped `y` (R114, R187, C1). -/
def charPlace (w h : Nat) (wrap : Bool) (cur : Cursor) : Option (Nat × Nat × Nat) :=
  if Config.W < cur.x.toNat + w then
    if wrap then
      if Config.H < (cur.yInit.toNat + h) * cur.wc.toNat + h then none
      else some (cur.xInit.toNat, (cur.yInit.toNat + h) * cur.wc.toNat, cur.wc.toNat + 1)
    else none
  else if Config.H < cur.y.toNat + h then none
  else some (cur.x.toNat, cur.y.toNat, cur.wc.toNat)

/-- `WriteChar` (R114): `none` is its failure, which stores nothing. -/
def writeChar (f : Font) (ch : Byte) (wrap : Bool) (c : Color) (s : State) : Option State :=
  match charPlace f.width.toNat f.height.toNat wrap s.cur with
  | none => none
  | some (xn, yn, wcn) =>
    some { s with
      fb := blitCell (glyphRows f ch s.draws) f.width.toNat xn yn c s.fb
      cur := { s.cur with x := trunc16 (xn + f.width.toNat), y := trunc16 yn, wc := trunc16 wcn }
      draws := s.draws + f.height.toNat }

/-- WR.CHAR (R114); an identifier with no asset ends in `Usage` (U4, log 9). -/
def execWrChar (ch : BitVec 8) (font : BitVec 4) (wrap : Bool) (color : Color) (s : State) :
    Host.Outcome State Fault Refusal :=
  .next (match fontOf s.platform font with
    | none => finishUsage s
    | some f =>
      match writeChar f ch wrap color s with
      | none => finish (noSpaceRes Config.failSentinel) s
      | some s' => finish { ret := ch } s')

/-! ## WR.STR -/

/-- How `WriteString` stands after some of its characters (R115): ended, or going on (R192, U13). -/
inductive StringEnd where
  | terminator
  | failed (ch : Byte)
  | goesOn
  deriving DecidableEq, Repr

/-- The characters of a string from address `a` on, at most `n` of them (R115). -/
def writeChars (f : Font) (wrap : Bool) (c : Color) : Nat → BitVec 16 → State → StringEnd × State
  | 0, _, s => (.goesOn, s)
  | n + 1, a, s =>
    if operandByte s a = Config.terminator then (.terminator, afterRead a s)
    else
      match writeChar f (operandByte s a) wrap c (afterRead a s) with
      | none => (.failed (operandByte s a), afterRead a s)
      | some s' => writeChars f wrap c n (a + 1#16) s'

/-- The run origin of a string, recorded before its first character is read (R115). -/
def beginString (s : State) : State :=
  { s with cur := { s.cur with xInit := s.cur.x, yInit := s.cur.y, wc := 1#16 } }

/-- Up to `n` more characters of a string: it returns the terminator or the failing character (R115), or goes on, the
block busy and `RES` not written (R192, U13). -/
def runString (f : Font) (r : StringRun) (n : Nat) (s : State) : State :=
  match writeChars f r.wrap r.color n r.addr s with
  | (.terminator, s') => finish { ret := Config.terminator } s'
  | (.failed ch, s') => finish (noSpaceRes ch) s'
  | (.goesOn, s') => { s' with busy := true, running := some { r with addr := r.addr + BitVec.ofNat 16 n } }

/-- WR.STR (R115). 65536 characters read every byte of operand memory once: while it holds still, a string that has not
ended by then has no end (R192, log 16). -/
def execWrStr (addr : BitVec 16) (font : BitVec 4) (wrap : Bool) (color : Color) (s : State) :
    Host.Outcome State Fault Refusal :=
  .next (match fontOf s.platform font with
    | none => finishUsage s
    | some f =>
      runString f { font := font, wrap := wrap, color := color, addr := addr } Config.opmBytes (beginString s))

/-- A string in progress goes on for up to `n` characters (R115, R192, log 16). -/
def continueString (n : Nat) (s : State) : State :=
  match s.running with
  | none => s
  | some r =>
    match fontOf s.platform r.font with
    | none => s
    | some f => runString f r n { s with running := none }

/-! ## WR.IMG -/

/-- The sections of a sprite, left to right, `Cur.x` advancing by its width after each (R116). -/
def blitSections (sp : Sprite) (y : Nat) (c : Color) (draws n : Nat) (m : Memory) (x : BitVec 16) :
    Memory × BitVec 16 :=
  (List.range n).foldl
    (fun q t => (blitCell (sectionRows sp t draws) sp.width.toNat q.2.toNat y c q.1, trunc16 (q.2.toNat + sp.width.toNat)))
    (m, x)

/-- The origin and `LastSprite`, recorded before the bounds test and kept when it fails (R116, C2). -/
def beginImage (k : BitVec 4) (s : State) : State :=
  { s with
    cur := { s.cur with xInit := s.cur.x, yInit := s.cur.y }
    last := { valid := true, id := k } }

/-- The bounds test of a sprite: one section's width (R116). -/
def imageFits (sp : Sprite) (cur : Cursor) : Bool :=
  decide (cur.x.toNat + sp.width.toNat ≤ Config.W) && decide (cur.y.toNat + sp.height.toNat ≤ Config.H)

/-- The sections drawn and `Cur.x` advanced (R116). -/
def drawImage (sp : Sprite) (c : Color) (s : State) : State :=
  let q := blitSections sp s.cur.y.toNat c s.draws sp.sections.toNat s.fb s.cur.x
  { s with fb := q.1, cur := { s.cur with x := q.2 }, draws := s.draws + sp.sections.toNat * sp.height.toNat }

/-- `WriteImg` (R116), with its failure. -/
def writeImg (k : BitVec 4) (sp : Sprite) (c : Color) (s : State) : State × Bool :=
  if imageFits sp s.cur then (drawImage sp c (beginImage k s), false) else (beginImage k s, true)

/-- WR.IMG (R116); an identifier with no asset ends in `Usage` (U4, log 9). -/
def execWrImg (sprite : BitVec 4) (color : Color) (s : State) : Host.Outcome State Fault Refusal :=
  .next (match spriteOf s.platform sprite with
    | none => finishUsage s
    | some sp =>
      let r := writeImg sprite sp color s
      finish (if r.2 then noSpaceRes 0#8 else {}) r.1)

end Sys2Proof.Machine
end

