-- ==== Sys2Proof/Machine/Sequencer.lean ====
section
/-! DEFINITION. The page-flush sequencer: transactions (R126, R127), INIT, FLUSH and the animation step (R128 to
R133). -/

namespace Sys2Proof.Machine

/-! ## Transactions -/

/-- The sequencer inside an operation: the port, the or of the failures so far (R133), and whether a primitive of the
original never returned (R91, U13). -/
structure Run where
  port : Port
  failed : Bool
  stuck : Bool
  deriving DecidableEq, Repr

/-- A run that has done nothing yet. -/
def Run.begin (p : Port) : Run := { port := p, failed := false, stuck := false }

/-- `r <- r | P(t)`: the primitive is called whatever the earlier ones returned and failures are or-ed (R126, R133);
nothing happens after a primitive that never returns. -/
def Run.call (procedure : Port → Port × PollResult) (r : Run) : Run :=
  if r.stuck then r
  else
    let q := procedure r.port
    { port := q.1, failed := r.failed || decide (q.2 = .timeout), stuck := decide (q.2 = .never) }

/-- `Stop()` inside a transaction: always emitted (R93, R126). -/
def Run.stop (r : Run) : Run := if r.stuck then r else { r with port := emit .reqStop r.port }

/-- `WriteCommand(b)` (R126). -/
def writeCommand (t : Nat) (r : Run) (b : Byte) : Run :=
  let r := r.call (start Config.legacyUnboundedWaits t)
  let r := r.call (sendAddress Config.addrByte t)
  let r := r.call (sendByte Config.legacyUnboundedWaits Config.ctrlCmd t)
  let r := r.call (sendByte Config.legacyUnboundedWaits b t)
  r.stop

/-- `WriteData(p)` of a framebuffer `m` (R127). -/
def writeData (t : Nat) (m : Memory) (r : Run) (p : Nat) : Run :=
  let r := r.call (start Config.legacyUnboundedWaits t)
  let r := r.call (sendAddress Config.addrByte t)
  let r := r.call (sendByte Config.legacyUnboundedWaits Config.ctrlData t)
  let r := r.call (sendBurst Config.legacyUnboundedWaits t (pageBytes m p))
  r.stop

/-- The page-start command byte `0xB0 + p` (R72). -/
def pageStart (p : Nat) : Byte := 0xB0#8 + BitVec.ofNat 8 p

/-- One page of a flush: three command transactions and one data transaction (R129, R72). -/
def flushPage (t : Nat) (m : Memory) (r : Run) (p : Nat) : Run :=
  let r := writeCommand t r (pageStart p)
  let r := writeCommand t r 0x00#8
  let r := writeCommand t r 0x10#8
  writeData t m r p

/-- `FlushPages()` (R129): all pages, nothing short-circuited. -/
def flushPages (t : Nat) (m : Memory) (r : Run) : Run := (List.range Config.pages).foldl (flushPage t m) r

/-- The command phase of INIT: all 28 bytes, none skipped (R128). -/
def initCommands (t : Nat) (r : Run) : Run := Config.initSeq.foldl (writeCommand t) r

/-- The end of a sequencer operation with result `res`, unless a primitive never returned. -/
def endRun (res : Res) (r : Run) (s : State) : State :=
  if r.stuck then neverEnds { s with port := r.port } else finish res { s with port := r.port }

/-! ## INIT and FLUSH -/

/-- `Cur.x <- 0; Cur.y <- 0` (R128, D9). -/
def homeCursor (c : Cursor) : Cursor := { c with x := 0#16, y := 0#16 }

/-- `Init()` with the bound `t` (R128). -/
def initPanel (t : Nat) (s : State) : State :=
  let r := initCommands t (Run.begin s.port)
  if r.stuck then neverEnds { s with port := r.port }
  else if r.failed then finish initFailRes { s with port := r.port }
  else
    let q := flushPages t (fillFrame .black) (Run.begin r.port)
    if q.stuck then neverEnds { s with port := q.port, fb := fillFrame .black }
    else
      finish (if q.failed then initFailRes else {})
        { s with port := q.port, fb := fillFrame .black, cur := homeCursor s.cur }

/-- INIT (R128, R98). -/
def execInit (s : State) : Host.Outcome State Fault Refusal :=
  .next (if s.bto.valid then initPanel s.bto.value.toNat s else finishUsage s)

/-- FLUSH (R129, R98). -/
def execFlush (s : State) : Host.Outcome State Fault Refusal :=
  .next (if s.bto.valid then
      let r := flushPages s.bto.value.toNat s.fb (Run.begin s.port)
      endRun (busRes r.failed) r s
    else finishUsage s)

/-! ## The animation step -/

/-- `Cur.x_init + dir * STEP` over the integers, clamped to `[STEP, W - STEP]` (R130, D18). -/
def moveTarget (p : Platform) (dir : Trigger) (xInit : BitVec 16) : Nat :=
  (clamp ((xInit.toNat : Int) + (match dir with | .right => (p.step : Int) | .left => -(p.step : Int)))
    (p.step : Int) ((Config.W : Int) - (p.step : Int))).toNat

/-- The step proper, with the sprite and the bound at hand: move, clear, redraw in WHITE, flush; neither failure stops
it (R130, D19, D22). -/
def animate (dir : Trigger) (t : Nat) (sp : Sprite) (s : State) : State :=
  let s1 := { s with cur := { s.cur with x := trunc16 (moveTarget s.platform dir s.cur.xInit) }, fb := fillFrame .black }
  let q := writeImg s.last.id sp .white s1
  let r := flushPages t q.1.fb (Run.begin q.1.port)
  endRun { noSpace := q.2, busTimeout := r.failed } r q.1

/-- `Move(dir)` with its checks in order: the bound, the last sprite, its asset (R98, R130, R158, U4, log 9). -/
def moveSprite (dir : Trigger) (s : State) : State :=
  if !s.bto.valid then finishUsage s
  else if !s.last.valid then finishUsage s
  else
    match spriteOf s.platform s.last.id with
    | none => finishUsage s
    | some sp => animate dir s.bto.value.toNat sp s

/-- MOVE.R (R131). -/
def execMoveR (s : State) : Host.Outcome State Fault Refusal := .next (moveSprite .right s)

/-- MOVE.L (R132). -/
def execMoveL (s : State) : Host.Outcome State Fault Refusal := .next (moveSprite .left s)

end Sys2Proof.Machine
end

