-- ==== Sys2Proof/Machine/System.lean ====
section
/-! DEFINITION. Configuration and trigger service (R140 to R142). -/

namespace Sys2Proof.Machine

/-- CFG.TIMEOUT (R140). -/
def execCfgTimeout (value : BitVec 24) (s : State) : Host.Outcome State Fault Refusal :=
  .next (finish {} { s with bto := { valid := true, value := value } })

/-- CFG.TRIG (R141). -/
def execCfgTrig (enR enL qclr : Bool) (s : State) : Host.Outcome State Fault Refusal :=
  .next (finish {} { s with
    ten := { enR := enR, enL := enL }
    tq := if qclr then [] else s.tq
    tqOvf := if qclr then false else s.tqOvf })

/-- TRIG.SVC (R142): the oldest entry is removed, then serviced as one animation step (R162). -/
def execTrigSvc (s : State) : Host.Outcome State Fault Refusal :=
  .next (match s.tq with
    | [] => finish {} s
    | e :: q => moveSprite e { s with tq := q })

end Sys2Proof.Machine
end

