-- ==== Sys2Proof/Machine/Dispatch.lean ====
section
/-! DEFINITION. The dispatch: one arm per operation of rule R66. -/

namespace Sys2Proof.Machine

/-- One operation, run to its end (R7, R63, R164). -/
def exec (i : Instr) (s : State) : Host.Outcome State Fault Refusal :=
  match i with
  | .busStart => Sys2Proof.Machine.execBusStart s
  | .busStop => Sys2Proof.Machine.execBusStop s
  | .busAddr byte => Sys2Proof.Machine.execBusAddr byte s
  | .busByte byte => Sys2Proof.Machine.execBusByte byte s
  | .busBurst addr n => Sys2Proof.Machine.execBusBurst addr n s
  | .fbFill color => Sys2Proof.Machine.execFbFill color s
  | .fbPixel x y color => Sys2Proof.Machine.execFbPixel x y color s
  | .curSet x y => Sys2Proof.Machine.execCurSet x y s
  | .wrChar ch font wrap color => Sys2Proof.Machine.execWrChar ch font wrap color s
  | .wrStr addr font wrap color => Sys2Proof.Machine.execWrStr addr font wrap color s
  | .wrImg sprite color => Sys2Proof.Machine.execWrImg sprite color s
  | .init => Sys2Proof.Machine.execInit s
  | .flush => Sys2Proof.Machine.execFlush s
  | .moveR => Sys2Proof.Machine.execMoveR s
  | .moveL => Sys2Proof.Machine.execMoveL s
  | .trigSvc => Sys2Proof.Machine.execTrigSvc s
  | .cfgTimeout value => Sys2Proof.Machine.execCfgTimeout value s
  | .cfgTrig enR enL qclr => Sys2Proof.Machine.execCfgTrig enR enL qclr s

end Sys2Proof.Machine
end

