-- ==== Sys2Proof/Machine/Events.lean ====
section
/-! DEFINITION. What the outside does to the block (log 2): command words (R63, R67, R181), trigger edges (R160), the
reset input (R176, R178), the read-back port (R31), writes of operand memory (R48, R59) and a string that goes on (R192). -/

namespace Sys2Proof.Machine

/-! ## Command words -/

/-- A word accepted by an idle block: `busy` is set, the word is decoded, and its operation runs; an illegal word ends
at once in `Usage` (R63, R67). -/
def runWord (w : Word) (s : State) : Host.Outcome State Fault Refusal :=
  match decode w with
  | .ok i => exec i { s with busy := true }
  | .error _ => .next (finishUsage { s with busy := true })

/-- A word presented: accepted by an idle block out of reset, otherwise neither accepted nor remembered (R20, R176,
R181, log 13). -/
def presentWord (w : Word) (s : State) : Host.Outcome State Fault Refusal :=
  if s.busy || s.inReset then .next s else runWord w s

/-! ## Trigger edges -/

/-- The enable of a trigger (R22). -/
def TrigEnable.enables (e : TrigEnable) : Trigger → Bool
  | .right => e.enR
  | .left => e.enL

/-- Capture of an edge (R160): while reset is asserted none is captured (R176). -/
def captureEdge (t : Trigger) (s : State) : State :=
  if s.inReset || !s.ten.enables t then s
  else if s.tq.length < s.platform.queueDepth then { s with tq := s.tq ++ [t] }
  else { s with tqOvf := true }

/-! ## Operand memory (R48, R59) -/

/-- The state an operation runs on while these writes of operand memory are made: memory as they leave it, each value
they replace kept as one that a read of the operation may return (R59, U8, log 12). -/
def writtenDuring (ws : List (BitVec 16 × Byte)) (s : State) : State :=
  ws.foldl (fun t c => overwriteOperand c.1 c.2 t) { s with draws := s.draws + 1 }

/-- No operation in progress: operand reads are over, and what the bytes were is forgotten (R59). -/
def settle (s : State) : State := if s.busy then s else { s with stale := [] }

/-- A word presented, and operand memory written during its operation (R59, U8, log 12). -/
def presentWordWithWrites (w : Word) (ws : List (BitVec 16 × Byte)) (s : State) : Host.Outcome State Fault Refusal :=
  match presentWord w (writtenDuring ws s) with
  | .next s' => .next (settle s')
  | .fault r => .fault r
  | .refused r => .refused r

/-! ## Reset -/

/-- Every piece of block state at its reset value, the unspecified ones drawn anew; the environment is not touched
(R33, R176, R178). -/
def resetBlock (s : State) : State :=
  { s with
    fb := fbReset s.draws
    cur := { x := 0#16, y := 0#16, xInit := 0#16, yInit := 0#16, wc := 1#16 }
    last := { valid := false, id := Config.lastIdAtReset s.draws }
    bto := { valid := false, value := Config.btoAtReset s.draws }
    ten := { enR := false, enL := false }
    tq := []
    tqOvf := false
    res := {}
    busy := false
    running := none
    stale := []
    draws := s.draws + 1 }

/-- The reset input is driven to a level (R176). That the reset values hold already while it is asserted, that its release
draws the unspecified ones once more, and that driving it to the level it has (a release with no reset asserted among
them) resets the block all the same, are the model's choices (DESIGN CHOICE, log 18). -/
def setReset (asserted : Bool) (s : State) : State := { resetBlock s with inReset := asserted }

/-- The port after the bus log entries of an operation that was abandoned: their samples and status reads were drawn,
no later one was (R176, log 18). -/
def replay : List BusEvent → Port → Port
  | [], p => p
  | .sample f v :: es, p =>
    replay es { p.withSource f (p.source f).next with draws := p.draws + 1, log := .sample f v :: p.log }
  | e :: es, p =>
    replay es (emit e (if (e = .rdStatus1 ∨ e = .rdStatus2) ∧ p.log.head? = some (.sample .addr true)
      then { p with order := p.order.next, draws := p.draws + 1 } else p))

/-- An operation abandoned when it has made `k` entries in the bus log: the block is in reset, the entries stand, and
no stop is sent (R176). -/
def cutByReset (k : Nat) (s after : State) : State :=
  setReset true { s with
    port := replay ((after.port.busLog.drop s.port.log.length).take k) s.port
    draws := after.draws }

/-- A word presented, operand memory written and reset asserted during its operation (R59, R176). -/
def presentWordThenReset (w : Word) (ws : List (BitVec 16 × Byte)) (k : Nat) (s : State) :
    Host.Outcome State Fault Refusal :=
  match presentWord w (writtenDuring ws s) with
  | .next s' => .next (cutByReset k (writtenDuring ws s) s')
  | .fault r => .fault r
  | .refused r => .refused r

/-! ## The read-back port -/

/-- The value at an address of the read-back port while the block is idle, where R31 lists one. -/
def readBackIdle (s : State) (addr : Nat) : Option Word :=
  if addr = 0x000 then some s.res.toWord
  else if addr = 0x004 then some (statWord s)
  else if addr = 0x008 then some (btoWord s.bto)
  else if addr = 0x00C then some (tenWord s.ten)
  else if addr = 0x010 then some (s.cur.x.setWidth 32)
  else if addr = 0x014 then some (s.cur.y.setWidth 32)
  else if addr = 0x018 then some (s.cur.xInit.setWidth 32)
  else if addr = 0x01C then some (s.cur.yInit.setWidth 32)
  else if addr = 0x020 then some (s.cur.wc.setWidth 32)
  else if addr = 0x024 then some (lastWord s.last)
  else if 0x400 ≤ addr ∧ addr < 0x400 + Config.fbBytes then some ((fbRead s.fb (addr - 0x400)).setWidth 32)
  else none

/-- The value the port returns (R31): `STAT` alone while busy, every listed address while idle, else a free value
(U9, log 17). -/
def readBack (s : State) (addr : Nat) : Word :=
  if s.inReset || (s.busy && !decide (addr = 0x004)) then Config.freeRead s.draws addr
  else (readBackIdle s addr).getD (Config.freeRead s.draws addr)

/-- A read of the port: the answer is recorded, the block is not changed (R31, log 17). -/
def recordRead (addr : Nat) (s : State) : State :=
  { s with reads := s.reads ++ [(addr, readBack s addr)], draws := s.draws + 1 }

/-! ## Events -/

/-- The effect of one event of the outside. -/
def handle (e : HostEvent) (s : State) : Host.Outcome State Fault Refusal :=
  match e with
  | .command w => presentWord w s
  | .edge t => .next (captureEdge t s)
  | .opmWrite a b => .next (changeOperand a b s)
  | .readBack a => .next (recordRead a s)
  | .reset level => .next (setReset level s)
  | .commandWithWrites w ws => presentWordWithWrites w ws s
  | .commandCutByReset w ws k => presentWordThenReset w ws k s
  | .pass n => .next (settle (continueString n s))

/-- One step: the oldest pending event is taken and handled; with none pending the block idles (log 1, log 2). -/
def stepEvent (s : State) : Host.Outcome State Fault Refusal :=
  match s.inbox with
  | [] => .next s
  | e :: rest => handle e { s with inbox := rest }

/-- The state whose next event is this command word, presented to an idle block out of reset (log 2). -/
def withNextWord (s : State) (w : Word) : State :=
  { s with inbox := .command w :: s.inbox, busy := false, inReset := false }

end Sys2Proof.Machine
end

