-- ==== Sys2Proof/Machine/Step.lean ====
section
/-! DEFINITION. One step of the machine, and the placing of a command word where the next step takes it. -/

namespace Sys2Proof.Machine

/-- One step: one event of the outside, one whole operation if it is a command word (R7, R20, R63, log 1, log 2). -/
def step (s : State) : Host.Outcome State Fault Refusal := stepEvent s

/-- The command word `w` presented to the idle block, so that the next step runs it; every table row has 32 bits
(R63, R78, log 2). -/
def State.withFetchWord (s : State) (_nbits w : Nat) : State := withNextWord s (BitVec.ofNat 32 w)

end Sys2Proof.Machine
end

