-- ==== Sys2Proof/Safety.lean ====
section
/-! DEFINITION. What a good state and a good environment are, in the terms the statements use. -/

namespace Sys2Proof.Machine

/-- The error sets one operation can report (R158): `Usage` always alone and with `ret` 0, `InitFailure` never without
`BusTimeout` and never with `InsufficientSpace`. -/
def Res.Legal (r : Res) : Prop :=
  (r.usage = true → r.ret = 0#8 ∧ r.busTimeout = false ∧ r.noSpace = false ∧ r.init = false) ∧
  (r.init = true → r.ret = 0#8 ∧ r.busTimeout = true ∧ r.noSpace = false ∧ r.usage = false)

/-- The invariant of the machine: both memories keep their canonical form (R14, R48), the trigger queue keeps its
bound (R23), the vertical positions stay below 256 (R121; CUR.SET stores at most 255), a valid last sprite names an
installed asset (R19, R44), `RES` holds a legal set of errors (R158), between two steps the block is busy exactly while a
string goes on, whose font is installed (R20, R192), and earlier values of operand bytes are kept only then (R59). -/
structure State.Inv (s : State) : Prop where
  fbForm : s.fb.wf .fb = true
  opmForm : s.opm.wf .opm = true
  queueBound : s.tq.length ≤ s.platform.queueDepth
  yBound : s.cur.y.toNat < 256
  yInitBound : s.cur.yInit.toNat < 256
  lastInstalled : s.last.valid = true → (spriteOf s.platform s.last.id).isSome = true
  resLegal : s.res.Legal
  busyRuns : s.busy = s.running.isSome
  runningInstalled : ∀ r, s.running = some r → (fontOf s.platform r.font).isSome = true
  idleSettled : s.busy = false → s.stale = []

/-- A source that answers 1 at every draw. -/
def Source.Ready (q : Source) : Prop := q.answers = [] ∧ q.steady = some true

/-- A source that answers 0 at every draw. -/
def Source.Dead (q : Source) : Prop := q.answers = [] ∧ q.steady = some false

/-- All flags ready: every sample of the four flags reads 1 (the vectors' "All flags ready"). -/
def Port.AllReady (p : Port) : Prop := p.start.Ready ∧ p.addr.Ready ∧ p.txe.Ready ∧ p.btf.Ready

/-- The samples of one poll with bound `n` that ended in `OK` or not: zeros and then a one, at most `n + 1` in all, or
exactly `n + 1` zeros (R90). -/
def PollSamples (n : Nat) (vs : List Bool) (ok : Bool) : Prop :=
  (ok = true ∧ ∃ k, k ≤ n ∧ vs = List.replicate k false ++ [true]) ∨
  (ok = false ∧ vs = List.replicate (n + 1) false)

/-- The bus log entries of a list of samples of one flag (R29). -/
def samplesOf (f : Flag) (vs : List Bool) : List BusEvent := vs.map (.sample f)

/-- The number of flag samples among bus log entries (R184). -/
def sampleCount (es : List BusEvent) : Nat :=
  es.countP fun e => match e with | .sample _ _ => true | _ => false

/-- The data bytes among bus log entries, in order. -/
def dataBytes (es : List BusEvent) : List Byte :=
  es.filterMap fun e => match e with | .txData b => some b | _ => none

/-- The pair of status reads in one of its two orders (R94, U6). -/
def statusPair (firstIsOne : Bool) : List BusEvent :=
  if firstIsOne then [.rdStatus1, .rdStatus2] else [.rdStatus2, .rdStatus1]

/-- The bus log entries of the data bytes `ds` sent with bound `n`, and whether they ended in `OK`: before each byte a
transmit-empty poll, whose failure ends the burst with that byte unwritten, and one transfer-complete poll after the
last (R95, R96). -/
inductive BurstLog (n : Nat) : List Byte → List BusEvent → Bool → Prop where
  | done {vs : List Bool} {ok : Bool} : PollSamples n vs ok → BurstLog n [] (samplesOf .btf vs) ok
  | byte {d : Byte} {ds : List Byte} {vs : List Bool} {es : List BusEvent} {ok : Bool} :
      PollSamples n vs true → BurstLog n ds es ok → BurstLog n (d :: ds) (samplesOf .txe vs ++ .txData d :: es) ok
  | full {d : Byte} {ds : List Byte} {vs : List Bool} :
      PollSamples n vs false → BurstLog n (d :: ds) (samplesOf .txe vs) false

/-- The bus log entries of one transaction with bound `n`, control byte `ctrl` and payload `ds`: every primitive is
called whatever the earlier ones gave, the stop is always emitted, and the transaction is good when all four
primitives are (R68, R126, R127). -/
def Transaction (n : Nat) (ctrl : Byte) (ds : List Byte) (es : List BusEvent) (ok : Bool) : Prop :=
  ∃ vs ws cs ps first okStart okAddr okCtrl okData,
    PollSamples n vs okStart ∧ PollSamples n ws okAddr ∧ BurstLog n [ctrl] cs okCtrl ∧ BurstLog n ds ps okData ∧
    es = [.reqStart] ++ samplesOf .start vs ++ [.txAddr 0x78#8] ++ samplesOf .addr ws ++
      (if okAddr then statusPair first else []) ++ cs ++ ps ++ [.reqStop] ∧
    ok = (okStart && okAddr && okCtrl && okData)

/-- The bus log entries of a list of transactions, given as control byte and payload, all made in order; good when
every one is (R129, R133). -/
inductive Transactions (n : Nat) : List (Byte × List Byte) → List BusEvent → Bool → Prop where
  | nil : Transactions n [] [] true
  | cons {ctrl : Byte} {ds : List Byte} {rest : List (Byte × List Byte)} {es fs : List BusEvent} {ok okRest : Bool} :
      Transaction n ctrl ds es ok → Transactions n rest fs okRest →
      Transactions n ((ctrl, ds) :: rest) (es ++ fs) (ok && okRest)

/-- The transactions of a flush of `m`: for each page the three commands and the page's 128 bytes (R72, R129). -/
def flushPlan (m : Memory) : List (Byte × List Byte) :=
  (List.range 8).flatMap fun p =>
    [(0x00#8, [BitVec.ofNat 8 (0xB0 + p)]), (0x00#8, [0x00#8]), (0x00#8, [0x10#8]),
     (0x40#8, (List.range 128).map fun c => fbRead m (p * 128 + c))]

/-- The transactions of INIT's command phase: one for each of the 28 bytes of R71, in its order (R128). -/
def initPlan : List (Byte × List Byte) :=
  [0xAE, 0x20, 0x10, 0xB0, 0x00, 0x10, 0xC8, 0x40, 0x81, 0xFF, 0xA1, 0xA6, 0xA8, 0x3F, 0xA4, 0xD3, 0x00, 0xD5, 0xF0,
    0xD9, 0x22, 0xDA, 0x12, 0xDB, 0x20, 0x8D, 0x14, 0xAF].map fun n => (0x00#8, [BitVec.ofNat 8 n])

/-- `m'` is `m` with a cell of the given rows, `w` columns wide, drawn with its top-left pixel at (`x0`, `y0`): each
pixel of the panel inside the cell has the colour `c` where its row bit is set and the complement elsewhere, and every
other pixel is as before (R47, R113). -/
def CellDrawn (rows : List PixelRow) (w x0 y0 : Nat) (c : Color) (m m' : Memory) : Prop :=
  ∀ x y, x < 128 → y < 64 →
    pixel m' x y =
      if x0 ≤ x ∧ x < x0 + w ∧ y0 ≤ y ∧ y < y0 + rows.length then
        decide ((if x - x0 ≤ 15 ∧ (rows.getD (y - y0) 0#16).getLsbD (15 - (x - x0)) = true then c else c.complement) =
          Color.white)
      else pixel m x y

/-- `m'` is `m` with the sections of a sprite drawn side by side, the first at (`x0`, `y0`) (R46, R116). `draws`
numbers the free rows of a sprite whose row sequence is too short. -/
def SpriteDrawn (sp : Sprite) (draws x0 y0 : Nat) (c : Color) (m m' : Memory) : Prop :=
  ∀ x y, x < 128 → y < 64 →
    pixel m' x y =
      if x0 ≤ x ∧ x < x0 + sp.width.toNat * sp.sections.toNat ∧ y0 ≤ y ∧ y < y0 + sp.height.toNat then
        decide ((if (x - x0) % sp.width.toNat ≤ 15 ∧
            ((sectionRows sp ((x - x0) / sp.width.toNat) draws).getD (y - y0) 0#16).getLsbD
              (15 - (x - x0) % sp.width.toNat) = true
          then c else c.complement) = Color.white)
      else pixel m x y

/-- The characters drawn one after another, each with success (R115). -/
inductive CharsDrawn (f : Font) (wrap : Bool) (c : Color) : List Byte → State → State → Prop where
  | nil {s : State} : CharsDrawn f wrap c [] s s
  | cons {ch : Byte} {cs : List Byte} {s s' t : State} :
      writeChar f ch wrap c s = some s' → CharsDrawn f wrap c cs s' t → CharsDrawn f wrap c (ch :: cs) s t

/-- Operand memory holds these bytes from `addr` on, addresses modulo 65536, and none of them has changed since the
operation began (R48, R49, R59). -/
def HoldsBytes (s : State) (addr : BitVec 16) (bs : List Byte) : Prop :=
  ∀ i, (h : i < bs.length) → opmRead s.opm (addr + BitVec.ofNat 16 i) = bs[i] ∧
    ∀ b, (addr + BitVec.ofNat 16 i, b) ∉ s.stale

/-- `b` is a value an `OpmRead` of address `a` may return: the byte, or one it has had since the operation began (R48,
R59, U8). -/
def CanRead (s : State) (a : BitVec 16) (b : Byte) : Prop := b = opmRead s.opm a ∨ (a, b) ∈ s.stale

/-- The characters read from address `a` on and drawn one after another, each with success, each a value its address may
be read as; between two of them the model's counter may move (R59, R115). -/
inductive CharsRead (f : Font) (wrap : Bool) (c : Color) : BitVec 16 → List Byte → State → State → Prop where
  | nil {a : BitVec 16} {s : State} : CharsRead f wrap c a [] s s
  | cons {a : BitVec 16} {ch : Byte} {cs : List Byte} {s s' t : State} (d : Nat) :
      CanRead s a ch → ch ≠ 0x00#8 → writeChar f ch wrap c { s with draws := d } = some s' →
      CharsRead f wrap c (a + 1#16) cs s' t → CharsRead f wrap c a (ch :: cs) s t

/-- `u` is where up to `n` characters of the string `r` bring `s`: ended at a value that is the terminator, ended at a
character that fails, or going on after `n` of them (R115, R192, U13). -/
def StringStep (f : Font) (r : StringRun) (n : Nat) (s u : State) : Prop :=
  ∃ cs t d, CharsRead f r.wrap r.color r.addr cs s t ∧
    ((cs.length < n ∧ CanRead t (r.addr + BitVec.ofNat 16 cs.length) 0x00#8 ∧
        u = { t with draws := d, res := { ret := 0x00#8 }, busy := false }) ∨
     (cs.length < n ∧ ∃ ch, ch ≠ 0x00#8 ∧ CanRead t (r.addr + BitVec.ofNat 16 cs.length) ch ∧
        writeChar f ch r.wrap r.color { t with draws := d } = none ∧
        u = { t with draws := d, res := { ret := ch, noSpace := true }, busy := false }) ∨
     (cs.length = n ∧ u = { t with busy := true, running := some { r with addr := r.addr + BitVec.ofNat 16 n } }))

/-- The block is idle, out of reset: it accepts a command word (R20, R176). -/
def State.Accepts (s : State) : Prop := s.busy = false ∧ s.inReset = false

/-- The three operations that run an animation step in direction `dir`: MOVE.R, MOVE.L, and TRIG.SVC with that entry
oldest; `s0` is the state the step starts from, the entry removed (R131, R132, R142). -/
def AnimationStep (i : Instr) (dir : Trigger) (s s0 : State) : Prop :=
  (i = .moveR ∧ dir = .right ∧ s0 = s) ∨ (i = .moveL ∧ dir = .left ∧ s0 = s) ∨
  (i = .trigSvc ∧ ∃ q, s.tq = dir :: q ∧ s0 = { s with tq := q })

end Sys2Proof.Machine
end

