-- ==== Sys2Proof/Certificates/Slice0/Obligations.lean ====
section
/-! DEFINITION. The statements for the provers, in the order of OBLIGATIONS.json. -/

open Sys2Proof Sys2Proof.Machine

/-! ## Encodings (R63 to R67) -/

/-- Decoding the word of a well-formed operation gives it back, with every operand (R64, R65, R66). -/
def Obligations.DecodeOfEncodeGivesTheOperationBack : Prop :=
  ∀ i : Instr, i.WellFormed = true → decode (encode i) = .ok i

/-- Every word that decodes is the word of the operation it decodes to, and that operation is well formed: no bit of a
word is dropped (R64, R65, R66, R67). -/
def Obligations.EncodeOfDecodeGivesTheWordBack : Prop :=
  ∀ (w : Word) (i : Instr), decode w = .ok i → i.WellFormed = true ∧ encode i = w

/-- R66: the 18 rows, that a word selects a row when `(word & mask) = match`, that no two rows overlap, and that the
selected row gives the operation; a word that selects none decodes to none (R67). -/
def Obligations.DecodeFollowsTheOpcodeTable : Prop :=
  ([Op.busStart, .busStop, .busAddr, .busByte, .busBurst, .fbFill, .fbPixel, .curSet, .wrChar].map
      (fun o => (o.pattern.toNat, o.mask.toNat)) =
    [(0x10000000, 0xFFFFFFFF), (0x11000000, 0xFFFFFFFF), (0x12000000, 0xFFFFFF00), (0x13000000, 0xFFFFFF00),
     (0x14000000, 0xFF000000), (0x20000000, 0xFFFFFFFE), (0x21000000, 0xFF0000FE), (0x22000000, 0xFF0000FF),
     (0x30000000, 0xFF00FF0C)]) ∧
  ([Op.wrStr, .wrImg, .init, .flush, .moveR, .moveL, .trigSvc, .cfgTimeout, .cfgTrig].map
      (fun o => (o.pattern.toNat, o.mask.toNat)) =
    [(0x31000000, 0xFF00000C), (0x32000000, 0xFFFFFF0E), (0x40000000, 0xFFFFFFFF), (0x41000000, 0xFFFFFFFF),
     (0x42000000, 0xFFFFFFFF), (0x43000000, 0xFFFFFFFF), (0x44000000, 0xFFFFFFFF), (0x50000000, 0xFF000000),
     (0x51000000, 0xFFFFFFF8)]) ∧
  (∀ (w : Word) (a b : Op), w &&& a.mask = a.pattern → w &&& b.mask = b.pattern → a = b) ∧
  (∀ (w : Word) (o : Op), w &&& o.mask = o.pattern → decode w = .ok (o.operands w) ∧ (o.operands w).op = o) ∧
  (∀ w : Word, (∀ o : Op, w &&& o.mask ≠ o.pattern) → ∃ e, decode w = .error e)

/-- Words written out from the formats of R64 decode to the operations they stand for. -/
def Obligations.WrittenOutWordsDecode : Prop :=
  decode 0x12000078#32 = .ok (.busAddr 0x78#8) ∧
  decode 0x14FFFF01#32 = .ok (.busBurst 0xFFFF#16 2) ∧
  decode 0x21050A01#32 = .ok (.fbPixel 5#8 10#8 .white) ∧
  decode 0x31011003#32 = .ok (.wrStr 0x0110#16 0#4 true .white) ∧
  decode 0x32000011#32 = .ok (.wrImg 1#4 .white) ∧
  decode 0x44000000#32 = .ok .trigSvc ∧
  decode 0x51000006#32 = .ok (.cfgTrig false true true)

/-- R67: an illegal word, presented to an idle block, makes no port action, changes nothing but `RES`, and ends with
`ERR_USAGE` and `fail` set and `ret` zero. -/
def Obligations.IllegalWordSetsOnlyUsage : Prop :=
  ∀ (s : State) (w : Word) (rest : List HostEvent), s.Accepts → s.inbox = .command w :: rest →
    (∀ o : Op, w &&& o.mask ≠ o.pattern) →
    ∃ t, step s = .next t ∧
      t = { s with inbox := rest, res := t.res } ∧ t.res.usage = true ∧ t.res.fail = true ∧ t.res.ret = 0#8

/-! ## Steps -/

/-- A step that takes a command word runs the operation it decodes to, on the state with the word taken and `busy` set
(R63); `withFetchWord` places a word so. -/
def Obligations.StepRunsTheDecodedOperation : Prop :=
  (∀ (s : State) (w : Word) (i : Instr) (rest : List HostEvent), s.Accepts → s.inbox = .command w :: rest →
    decode w = .ok i → step s = exec i { s with inbox := rest, busy := true }) ∧
  (∀ (s : State) (n w : Nat) (i : Instr), decode (BitVec.ofNat 32 w) = .ok i →
    step (s.withFetchWord n w) = exec i { s with busy := true, inReset := false })

/-- A word presented while an operation is in progress, or while reset is asserted, is neither accepted nor remembered
(R20, R176, R181). That nothing else happens, where U11 says that a model may refuse, and that a word presented in reset
is not remembered either, is deduced (log 13). -/
def Obligations.WordWhileBusyOrInResetIsDropped : Prop :=
  ∀ (s : State) (w : Word) (rest : List HostEvent), s.busy = true ∨ s.inReset = true →
    s.inbox = .command w :: rest → step s = .next { s with inbox := rest }

/-- Every operation answers a next state, on every state: no operation faults or is refused (R154, R155). That it does so
for an identifier with no asset (log 9), for a cursor store over 16 bits (log 10) and for a string without an end, whose
next state stays busy (log 16), is the model's choice. Where an operation has its own effect is said by the statements
below. -/
def Obligations.NoOperationStops : Prop :=
  ∀ (i : Instr) (s : State), ∃ t, exec i s = .next t

/-! ## The invariant -/

/-- The machine's invariant holds after reset. -/
def Obligations.ResetMeetsTheInvariant : Prop := State.reset.Inv

/-- Every step from a state that meets the invariant gives a state that meets it. -/
def Obligations.EveryStepKeepsTheInvariant : Prop :=
  ∀ s t : State, s.Inv → step s = .next t → t.Inv

/-! ## Reset (R33, R176, R178) -/

/-- R33: the reset values. The bytes of `FB`, `LastSprite.id` and `BTO.value` are unspecified; that they are the free
values numbered 0 is the model's choice (log 6, log 7). -/
def Obligations.ResetValues : Prop :=
  State.reset.cur.x = 0#16 ∧ State.reset.cur.y = 0#16 ∧ State.reset.cur.xInit = 0#16 ∧ State.reset.cur.yInit = 0#16 ∧
  State.reset.cur.wc = 1#16 ∧ State.reset.last.valid = false ∧ State.reset.bto.valid = false ∧
  tenWord State.reset.ten = 0#32 ∧ State.reset.tq = [] ∧ State.reset.tqOvf = false ∧ State.reset.res.toWord = 0#32 ∧
  State.reset.busy = false ∧ statWord State.reset = 0#32 ∧
  (∀ i, i < 1024 → fbRead State.reset.fb i = Config.fbAtReset 0 i) ∧
  State.reset.last.id = Config.lastIdAtReset 0 ∧ State.reset.bto.value = Config.btoAtReset 0

/-- R176, R178: driving the reset input leaves the block idle with the values of R33, whatever it was doing; the bus log,
the peripheral's answers and operand memory are not touched; while reset is asserted no word is accepted and no edge is
captured. That the reset values hold already while it is asserted and at every event of the input (log 18), and that the
bytes of `FB` are the free values numbered by the counter (log 6), is the model's choice. -/
def Obligations.ResetInputLeavesResetValues : Prop :=
  ∀ (s : State) (rest : List HostEvent) (asserted : Bool), s.inbox = .reset asserted :: rest →
    ∃ t, step s = .next t ∧ t.inReset = asserted ∧ t.busy = false ∧ t.res = {} ∧
      t.cur = { x := 0#16, y := 0#16, xInit := 0#16, yInit := 0#16, wc := 1#16 } ∧ t.last.valid = false ∧
      t.bto.valid = false ∧ t.ten = { enR := false, enL := false } ∧ t.tq = [] ∧ t.tqOvf = false ∧
      (∀ i, i < 1024 → fbRead t.fb i = Config.fbAtReset s.draws i) ∧
      t.port = s.port ∧ t.opm = s.opm ∧ t.platform = s.platform ∧ t.inbox = rest ∧
      (asserted = true → ∀ (w : Word) (e : Trigger) (more : List HostEvent),
        step { t with inbox := .command w :: more } = .next { t with inbox := more } ∧
        step { t with inbox := .edge e :: more } = .next { t with inbox := more })

/-- R176: an operation abandoned by reset leaves in the bus log exactly its first entries, sends no stop of its own,
and the block is in reset; operand memory keeps what was written during the operation. That the points of abandonment are
the log entries is the model's choice (log 18). -/
def Obligations.AbandonedOperationLeavesAPrefix : Prop :=
  ∀ (s t : State) (w : Word) (ws : List (BitVec 16 × Byte)) (i : Instr) (k : Nat) (rest : List HostEvent), s.Accepts →
    s.inbox = .commandCutByReset w ws k :: rest → decode w = .ok i →
    exec i { writtenDuring ws { s with inbox := rest } with busy := true } = .next t →
    ∃ u, step s = .next u ∧ u.inReset = true ∧ u.busy = false ∧ u.res = {} ∧ u.tq = [] ∧ u.bto.valid = false ∧
      u.port.busLog = s.port.busLog ++ (t.port.busLog.drop s.port.busLog.length).take k ∧
      (∀ a, opmRead u.opm a = (ws.reverse.lookup a).getD (opmRead s.opm a)) ∧ u.platform = s.platform

/-! ## The bus master (R90 to R100) -/

/-- R90: a poll takes zeros and then a one, at most `n + 1` samples, or exactly `n + 1` zeros; its samples are the only
entries it makes, and no other source is drawn from. -/
def Obligations.PollTakesAtMostBoundPlusOneSamples : Prop :=
  ∀ (f : Flag) (n : Nat) (p : Port), ∃ vs ok, PollSamples n vs ok ∧
    (poll f n p).2 = (if ok = true then .ok else .timeout) ∧
    (poll f n p).1.busLog = p.busLog ++ samplesOf f vs ∧
    (∀ g, g ≠ f → (poll f n p).1.source g = p.source g) ∧ (poll f n p).1.order = p.order

/-- A poll follows the flag's answers: the first one within the bound ends it with `OK`, the answers after it stay for
later; `n + 1` zeros end it with `TIMEOUT` (R90, R28). Scripted answers are the model's form of the environment (log 4). -/
def Obligations.PollFollowsTheAnswers : Prop :=
  (∀ (f : Flag) (n k : Nat) (rest : List Bool) (p : Port), k ≤ n →
    (p.source f).answers = List.replicate k false ++ true :: rest →
    (poll f n p).2 = .ok ∧ ((poll f n p).1.source f).answers = rest) ∧
  (∀ (f : Flag) (n : Nat) (rest : List Bool) (p : Port),
    (p.source f).answers = List.replicate (n + 1) false ++ rest →
    (poll f n p).2 = .timeout ∧ ((poll f n p).1.source f).answers = rest)

/-- R90, R92, R99: BUS.START with a bound set requests the start, polls `F_START` within the bound, and reports whether the
poll timed out; nothing else of the block changes. The original's unbounded wait is not the block's (R91, C6). -/
def Obligations.BusStartRequestsAndPolls : Prop :=
  ∀ s : State, s.bto.valid = true → ∃ t vs ok, exec .busStart s = .next t ∧
    PollSamples s.bto.value.toNat vs ok ∧
    t.port.busLog = s.port.busLog ++ [.reqStart] ++ samplesOf .start vs ∧
    t = { s with port := t.port, res := { busTimeout := !ok }, busy := false } ∧
    t.port.addr = s.port.addr ∧ t.port.txe = s.port.txe ∧ t.port.btf = s.port.btf ∧ t.port.order = s.port.order

/-- R93: BUS.STOP emits the stop request, samples nothing, needs no bound and leaves `RES` zero. -/
def Obligations.BusStopOnlyEmits : Prop :=
  ∀ s : State, ∃ t, exec .busStop s = .next t ∧ t.port.busLog = s.port.busLog ++ [.reqStop] ∧
    t = { s with port := { s.port with log := t.port.log }, res := {}, busy := false }

/-- R94, R99: BUS.ADDR sends its byte as given, polls `F_ADDR`, and makes the pair of status reads, in either order,
exactly when the poll succeeded. -/
def Obligations.BusAddrReadsStatusOnSuccess : Prop :=
  ∀ (b : Byte) (s : State), s.bto.valid = true → ∃ t vs ok first, exec (.busAddr b) s = .next t ∧
    PollSamples s.bto.value.toNat vs ok ∧
    t.port.busLog = s.port.busLog ++ [.txAddr b] ++ samplesOf .addr vs ++ (if ok = true then statusPair first else []) ∧
    t = { s with port := t.port, res := { busTimeout := !ok }, busy := false } ∧
    t.port.start = s.port.start ∧ t.port.txe = s.port.txe ∧ t.port.btf = s.port.btf

/-- R95, R99: BUS.BYTE writes its byte only after the transmit-empty poll succeeded, then polls for the end of the
transfer; either timeout is reported. -/
def Obligations.BusByteWaitsThenWrites : Prop :=
  ∀ (b : Byte) (s : State), s.bto.valid = true → ∃ t es ok, exec (.busByte b) s = .next t ∧
    BurstLog s.bto.value.toNat [b] es ok ∧ t.port.busLog = s.port.busLog ++ es ∧
    t = { s with port := t.port, res := { busTimeout := !ok }, busy := false } ∧
    t.port.start = s.port.start ∧ t.port.addr = s.port.addr ∧ t.port.order = s.port.order

/-- R96, R99: BUS.BURST sends the `n` bytes of operand memory from `addr` on, addresses modulo 65536, each after a
transmit-empty poll, with one transfer-complete poll at the end; it stops at the first timeout. A byte that is changed
during the operation is sent as one of the values it has had (R59). -/
def Obligations.BusBurstSendsOperandBytes : Prop :=
  ∀ (addr : BitVec 16) (n : Nat) (s : State), s.bto.valid = true → ∃ t ds es ok, exec (.busBurst addr n) s = .next t ∧
    ds.length = n ∧
    (∀ i, (h : i < ds.length) → ds[i] = opmRead s.opm (addr + BitVec.ofNat 16 i) ∨
      (addr + BitVec.ofNat 16 i, ds[i]) ∈ s.stale) ∧
    BurstLog s.bto.value.toNat ds es ok ∧ t.port.busLog = s.port.busLog ++ es ∧
    t = { s with port := t.port, res := { busTimeout := !ok }, busy := false } ∧
    t.port.start = s.port.start ∧ t.port.addr = s.port.addr ∧ t.port.order = s.port.order

/-- R98: with no bound set, every operation that would poll changes nothing but `RES`, which reports `Usage`; TRIG.SVC
has removed its entry. -/
def Obligations.UnsetBoundEndsInUsage : Prop :=
  ∀ s : State, s.bto.valid = false →
    (∀ i : Instr, i.op ∈ [Op.busStart, .busAddr, .busByte, .busBurst, .init, .flush, .moveR, .moveL] →
      exec i s = .next { s with res := { usage := true }, busy := false }) ∧
    (∀ (e : Trigger) (q : List Trigger), s.tq = e :: q →
      exec .trigSvc s = .next { s with tq := q, res := { usage := true }, busy := false })

/-- R91: on a flag that reads 0 for ever the original's start wait and its transmit-empty wait, of a byte and of a burst,
never return, where the block's return `TIMEOUT` after `t + 1` samples. -/
def Obligations.OriginalWaitsNeverReturnOnADeadFlag : Prop :=
  (∀ (t : Nat) (p : Port), p.start.Dead → (start true t p).2 = .never ∧ (start false t p).2 = .timeout ∧
    (start false t p).1.busLog = p.busLog ++ [.reqStart] ++ samplesOf .start (List.replicate (t + 1) false)) ∧
  (∀ (t : Nat) (d : Byte) (p : Port), p.txe.Dead → (sendByte true d t p).2 = .never ∧
    (sendByte false d t p).2 = .timeout ∧
    (sendByte false d t p).1.busLog = p.busLog ++ samplesOf .txe (List.replicate (t + 1) false)) ∧
  (∀ (t : Nat) (d : Byte) (ds : List Byte) (p : Port), p.txe.Dead → (sendBurst true t (d :: ds) p).2 = .never ∧
    (sendBurst false t (d :: ds) p).2 = .timeout ∧
    (sendBurst false t (d :: ds) p).1.busLog = p.busLog ++ samplesOf .txe (List.replicate (t + 1) false)) ∧
  Config.legacyUnboundedWaits = false

/-! ## Framebuffer and cursor (R41, R105 to R108) -/

/-- R41: every pixel of the panel has its byte and bit and is foreground when that bit is 1, and every bit of `FB` is
exactly one pixel. -/
def Obligations.EveryFramebufferBitIsOnePixel : Prop :=
  (∀ x y, x < 128 → y < 64 → pixelIndex x y = x + y / 8 * 128 ∧ pixelBit y = y % 8 ∧ pixelIndex x y < 1024 ∧
    pixelBit y < 8 ∧ ∀ m : Memory, pixel m x y = (fbRead m (x + y / 8 * 128)).getLsbD (y % 8)) ∧
  (∀ i b, i < 1024 → b < 8 → ∃ x y, x < 128 ∧ y < 64 ∧ pixelIndex x y = i ∧ pixelBit y = b ∧
    ∀ x' y', x' < 128 → y' < 64 → pixelIndex x' y' = i → pixelBit y' = b → x' = x ∧ y' = y)

/-- R105: FB.FILL sets every byte of `FB` to 0x00 or 0xFF and changes nothing else. -/
def Obligations.FillSetsEveryByte : Prop :=
  ∀ (c : Color) (s : State), ∃ t, exec (.fbFill c) s = .next t ∧
    t = { s with fb := t.fb, res := {}, busy := false } ∧
    ∀ i, i < 1024 → fbRead t.fb i = if c = .white then 0xFF#8 else 0x00#8

/-- R106, R107: FB.PIXEL writes the one addressed bit and keeps every other bit and byte; out of range it changes
nothing; `RES` is zero either way. -/
def Obligations.PixelWritesOneBit : Prop :=
  ∀ (x y : BitVec 8) (c : Color) (s : State), ∃ t, exec (.fbPixel x y c) s = .next t ∧
    t = { s with fb := t.fb, res := {}, busy := false } ∧
    (128 ≤ x.toNat ∨ 64 ≤ y.toNat → t.fb = s.fb) ∧
    (x.toNat < 128 → y.toNat < 64 →
      (∀ a, a ≠ x.toNat + y.toNat / 8 * 128 → fbRead t.fb a = fbRead s.fb a) ∧
      (∀ b, (fbRead t.fb (x.toNat + y.toNat / 8 * 128)).getLsbD b =
        if b = y.toNat % 8 then decide (c = .white) else (fbRead s.fb (x.toNat + y.toNat / 8 * 128)).getLsbD b))

/-- R108: CUR.SET stores its two fields, zero extended, in `Cur.x` and `Cur.y` and changes nothing else. -/
def Obligations.CursorSetStoresPosition : Prop :=
  ∀ (x y : BitVec 8) (s : State), ∃ t, exec (.curSet x y) s = .next t ∧
    t.cur.x.toNat = x.toNat ∧ t.cur.y.toNat = y.toNat ∧
    t = { s with cur := { s.cur with x := t.cur.x, y := t.cur.y }, res := {}, busy := false }

/-! ## The rasterizer (R45 to R47, R113 to R118) -/

/-- R113: the cell blit draws the set columns of each row in the colour, the others in its complement, and no pixel
outside the cell. -/
def Obligations.BlitDrawsExactlyTheCell : Prop :=
  ∀ (rows : List PixelRow) (w x0 y0 : Nat) (c : Color) (m : Memory),
    CellDrawn rows w x0 y0 c m (blitCell rows w x0 y0 c m)

/-- R45, R46: row `i` of a glyph is row `(ch - 32) * height + i` of its font, row `i` of section `t` is row
`t * height + i` of its sprite, wherever the table has that row. -/
def Obligations.AssetRowsAreIndexedAsStated : Prop :=
  (∀ (f : Font) (ch : Byte) (d i : Nat), (glyphRows f ch d).length = f.height.toNat ∧
    (32 ≤ ch.toNat → i < f.height.toNat → (ch.toNat - 32) * f.height.toNat + i < f.rows.length →
      (glyphRows f ch d)[i]? = f.rows[(ch.toNat - 32) * f.height.toNat + i]?)) ∧
  (∀ (sp : Sprite) (t d i : Nat), (sectionRows sp t d).length = sp.height.toNat ∧
    (i < sp.height.toNat → t * sp.height.toNat + i < sp.rows.length →
      (sectionRows sp t d)[i]? = sp.rows[t * sp.height.toNat + i]?))

/-- R114: WR.CHAR draws at the cursor when the cell fits; with wrap enabled and the line full it draws at
(`x_init`, `(y_init + h) * wc`) when that fits the height; in every other case it fails, storing nothing but `RES`. The
16-bit store of `x` and `wc` after a wrap is R121's, where U10 prefers a refusal (log 10); that a code outside the font's
table is drawn with free rows is the model's choice (log 8). -/
def Obligations.CharacterIsDrawnWrappedOrFails : Prop :=
  ∀ (ch : Byte) (font : BitVec 4) (wrap : Bool) (c : Color) (s : State) (f : Font), fontOf s.platform font = some f →
    (s.cur.x.toNat + f.width.toNat ≤ 128 → s.cur.y.toNat + f.height.toNat ≤ 64 →
      ∃ t, exec (.wrChar ch font wrap c) s = .next t ∧
        CellDrawn (glyphRows f ch s.draws) f.width.toNat s.cur.x.toNat s.cur.y.toNat c s.fb t.fb ∧
        t.cur.x.toNat = s.cur.x.toNat + f.width.toNat ∧
        t = { s with fb := t.fb, cur := { s.cur with x := t.cur.x }, draws := s.draws + f.height.toNat,
                     res := { ret := ch }, busy := false }) ∧
    (128 < s.cur.x.toNat + f.width.toNat → wrap = true →
      (s.cur.yInit.toNat + f.height.toNat) * s.cur.wc.toNat + f.height.toNat ≤ 64 →
      ∃ t, exec (.wrChar ch font wrap c) s = .next t ∧
        CellDrawn (glyphRows f ch s.draws) f.width.toNat s.cur.xInit.toNat
          ((s.cur.yInit.toNat + f.height.toNat) * s.cur.wc.toNat) c s.fb t.fb ∧
        t.cur.x = BitVec.ofNat 16 (s.cur.xInit.toNat + f.width.toNat) ∧
        t.cur.y.toNat = (s.cur.yInit.toNat + f.height.toNat) * s.cur.wc.toNat ∧
        t.cur.wc = BitVec.ofNat 16 (s.cur.wc.toNat + 1) ∧
        t = { s with fb := t.fb, cur := { s.cur with x := t.cur.x, y := t.cur.y, wc := t.cur.wc },
                     draws := s.draws + f.height.toNat, res := { ret := ch }, busy := false }) ∧
    ((128 < s.cur.x.toNat + f.width.toNat ∧ wrap = false) ∨
     (128 < s.cur.x.toNat + f.width.toNat ∧ wrap = true ∧
       64 < (s.cur.yInit.toNat + f.height.toNat) * s.cur.wc.toNat + f.height.toNat) ∨
     (s.cur.x.toNat + f.width.toNat ≤ 128 ∧ 64 < s.cur.y.toNat + f.height.toNat) →
      exec (.wrChar ch font wrap c) s = .next { s with res := { ret := 0x01#8, noSpace := true }, busy := false })

/-- R115: WR.STR records the origin, sets `Cur.wc` to 1 and draws the characters in order; it ends at the terminator
with `ret` zero, or at the first failing character, which it returns and which leaves no trace. Where operand bytes change
during the operation each is read as one of the values it has had (R59; the list of such values is the model's form, log 12).
The model's choice (log 16, DESIGN CHOICE): a string that has not ended after 65536 characters stands in a next state, busy,
with its position in `running`; the event `pass n` lets it draw up to `n` further characters, and then it ends or goes on. -/
def Obligations.StringIsDrawnInOrder : Prop :=
  (∀ (addr : BitVec 16) (font : BitVec 4) (wrap : Bool) (c : Color) (s t : State) (f : Font) (cs : List Byte),
    fontOf s.platform font = some f → 0x00#8 ∉ cs → cs.length < 65536 →
    CharsDrawn f wrap c cs
      { s with cur := { s.cur with xInit := s.cur.x, yInit := s.cur.y, wc := 1#16 } } t →
    (HoldsBytes s addr (cs ++ [0x00#8]) →
      exec (.wrStr addr font wrap c) s = .next { t with res := { ret := 0x00#8 }, busy := false }) ∧
    (∀ ch : Byte, ch ≠ 0x00#8 → HoldsBytes s addr (cs ++ [ch]) → writeChar f ch wrap c t = none →
      exec (.wrStr addr font wrap c) s = .next { t with res := { ret := ch, noSpace := true }, busy := false })) ∧
  (∀ (addr : BitVec 16) (font : BitVec 4) (wrap : Bool) (c : Color) (s : State) (f : Font),
    fontOf s.platform font = some f →
    ∃ u, exec (.wrStr addr font wrap c) s = .next u ∧
      StringStep f { font := font, wrap := wrap, color := c, addr := addr } 65536
        { s with cur := { s.cur with xInit := s.cur.x, yInit := s.cur.y, wc := 1#16 } } u) ∧
  (∀ (s : State) (r : StringRun) (f : Font) (n : Nat) (rest : List HostEvent), s.running = some r →
    fontOf s.platform r.font = some f → s.inbox = .pass n :: rest →
    ∃ u, StringStep f r n { s with inbox := rest, running := none } u ∧
      step s = .next { u with stale := if u.busy then u.stale else [] })

/-- R192: a string with no terminator anywhere in operand memory never ends in a font of width 0 that fits where the
cursor is, nor, with wrap enabled, in a font of height 0 on a run begun at `y = 0`: the block stays busy and `RES` is not
written (a next state that stays busy is the model's form of it, log 16). -/
def Obligations.StringWithoutEndStaysBusy : Prop :=
  ∀ (addr : BitVec 16) (font : BitVec 4) (wrap : Bool) (c : Color) (s : State) (f : Font),
    fontOf s.platform font = some f → (∀ a b, CanRead s a b → b ≠ 0x00#8) →
    (f.width = 0#8 ∧ s.cur.x.toNat ≤ 128 ∧ s.cur.y.toNat + f.height.toNat ≤ 64) ∨
      (wrap = true ∧ f.height = 0#8 ∧ s.cur.y = 0#16) →
    ∃ t, exec (.wrStr addr font wrap c) s = .next t ∧ t.busy = true ∧ t.res = s.res ∧ t.port = s.port

/-- The model's bound of 65536 characters (log 16) loses no end of a string while operand memory holds still: where the
string has not ended by then, it does not end in any larger number of characters, and the block stays busy however many
more it draws. -/
def Obligations.UnendedStringNeverEnds : Prop :=
  (∀ (f : Font) (addr : BitVec 16) (wrap : Bool) (c : Color) (s : State) (n : Nat), s.stale = [] →
    (writeChars f wrap c 65536 addr (beginString s)).1 = .goesOn →
    (writeChars f wrap c (65536 + n) addr (beginString s)).1 = .goesOn) ∧
  (∀ (addr : BitVec 16) (font : BitVec 4) (wrap : Bool) (c : Color) (s u : State) (n : Nat) (rest : List HostEvent),
    s.stale = [] → exec (.wrStr addr font wrap c) s = .next u → u.busy = true →
    ∃ v, step { u with inbox := .pass n :: rest } = .next v ∧ v.busy = true ∧ v.res = u.res ∧ v.port = u.port)

/-- R116: WR.IMG records the origin and the sprite always; it draws all sections side by side and advances `Cur.x` by
`width * sections` when one section fits, and draws nothing otherwise; `Cur.y` and `Cur.wc` are not written. -/
def Obligations.ImageIsDrawnOrOnlyRecorded : Prop :=
  ∀ (k : BitVec 4) (c : Color) (s : State) (sp : Sprite), spriteOf s.platform k = some sp →
    (s.cur.x.toNat + sp.width.toNat ≤ 128 → s.cur.y.toNat + sp.height.toNat ≤ 64 →
      ∃ t, exec (.wrImg k c) s = .next t ∧
        SpriteDrawn sp s.draws s.cur.x.toNat s.cur.y.toNat c s.fb t.fb ∧
        t.cur.x.toNat = s.cur.x.toNat + sp.width.toNat * sp.sections.toNat ∧
        t = { s with fb := t.fb, cur := { s.cur with x := t.cur.x, xInit := s.cur.x, yInit := s.cur.y },
                     last := { valid := true, id := k }, draws := s.draws + sp.sections.toNat * sp.height.toNat,
                     res := {}, busy := false }) ∧
    (128 < s.cur.x.toNat + sp.width.toNat ∨ 64 < s.cur.y.toNat + sp.height.toNat →
      exec (.wrImg k c) s = .next { s with
        cur := { s.cur with xInit := s.cur.x, yInit := s.cur.y }, last := { valid := true, id := k },
        res := { noSpace := true }, busy := false })

/-- The model's choice where the spec lets it refuse (U4, log 9): an identifier with no asset ends the operation in
`Usage` with no other effect, and so does a move of a last sprite whose asset is missing (TRIG.SVC has removed its
entry). -/
def Obligations.MissingAssetEndsInUsage : Prop :=
  ∀ s : State,
    (∀ (font : BitVec 4) (ch : Byte) (addr : BitVec 16) (wrap : Bool) (c : Color), fontOf s.platform font = none →
      exec (.wrChar ch font wrap c) s = .next { s with res := { usage := true }, busy := false } ∧
      exec (.wrStr addr font wrap c) s = .next { s with res := { usage := true }, busy := false }) ∧
    (∀ (k : BitVec 4) (c : Color), spriteOf s.platform k = none →
      exec (.wrImg k c) s = .next { s with res := { usage := true }, busy := false }) ∧
    (∀ (i : Instr) (dir : Trigger) (s0 : State), AnimationStep i dir s s0 → s.last.valid = true →
      spriteOf s.platform s.last.id = none →
      exec i s = .next { s0 with res := { usage := true }, busy := false })

/-- R118: a WR.CHAR that reports `InsufficientSpace` leaves `FB` and the whole cursor as they were, a WR.IMG leaves `FB`
and the position. (WR.STR keeps the characters drawn before the failing one, R115.) -/
def Obligations.FailedDrawingLeavesNoPixel : Prop :=
  ∀ s t : State,
    (∀ (ch : Byte) (font : BitVec 4) (wrap : Bool) (c : Color), exec (.wrChar ch font wrap c) s = .next t →
      t.res.noSpace = true → t.fb = s.fb ∧ t.cur = s.cur) ∧
    (∀ (k : BitVec 4) (c : Color), exec (.wrImg k c) s = .next t →
      t.res.noSpace = true → t.fb = s.fb ∧ t.cur.x = s.cur.x ∧ t.cur.y = s.cur.y ∧ t.cur.wc = s.cur.wc)

/-! ## The sequencer (R126 to R133) -/

/-- R126: `WriteCommand(b)` is one transaction with control byte 0x00 and payload `b`, complete whatever fails in it;
its failure is or-ed. -/
def Obligations.WriteCommandIsOneTransaction : Prop :=
  ∀ (t : Nat) (r : Run) (b : Byte), r.stuck = false → ∃ es ok, Transaction t 0x00#8 [b] es ok ∧
    (writeCommand t r b).port.busLog = r.port.busLog ++ es ∧
    (writeCommand t r b).failed = (r.failed || !ok) ∧ (writeCommand t r b).stuck = false

/-- R127: `WriteData(p)` is one transaction with control byte 0x40 and the 128 bytes of page `p` as payload, complete
whatever fails in it; its failure is or-ed. -/
def Obligations.WriteDataSendsOnePage : Prop :=
  ∀ (t : Nat) (m : Memory) (r : Run) (p : Nat), r.stuck = false →
    ∃ es ok, Transaction t 0x40#8 ((List.range 128).map fun c => fbRead m (p * 128 + c)) es ok ∧
      (writeData t m r p).port.busLog = r.port.busLog ++ es ∧
      (writeData t m r p).failed = (r.failed || !ok) ∧ (writeData t m r p).stuck = false

/-- R129, R133: FLUSH with a bound set makes all 32 transactions of the eight pages in order, whatever fails, reports
`BusTimeout` exactly when one of them failed, and changes nothing of the block but `RES`. -/
def Obligations.FlushSendsEveryPage : Prop :=
  ∀ s : State, s.bto.valid = true → ∃ t es ok, exec .flush s = .next t ∧
    Transactions s.bto.value.toNat (flushPlan s.fb) es ok ∧
    t.port.busLog = s.port.busLog ++ es ∧
    t = { s with port := t.port, res := { busTimeout := !ok }, busy := false }

/-- R129 with all flags ready: 2448 bus log entries, 1208 of them samples, the data bytes the three commands of each page
and then its 128 bytes, and `RES` zero. -/
def Obligations.FlushWithAllFlagsReady : Prop :=
  ∀ s : State, s.bto.valid = true → s.port.AllReady → ∃ t es, exec .flush s = .next t ∧ t.res = {} ∧
    t.port.busLog = s.port.busLog ++ es ∧ es.length = 2448 ∧ sampleCount es = 1208 ∧
    dataBytes es = (List.range 8).flatMap fun p =>
      [0x00#8, BitVec.ofNat 8 (0xB0 + p), 0x00#8, 0x00#8, 0x00#8, 0x10#8, 0x40#8] ++
        (List.range 128).map fun c => fbRead s.fb (p * 128 + c)

/-- R128, R71: INIT with a bound set makes its 28 command transactions, none skipped; if one failed it changes nothing but
`RES` (`InitFailure` with `BusTimeout`); otherwise it clears `FB`, flushes it, sets `Cur.x` and `Cur.y` to 0, and
reports `InitFailure` exactly when the flush failed. -/
def Obligations.InitBringsThePanelUp : Prop :=
  ∀ s : State, s.bto.valid = true → ∃ t es ok, exec .init s = .next t ∧
    Transactions s.bto.value.toNat initPlan es ok ∧
    (ok = false → t.port.busLog = s.port.busLog ++ es ∧
      t = { s with port := t.port, res := { init := true, busTimeout := true }, busy := false }) ∧
    (ok = true → ∃ fs okFlush, Transactions s.bto.value.toNat (flushPlan t.fb) fs okFlush ∧
      t.port.busLog = s.port.busLog ++ es ++ fs ∧ (∀ i, i < 1024 → fbRead t.fb i = 0x00#8) ∧
      t = { s with port := t.port, fb := t.fb, cur := { s.cur with x := 0#16, y := 0#16 },
                   res := { init := !okFlush, busTimeout := !okFlush }, busy := false })

/-- R130 to R132, R142: an animation step sets `Cur.x` to the clamped `x_init ± STEP`, clears `FB`, redraws the last
sprite in WHITE by WR.IMG's procedure, flushes, and reports the redraw's and the flush's failures, neither of which
stops it. -/
def Obligations.AnimationStepMovesRedrawsFlushes : Prop :=
  ∀ (i : Instr) (dir : Trigger) (s s0 : State) (sp : Sprite), AnimationStep i dir s s0 → s.bto.valid = true →
    s.last.valid = true → spriteOf s.platform s.last.id = some sp →
    ∃ t u es ok m, exec i s = .next t ∧
      (∀ a, a < 1024 → fbRead m a = 0x00#8) ∧
      u = (writeImg s.last.id sp .white { s0 with
        fb := m
        cur := { s.cur with x := BitVec.ofNat 16 (match dir with
          | .right => min (max (s.cur.xInit.toNat + s.platform.step) s.platform.step) (128 - s.platform.step)
          | .left => min (max (s.cur.xInit.toNat - s.platform.step) s.platform.step) (128 - s.platform.step)) } }) ∧
      Transactions s.bto.value.toNat (flushPlan u.1.fb) es ok ∧ t.port.busLog = s.port.busLog ++ es ∧
      t = { u.1 with port := t.port, res := { noSpace := u.2, busTimeout := !ok }, busy := false }

/-- The position a sprite is drawn at by an animation step stays in `[STEP, W - STEP]` (R130, C5). -/
def Obligations.AnimationStaysInsideItsRange : Prop :=
  ∀ (i : Instr) (dir : Trigger) (s s0 t : State), AnimationStep i dir s s0 → s.bto.valid = true →
    s.last.valid = true → (spriteOf s.platform s.last.id).isSome = true → exec i s = .next t →
    s.platform.step ≤ t.cur.xInit.toNat ∧ t.cur.xInit.toNat ≤ 128 - s.platform.step ∧ t.cur.yInit = s.cur.y

/-- R130: with no sprite ever drawn an animation step changes nothing but `RES`, which reports `Usage`. -/
def Obligations.AnimationWithoutSpriteEndsInUsage : Prop :=
  ∀ (i : Instr) (dir : Trigger) (s s0 : State), AnimationStep i dir s s0 → s.last.valid = false →
    exec i s = .next { s0 with res := { usage := true }, busy := false }

/-- R184: with every poll bounded by `v`, FLUSH and the animation steps take at most `1208 * (v + 1)` samples and INIT
at most `1376 * (v + 1)`. -/
def Obligations.SequencerSamplesAreBounded : Prop :=
  ∀ (i : Instr) (s : State), s.bto.valid = true →
    (i.op ∈ [Op.flush, .moveR, .moveL, .trigSvc] → ∃ t es, exec i s = .next t ∧ t.busy = false ∧
      t.port.busLog = s.port.busLog ++ es ∧ sampleCount es ≤ 1208 * (s.bto.value.toNat + 1)) ∧
    (i.op = .init → ∃ t es, exec i s = .next t ∧ t.busy = false ∧
      t.port.busLog = s.port.busLog ++ es ∧ sampleCount es ≤ 1376 * (s.bto.value.toNat + 1))

/-! ## Configuration and triggers (R140 to R142, R160) -/

/-- R140: CFG.TIMEOUT sets the bound and its valid bit and changes nothing else. -/
def Obligations.TimeoutIsConfigured : Prop :=
  ∀ (v : BitVec 24) (s : State),
    exec (.cfgTimeout v) s = .next { s with bto := { valid := true, value := v }, res := {}, busy := false }

/-- R141: CFG.TRIG sets the two enables and, with `qclr`, empties the queue and clears the overflow bit; without it,
queued entries stay. -/
def Obligations.TriggersAreConfigured : Prop :=
  ∀ (enR enL qclr : Bool) (s : State), ∃ t, exec (.cfgTrig enR enL qclr) s = .next t ∧
    t.ten = { enR := enR, enL := enL } ∧
    (qclr = true → t.tq = [] ∧ t.tqOvf = false) ∧ (qclr = false → t.tq = s.tq ∧ t.tqOvf = s.tqOvf) ∧
    t = { s with ten := t.ten, tq := t.tq, tqOvf := t.tqOvf, res := {}, busy := false }

/-- R142: TRIG.SVC with an empty queue does nothing and reports success; with an entry it is in every respect the move
that entry asks for, issued with the entry removed. -/
def Obligations.TriggerServiceIsTheMoveOfItsEntry : Prop :=
  ∀ s : State,
    (s.tq = [] → exec .trigSvc s = .next { s with res := {}, busy := false }) ∧
    (∀ q, s.tq = .right :: q → exec .trigSvc s = exec .moveR { s with tq := q }) ∧
    (∀ q, s.tq = .left :: q → exec .trigSvc s = exec .moveL { s with tq := q })

/-- R160: an edge with its enable set is appended to the queue, or dropped with `TQ_OVF` set when the queue is full; an
edge with its enable clear leaves no trace; idle or busy, nothing else changes. -/
def Obligations.EdgeIsCapturedOrDropped : Prop :=
  ∀ (s : State) (e : Trigger) (rest : List HostEvent), s.inReset = false → s.inbox = .edge e :: rest →
    ∃ t, step s = .next t ∧ t = { s with inbox := rest, tq := t.tq, tqOvf := t.tqOvf } ∧
      ((match e with | .right => s.ten.enR | .left => s.ten.enL) = false → t.tq = s.tq ∧ t.tqOvf = s.tqOvf) ∧
      ((match e with | .right => s.ten.enR | .left => s.ten.enL) = true →
        (s.tq.length < s.platform.queueDepth → t.tq = s.tq ++ [e] ∧ t.tqOvf = s.tqOvf) ∧
        (s.platform.queueDepth ≤ s.tq.length → t.tq = s.tq ∧ t.tqOvf = true))

/-- An edge never disturbs an operation (R160, R164): for every operation but TRIG.SVC and CFG.TRIG, which read or write
what an edge writes and for which U7 allows the two different orders, the edge before the operation and the edge after it
give the same state (log 3). -/
def Obligations.EdgesDisturbNoOperation : Prop :=
  ∀ (i : Instr) (e : Trigger) (s t : State), i.op ≠ .trigSvc → i.op ≠ .cfgTrig → exec i s = .next t →
    exec i (captureEdge e s) = .next (captureEdge e t)

/-! ## What the host reads (R25, R26, R31) -/

/-- R25: the bits of `RES` as a word. -/
def Obligations.ResultWordBits : Prop :=
  ∀ (r : Res) (i : Nat), r.toWord.getLsbD i =
    if i < 8 then r.ret.getLsbD i
    else if i = 8 then r.busTimeout
    else if i = 9 then r.noSpace
    else if i = 10 then r.init
    else if i = 11 then r.usage
    else if i = 12 then r.busTimeout || r.noSpace || r.init || r.usage
    else false

/-- R26: the bits of `STAT`, a live view of other state. -/
def Obligations.StatusWordBits : Prop :=
  ∀ (s : State) (i : Nat), (statWord s).getLsbD i =
    if i = 0 then s.busy
    else if i = 1 then decide (0 < s.tq.length)
    else if i = 2 then s.tqOvf
    else if i = 3 then s.bto.valid
    else if i = 4 then s.last.valid
    else if 8 ≤ i ∧ i < 16 then (min s.tq.length 255).testBit (i - 8)
    else false

/-- R31: a read of the port has no side effect on the block, and returns the register or byte at each listed address
while the block is idle, and `STAT` also while it is busy. -/
def Obligations.ReadBackReturnsTheState : Prop :=
  ∀ (s : State) (a : Nat) (rest : List HostEvent), s.inReset = false → s.inbox = .readBack a :: rest →
    ∃ t v, step s = .next t ∧ t = { s with inbox := rest, reads := s.reads ++ [(a, v)], draws := s.draws + 1 } ∧
      (a = 0x004 → v = statWord s) ∧
      (s.busy = false →
        (a = 0x000 → v = s.res.toWord) ∧ (a = 0x008 → v.toNat = s.bto.value.toNat) ∧
        (a = 0x00C → v.toNat = 2 * s.ten.enL.toNat + s.ten.enR.toNat) ∧
        (a = 0x010 → v.toNat = s.cur.x.toNat) ∧ (a = 0x014 → v.toNat = s.cur.y.toNat) ∧
        (a = 0x018 → v.toNat = s.cur.xInit.toNat) ∧ (a = 0x01C → v.toNat = s.cur.yInit.toNat) ∧
        (a = 0x020 → v.toNat = s.cur.wc.toNat) ∧
        (a = 0x024 → v.toNat = 256 * s.last.valid.toNat + s.last.id.toNat) ∧
        (∀ i, i < 1024 → a = 0x400 + i → v.toNat = (fbRead s.fb i).toNat))

/-- A write of operand memory changes that byte and no other (R48). While an operation is in progress the value it had
stays one that the operation may read: an `OpmRead` returns the byte or a value it has had since the operation began (R59,
U8, log 12). A command word with writes during its operation runs on the memory as they leave it, with the values they
replace; when the operation has ended they are forgotten. -/
def Obligations.HostWritesOneOperandByte : Prop :=
  (∀ (s : State) (a : BitVec 16) (b : Byte) (rest : List HostEvent), s.inbox = .opmWrite a b :: rest →
    ∃ t, step s = .next t ∧ t = { s with inbox := rest, opm := t.opm, stale := t.stale } ∧
      (∀ i, opmRead t.opm i = if i = a then b else opmRead s.opm i) ∧
      t.stale = if s.busy then (a, opmRead s.opm a) :: s.stale else s.stale) ∧
  (∀ (s : State) (a : BitVec 16), CanRead s a (operandByte s a) ∧
    ((∀ b, (a, b) ∉ s.stale) → operandByte s a = opmRead s.opm a)) ∧
  (∀ (s : State) (w : Word) (ws : List (BitVec 16 × Byte)) (i : Instr) (rest : List HostEvent), s.Accepts →
    s.inbox = .commandWithWrites w ws :: rest → decode w = .ok i →
    ∃ s0, s0 = { s with inbox := rest, busy := true, opm := s0.opm, stale := s0.stale, draws := s.draws + 1 } ∧
      (∀ a, opmRead s0.opm a = (ws.reverse.lookup a).getD (opmRead s.opm a)) ∧
      (∀ a, a ∈ ws.map Prod.fst → CanRead s0 a (opmRead s.opm a)) ∧
      (∀ a b, (a, b) ∈ s0.stale → b = opmRead s.opm a ∨ (a, b) ∈ ws ∨ (a, b) ∈ s.stale) ∧
      ∀ t, exec i s0 = .next t → step s = .next { t with stale := if t.busy then t.stale else [] })

/-! ## Rules about all operations -/

/-- R184 and R192: with every wait bounded, the only operation that can leave the block busy is WR.STR. -/
def Obligations.OnlyAStringCanStayBusy : Prop :=
  ∀ (i : Instr) (s t : State), i.op ≠ .wrStr → exec i s = .next t → t.busy = false

/-- R158: the errors one operation can report. `Usage` stands alone; the bus operations and FLUSH report at most
`BusTimeout`, the drawing operations at most `InsufficientSpace`, INIT `InitFailure` with `BusTimeout`, the moves and
TRIG.SVC any subset of `InsufficientSpace` and `BusTimeout`; the framebuffer, cursor and configuration operations none.
The missing-asset `Usage` of the drawing operations is the model's choice (log 9). -/
def Obligations.ErrorSetsOfOperations : Prop :=
  ∀ (i : Instr) (s t : State), exec i s = .next t → t.busy = false →
    (t.res.usage = true → t.res = { usage := true }) ∧
    (i.op ∈ [Op.busStart, .busAddr, .busByte, .busBurst, .flush] → t.res.noSpace = false ∧ t.res.init = false) ∧
    (i.op ∈ [Op.wrChar, .wrStr, .wrImg] → t.res.busTimeout = false ∧ t.res.init = false) ∧
    (i.op = .init → t.res.noSpace = false ∧ t.res.init = t.res.busTimeout) ∧
    (i.op ∈ [Op.moveR, .moveL, .trigSvc] → t.res.init = false) ∧
    (i.op ∈ [Op.busStop, .fbFill, .fbPixel, .curSet, .cfgTimeout, .cfgTrig] → t.res = {})

/-- The table of R18 with R16 and R17: which operations write each cursor register. -/
def Obligations.CursorRegistersHaveTheirWriters : Prop :=
  ∀ (i : Instr) (s t : State), exec i s = .next t →
    (i.op ∉ [Op.curSet, .wrChar, .wrStr, .wrImg, .init, .moveR, .moveL, .trigSvc] → t.cur.x = s.cur.x) ∧
    (i.op ∉ [Op.curSet, .wrChar, .wrStr, .init] → t.cur.y = s.cur.y) ∧
    (i.op ∉ [Op.wrStr, .wrImg, .moveR, .moveL, .trigSvc] → t.cur.xInit = s.cur.xInit ∧ t.cur.yInit = s.cur.yInit) ∧
    (i.op ∉ [Op.wrStr, .wrChar] → t.cur.wc = s.cur.wc)

/-- Which operations write `FB`, `LastSprite`, `BTO`, `TEN`, `TQ` and `TQ_OVF` (R14, R19, R21 to R24). -/
def Obligations.BlockStateHasItsWriters : Prop :=
  ∀ (i : Instr) (s t : State), exec i s = .next t →
    (i.op ∉ [Op.fbFill, .fbPixel, .wrChar, .wrStr, .wrImg, .init, .moveR, .moveL, .trigSvc] → t.fb = s.fb) ∧
    (i.op ∉ [Op.wrImg, .moveR, .moveL, .trigSvc] → t.last = s.last) ∧
    (i.op ≠ .cfgTimeout → t.bto = s.bto) ∧ (i.op ≠ .cfgTrig → t.ten = s.ten) ∧
    (i.op ∉ [Op.cfgTrig, .trigSvc] → t.tq = s.tq) ∧ (i.op ≠ .cfgTrig → t.tqOvf = s.tqOvf)

/-- Only the bus operations, INIT, FLUSH and the animation steps touch the peripheral port: nothing drawn reaches the
panel before a flush (R57, R194). -/
def Obligations.DrawingDoesNotTouchThePort : Prop :=
  ∀ (i : Instr) (s t : State), exec i s = .next t →
    i.op ∈ [Op.fbFill, .fbPixel, .curSet, .wrChar, .wrStr, .wrImg, .cfgTimeout, .cfgTrig] → t.port = s.port

/-- The bus log only grows, at its end, by every step of the machine: no entry is repeated, dropped or reordered
afterwards (R51, R56). -/
def Obligations.BusLogOnlyGrows : Prop :=
  ∀ s t : State, step s = .next t → s.port.busLog <+: t.port.busLog

/-- No operation writes operand memory, the assets and parameters, the pending events, the reset level or the record of
port reads (R30, R44, R48). The peripheral port is not among them: the bus operations, INIT, FLUSH and the moves act on
it. -/
def Obligations.OperationsDoNotWriteTheEnvironment : Prop :=
  ∀ (i : Instr) (s t : State), exec i s = .next t →
    t.opm = s.opm ∧ t.platform = s.platform ∧ t.inbox = s.inbox ∧ t.inReset = s.inReset ∧ t.reads = s.reads
end

