-- ==== Sys2Proof/Laws/State.lean ====
section
/-! SUPPORT. One lemma per field of each named update of the state and of the port, so that no proof unfolds a record
update. -/

namespace Sys2Proof.Machine

/-! ## The end of an operation (R155) -/

@[simp] theorem finish_fb (r : Res) (s : State) : (finish r s).fb = s.fb := rfl
@[simp] theorem finish_cur (r : Res) (s : State) : (finish r s).cur = s.cur := rfl
@[simp] theorem finish_last (r : Res) (s : State) : (finish r s).last = s.last := rfl
@[simp] theorem finish_bto (r : Res) (s : State) : (finish r s).bto = s.bto := rfl
@[simp] theorem finish_ten (r : Res) (s : State) : (finish r s).ten = s.ten := rfl
@[simp] theorem finish_tq (r : Res) (s : State) : (finish r s).tq = s.tq := rfl
@[simp] theorem finish_tqOvf (r : Res) (s : State) : (finish r s).tqOvf = s.tqOvf := rfl
@[simp] theorem finish_res (r : Res) (s : State) : (finish r s).res = r := rfl
@[simp] theorem finish_busy (r : Res) (s : State) : (finish r s).busy = false := rfl
@[simp] theorem finish_opm (r : Res) (s : State) : (finish r s).opm = s.opm := rfl
@[simp] theorem finish_platform (r : Res) (s : State) : (finish r s).platform = s.platform := rfl
@[simp] theorem finish_port (r : Res) (s : State) : (finish r s).port = s.port := rfl
@[simp] theorem finish_inbox (r : Res) (s : State) : (finish r s).inbox = s.inbox := rfl
@[simp] theorem finish_inReset (r : Res) (s : State) : (finish r s).inReset = s.inReset := rfl
@[simp] theorem finish_reads (r : Res) (s : State) : (finish r s).reads = s.reads := rfl
@[simp] theorem finish_draws (r : Res) (s : State) : (finish r s).draws = s.draws := rfl
@[simp] theorem finish_running (r : Res) (s : State) : (finish r s).running = s.running := rfl
@[simp] theorem finish_stale (r : Res) (s : State) : (finish r s).stale = s.stale := rfl

/-! ## The end in `Usage` (R154) -/

@[simp] theorem finishUsage_fb (s : State) : (finishUsage s).fb = s.fb := rfl
@[simp] theorem finishUsage_cur (s : State) : (finishUsage s).cur = s.cur := rfl
@[simp] theorem finishUsage_last (s : State) : (finishUsage s).last = s.last := rfl
@[simp] theorem finishUsage_bto (s : State) : (finishUsage s).bto = s.bto := rfl
@[simp] theorem finishUsage_ten (s : State) : (finishUsage s).ten = s.ten := rfl
@[simp] theorem finishUsage_tq (s : State) : (finishUsage s).tq = s.tq := rfl
@[simp] theorem finishUsage_tqOvf (s : State) : (finishUsage s).tqOvf = s.tqOvf := rfl
@[simp] theorem finishUsage_res (s : State) : (finishUsage s).res = { usage := true } := rfl
@[simp] theorem finishUsage_busy (s : State) : (finishUsage s).busy = false := rfl
@[simp] theorem finishUsage_opm (s : State) : (finishUsage s).opm = s.opm := rfl
@[simp] theorem finishUsage_platform (s : State) : (finishUsage s).platform = s.platform := rfl
@[simp] theorem finishUsage_port (s : State) : (finishUsage s).port = s.port := rfl
@[simp] theorem finishUsage_inbox (s : State) : (finishUsage s).inbox = s.inbox := rfl
@[simp] theorem finishUsage_inReset (s : State) : (finishUsage s).inReset = s.inReset := rfl
@[simp] theorem finishUsage_reads (s : State) : (finishUsage s).reads = s.reads := rfl
@[simp] theorem finishUsage_draws (s : State) : (finishUsage s).draws = s.draws := rfl
@[simp] theorem finishUsage_running (s : State) : (finishUsage s).running = s.running := rfl
@[simp] theorem finishUsage_stale (s : State) : (finishUsage s).stale = s.stale := rfl

/-! ## An operation without an end (U13) -/

@[simp] theorem neverEnds_fb (s : State) : (neverEnds s).fb = s.fb := rfl
@[simp] theorem neverEnds_cur (s : State) : (neverEnds s).cur = s.cur := rfl
@[simp] theorem neverEnds_last (s : State) : (neverEnds s).last = s.last := rfl
@[simp] theorem neverEnds_bto (s : State) : (neverEnds s).bto = s.bto := rfl
@[simp] theorem neverEnds_ten (s : State) : (neverEnds s).ten = s.ten := rfl
@[simp] theorem neverEnds_tq (s : State) : (neverEnds s).tq = s.tq := rfl
@[simp] theorem neverEnds_tqOvf (s : State) : (neverEnds s).tqOvf = s.tqOvf := rfl
@[simp] theorem neverEnds_res (s : State) : (neverEnds s).res = s.res := rfl
@[simp] theorem neverEnds_busy (s : State) : (neverEnds s).busy = true := rfl
@[simp] theorem neverEnds_opm (s : State) : (neverEnds s).opm = s.opm := rfl
@[simp] theorem neverEnds_platform (s : State) : (neverEnds s).platform = s.platform := rfl
@[simp] theorem neverEnds_port (s : State) : (neverEnds s).port = s.port := rfl
@[simp] theorem neverEnds_inbox (s : State) : (neverEnds s).inbox = s.inbox := rfl
@[simp] theorem neverEnds_inReset (s : State) : (neverEnds s).inReset = s.inReset := rfl
@[simp] theorem neverEnds_reads (s : State) : (neverEnds s).reads = s.reads := rfl
@[simp] theorem neverEnds_draws (s : State) : (neverEnds s).draws = s.draws := rfl
@[simp] theorem neverEnds_running (s : State) : (neverEnds s).running = s.running := rfl
@[simp] theorem neverEnds_stale (s : State) : (neverEnds s).stale = s.stale := rfl

/-! ## A word placed for the next step -/

@[simp] theorem withNextWord_fb (w : Word) (s : State) : (withNextWord s w).fb = s.fb := rfl
@[simp] theorem withNextWord_cur (w : Word) (s : State) : (withNextWord s w).cur = s.cur := rfl
@[simp] theorem withNextWord_last (w : Word) (s : State) : (withNextWord s w).last = s.last := rfl
@[simp] theorem withNextWord_bto (w : Word) (s : State) : (withNextWord s w).bto = s.bto := rfl
@[simp] theorem withNextWord_ten (w : Word) (s : State) : (withNextWord s w).ten = s.ten := rfl
@[simp] theorem withNextWord_tq (w : Word) (s : State) : (withNextWord s w).tq = s.tq := rfl
@[simp] theorem withNextWord_tqOvf (w : Word) (s : State) : (withNextWord s w).tqOvf = s.tqOvf := rfl
@[simp] theorem withNextWord_res (w : Word) (s : State) : (withNextWord s w).res = s.res := rfl
@[simp] theorem withNextWord_busy (w : Word) (s : State) : (withNextWord s w).busy = false := rfl
@[simp] theorem withNextWord_opm (w : Word) (s : State) : (withNextWord s w).opm = s.opm := rfl
@[simp] theorem withNextWord_platform (w : Word) (s : State) : (withNextWord s w).platform = s.platform := rfl
@[simp] theorem withNextWord_port (w : Word) (s : State) : (withNextWord s w).port = s.port := rfl
@[simp] theorem withNextWord_inbox (w : Word) (s : State) : (withNextWord s w).inbox = .command w :: s.inbox := rfl
@[simp] theorem withNextWord_inReset (w : Word) (s : State) : (withNextWord s w).inReset = false := rfl
@[simp] theorem withNextWord_reads (w : Word) (s : State) : (withNextWord s w).reads = s.reads := rfl
@[simp] theorem withNextWord_draws (w : Word) (s : State) : (withNextWord s w).draws = s.draws := rfl
@[simp] theorem withNextWord_running (w : Word) (s : State) : (withNextWord s w).running = s.running := rfl
@[simp] theorem withNextWord_stale (w : Word) (s : State) : (withNextWord s w).stale = s.stale := rfl

/-! ## The run origin of a string (R115) -/

@[simp] theorem beginString_fb (s : State) : (beginString s).fb = s.fb := rfl
@[simp] theorem beginString_cur (s : State) : (beginString s).cur = { s.cur with xInit := s.cur.x, yInit := s.cur.y, wc := 1#16 } := rfl
@[simp] theorem beginString_last (s : State) : (beginString s).last = s.last := rfl
@[simp] theorem beginString_bto (s : State) : (beginString s).bto = s.bto := rfl
@[simp] theorem beginString_ten (s : State) : (beginString s).ten = s.ten := rfl
@[simp] theorem beginString_tq (s : State) : (beginString s).tq = s.tq := rfl
@[simp] theorem beginString_tqOvf (s : State) : (beginString s).tqOvf = s.tqOvf := rfl
@[simp] theorem beginString_res (s : State) : (beginString s).res = s.res := rfl
@[simp] theorem beginString_busy (s : State) : (beginString s).busy = s.busy := rfl
@[simp] theorem beginString_opm (s : State) : (beginString s).opm = s.opm := rfl
@[simp] theorem beginString_platform (s : State) : (beginString s).platform = s.platform := rfl
@[simp] theorem beginString_port (s : State) : (beginString s).port = s.port := rfl
@[simp] theorem beginString_inbox (s : State) : (beginString s).inbox = s.inbox := rfl
@[simp] theorem beginString_inReset (s : State) : (beginString s).inReset = s.inReset := rfl
@[simp] theorem beginString_reads (s : State) : (beginString s).reads = s.reads := rfl
@[simp] theorem beginString_draws (s : State) : (beginString s).draws = s.draws := rfl
@[simp] theorem beginString_running (s : State) : (beginString s).running = s.running := rfl
@[simp] theorem beginString_stale (s : State) : (beginString s).stale = s.stale := rfl

/-! ## The run origin of a sprite (R116) -/

@[simp] theorem beginImage_fb (k : BitVec 4) (s : State) : (beginImage k s).fb = s.fb := rfl
@[simp] theorem beginImage_cur (k : BitVec 4) (s : State) : (beginImage k s).cur = { s.cur with xInit := s.cur.x, yInit := s.cur.y } := rfl
@[simp] theorem beginImage_last (k : BitVec 4) (s : State) : (beginImage k s).last = { valid := true, id := k } := rfl
@[simp] theorem beginImage_bto (k : BitVec 4) (s : State) : (beginImage k s).bto = s.bto := rfl
@[simp] theorem beginImage_ten (k : BitVec 4) (s : State) : (beginImage k s).ten = s.ten := rfl
@[simp] theorem beginImage_tq (k : BitVec 4) (s : State) : (beginImage k s).tq = s.tq := rfl
@[simp] theorem beginImage_tqOvf (k : BitVec 4) (s : State) : (beginImage k s).tqOvf = s.tqOvf := rfl
@[simp] theorem beginImage_res (k : BitVec 4) (s : State) : (beginImage k s).res = s.res := rfl
@[simp] theorem beginImage_busy (k : BitVec 4) (s : State) : (beginImage k s).busy = s.busy := rfl
@[simp] theorem beginImage_opm (k : BitVec 4) (s : State) : (beginImage k s).opm = s.opm := rfl
@[simp] theorem beginImage_platform (k : BitVec 4) (s : State) : (beginImage k s).platform = s.platform := rfl
@[simp] theorem beginImage_port (k : BitVec 4) (s : State) : (beginImage k s).port = s.port := rfl
@[simp] theorem beginImage_inbox (k : BitVec 4) (s : State) : (beginImage k s).inbox = s.inbox := rfl
@[simp] theorem beginImage_inReset (k : BitVec 4) (s : State) : (beginImage k s).inReset = s.inReset := rfl
@[simp] theorem beginImage_reads (k : BitVec 4) (s : State) : (beginImage k s).reads = s.reads := rfl
@[simp] theorem beginImage_draws (k : BitVec 4) (s : State) : (beginImage k s).draws = s.draws := rfl
@[simp] theorem beginImage_running (k : BitVec 4) (s : State) : (beginImage k s).running = s.running := rfl
@[simp] theorem beginImage_stale (k : BitVec 4) (s : State) : (beginImage k s).stale = s.stale := rfl

/-! ## Reset of the block (R33) -/

@[simp] theorem resetBlock_fb (s : State) : (resetBlock s).fb = fbReset s.draws := by simp only [resetBlock]
@[simp] theorem resetBlock_cur (s : State) : (resetBlock s).cur = { x := 0#16, y := 0#16, xInit := 0#16, yInit := 0#16, wc := 1#16 } := by simp only [resetBlock]
@[simp] theorem resetBlock_last (s : State) : (resetBlock s).last = { valid := false, id := Config.lastIdAtReset s.draws } := by simp only [resetBlock]
@[simp] theorem resetBlock_bto (s : State) : (resetBlock s).bto = { valid := false, value := Config.btoAtReset s.draws } := by simp only [resetBlock]
@[simp] theorem resetBlock_ten (s : State) : (resetBlock s).ten = { enR := false, enL := false } := by simp only [resetBlock]
@[simp] theorem resetBlock_tq (s : State) : (resetBlock s).tq = [] := by simp only [resetBlock]
@[simp] theorem resetBlock_tqOvf (s : State) : (resetBlock s).tqOvf = false := by simp only [resetBlock]
@[simp] theorem resetBlock_res (s : State) : (resetBlock s).res = {} := by simp only [resetBlock]
@[simp] theorem resetBlock_busy (s : State) : (resetBlock s).busy = false := by simp only [resetBlock]
@[simp] theorem resetBlock_opm (s : State) : (resetBlock s).opm = s.opm := by simp only [resetBlock]
@[simp] theorem resetBlock_platform (s : State) : (resetBlock s).platform = s.platform := by simp only [resetBlock]
@[simp] theorem resetBlock_port (s : State) : (resetBlock s).port = s.port := by simp only [resetBlock]
@[simp] theorem resetBlock_inbox (s : State) : (resetBlock s).inbox = s.inbox := by simp only [resetBlock]
@[simp] theorem resetBlock_inReset (s : State) : (resetBlock s).inReset = s.inReset := by simp only [resetBlock]
@[simp] theorem resetBlock_reads (s : State) : (resetBlock s).reads = s.reads := by simp only [resetBlock]
@[simp] theorem resetBlock_draws (s : State) : (resetBlock s).draws = s.draws + 1 := by simp only [resetBlock]
@[simp] theorem resetBlock_running (s : State) : (resetBlock s).running = none := by simp only [resetBlock]
@[simp] theorem resetBlock_stale (s : State) : (resetBlock s).stale = [] := by simp only [resetBlock]

/-! ## A read of the port (R31) -/

@[simp] theorem recordRead_fb (a : Nat) (s : State) : (recordRead a s).fb = s.fb := rfl
@[simp] theorem recordRead_cur (a : Nat) (s : State) : (recordRead a s).cur = s.cur := rfl
@[simp] theorem recordRead_last (a : Nat) (s : State) : (recordRead a s).last = s.last := rfl
@[simp] theorem recordRead_bto (a : Nat) (s : State) : (recordRead a s).bto = s.bto := rfl
@[simp] theorem recordRead_ten (a : Nat) (s : State) : (recordRead a s).ten = s.ten := rfl
@[simp] theorem recordRead_tq (a : Nat) (s : State) : (recordRead a s).tq = s.tq := rfl
@[simp] theorem recordRead_tqOvf (a : Nat) (s : State) : (recordRead a s).tqOvf = s.tqOvf := rfl
@[simp] theorem recordRead_res (a : Nat) (s : State) : (recordRead a s).res = s.res := rfl
@[simp] theorem recordRead_busy (a : Nat) (s : State) : (recordRead a s).busy = s.busy := rfl
@[simp] theorem recordRead_opm (a : Nat) (s : State) : (recordRead a s).opm = s.opm := rfl
@[simp] theorem recordRead_platform (a : Nat) (s : State) : (recordRead a s).platform = s.platform := rfl
@[simp] theorem recordRead_port (a : Nat) (s : State) : (recordRead a s).port = s.port := rfl
@[simp] theorem recordRead_inbox (a : Nat) (s : State) : (recordRead a s).inbox = s.inbox := rfl
@[simp] theorem recordRead_inReset (a : Nat) (s : State) : (recordRead a s).inReset = s.inReset := rfl
@[simp] theorem recordRead_reads (a : Nat) (s : State) : (recordRead a s).reads = s.reads ++ [(a, readBack s a)] := rfl
@[simp] theorem recordRead_draws (a : Nat) (s : State) : (recordRead a s).draws = s.draws + 1 := rfl
@[simp] theorem recordRead_running (a : Nat) (s : State) : (recordRead a s).running = s.running := rfl
@[simp] theorem recordRead_stale (a : Nat) (s : State) : (recordRead a s).stale = s.stale := rfl

/-! ## Operand memory written (R48, R59) -/

@[simp] theorem overwriteOperand_fb (a : BitVec 16) (b : Byte) (s : State) : (overwriteOperand a b s).fb = s.fb := rfl
@[simp] theorem overwriteOperand_cur (a : BitVec 16) (b : Byte) (s : State) : (overwriteOperand a b s).cur = s.cur := rfl
@[simp] theorem overwriteOperand_last (a : BitVec 16) (b : Byte) (s : State) : (overwriteOperand a b s).last = s.last := rfl
@[simp] theorem overwriteOperand_bto (a : BitVec 16) (b : Byte) (s : State) : (overwriteOperand a b s).bto = s.bto := rfl
@[simp] theorem overwriteOperand_ten (a : BitVec 16) (b : Byte) (s : State) : (overwriteOperand a b s).ten = s.ten := rfl
@[simp] theorem overwriteOperand_tq (a : BitVec 16) (b : Byte) (s : State) : (overwriteOperand a b s).tq = s.tq := rfl
@[simp] theorem overwriteOperand_tqOvf (a : BitVec 16) (b : Byte) (s : State) : (overwriteOperand a b s).tqOvf = s.tqOvf := rfl
@[simp] theorem overwriteOperand_res (a : BitVec 16) (b : Byte) (s : State) : (overwriteOperand a b s).res = s.res := rfl
@[simp] theorem overwriteOperand_busy (a : BitVec 16) (b : Byte) (s : State) : (overwriteOperand a b s).busy = s.busy := rfl
@[simp] theorem overwriteOperand_running (a : BitVec 16) (b : Byte) (s : State) : (overwriteOperand a b s).running = s.running := rfl
@[simp] theorem overwriteOperand_opm (a : BitVec 16) (b : Byte) (s : State) : (overwriteOperand a b s).opm = opmWrite s.opm a b := rfl
@[simp] theorem overwriteOperand_platform (a : BitVec 16) (b : Byte) (s : State) : (overwriteOperand a b s).platform = s.platform := rfl
@[simp] theorem overwriteOperand_port (a : BitVec 16) (b : Byte) (s : State) : (overwriteOperand a b s).port = s.port := rfl
@[simp] theorem overwriteOperand_inbox (a : BitVec 16) (b : Byte) (s : State) : (overwriteOperand a b s).inbox = s.inbox := rfl
@[simp] theorem overwriteOperand_inReset (a : BitVec 16) (b : Byte) (s : State) : (overwriteOperand a b s).inReset = s.inReset := rfl
@[simp] theorem overwriteOperand_reads (a : BitVec 16) (b : Byte) (s : State) : (overwriteOperand a b s).reads = s.reads := rfl
@[simp] theorem overwriteOperand_stale (a : BitVec 16) (b : Byte) (s : State) : (overwriteOperand a b s).stale = (a, opmRead s.opm a) :: s.stale := rfl
@[simp] theorem overwriteOperand_draws (a : BitVec 16) (b : Byte) (s : State) : (overwriteOperand a b s).draws = s.draws := rfl
@[simp] theorem changeOperand_fb (a : BitVec 16) (b : Byte) (s : State) : (changeOperand a b s).fb = s.fb := by unfold changeOperand; split <;> rfl
@[simp] theorem changeOperand_cur (a : BitVec 16) (b : Byte) (s : State) : (changeOperand a b s).cur = s.cur := by unfold changeOperand; split <;> rfl
@[simp] theorem changeOperand_last (a : BitVec 16) (b : Byte) (s : State) : (changeOperand a b s).last = s.last := by unfold changeOperand; split <;> rfl
@[simp] theorem changeOperand_bto (a : BitVec 16) (b : Byte) (s : State) : (changeOperand a b s).bto = s.bto := by unfold changeOperand; split <;> rfl
@[simp] theorem changeOperand_ten (a : BitVec 16) (b : Byte) (s : State) : (changeOperand a b s).ten = s.ten := by unfold changeOperand; split <;> rfl
@[simp] theorem changeOperand_tq (a : BitVec 16) (b : Byte) (s : State) : (changeOperand a b s).tq = s.tq := by unfold changeOperand; split <;> rfl
@[simp] theorem changeOperand_tqOvf (a : BitVec 16) (b : Byte) (s : State) : (changeOperand a b s).tqOvf = s.tqOvf := by unfold changeOperand; split <;> rfl
@[simp] theorem changeOperand_res (a : BitVec 16) (b : Byte) (s : State) : (changeOperand a b s).res = s.res := by unfold changeOperand; split <;> rfl
@[simp] theorem changeOperand_busy (a : BitVec 16) (b : Byte) (s : State) : (changeOperand a b s).busy = s.busy := by unfold changeOperand; split <;> rfl
@[simp] theorem changeOperand_running (a : BitVec 16) (b : Byte) (s : State) : (changeOperand a b s).running = s.running := by unfold changeOperand; split <;> rfl
@[simp] theorem changeOperand_platform (a : BitVec 16) (b : Byte) (s : State) : (changeOperand a b s).platform = s.platform := by unfold changeOperand; split <;> rfl
@[simp] theorem changeOperand_port (a : BitVec 16) (b : Byte) (s : State) : (changeOperand a b s).port = s.port := by unfold changeOperand; split <;> rfl
@[simp] theorem changeOperand_inbox (a : BitVec 16) (b : Byte) (s : State) : (changeOperand a b s).inbox = s.inbox := by unfold changeOperand; split <;> rfl
@[simp] theorem changeOperand_inReset (a : BitVec 16) (b : Byte) (s : State) : (changeOperand a b s).inReset = s.inReset := by unfold changeOperand; split <;> rfl
@[simp] theorem changeOperand_reads (a : BitVec 16) (b : Byte) (s : State) : (changeOperand a b s).reads = s.reads := by unfold changeOperand; split <;> rfl
@[simp] theorem changeOperand_draws (a : BitVec 16) (b : Byte) (s : State) : (changeOperand a b s).draws = s.draws := by unfold changeOperand; split <;> rfl
@[simp] theorem changeOperand_opm (a : BitVec 16) (b : Byte) (s : State) : (changeOperand a b s).opm = opmWrite s.opm a b := by unfold changeOperand; split <;> rfl
theorem changeOperand_stale (a : BitVec 16) (b : Byte) (s : State) :
    (changeOperand a b s).stale = if s.busy then (a, opmRead s.opm a) :: s.stale else s.stale := by
  unfold changeOperand; split <;> rfl

/-! ## The end of operand reads (R59) -/

@[simp] theorem settle_fb (s : State) : (settle s).fb = s.fb := by unfold settle; split <;> rfl
@[simp] theorem settle_cur (s : State) : (settle s).cur = s.cur := by unfold settle; split <;> rfl
@[simp] theorem settle_last (s : State) : (settle s).last = s.last := by unfold settle; split <;> rfl
@[simp] theorem settle_bto (s : State) : (settle s).bto = s.bto := by unfold settle; split <;> rfl
@[simp] theorem settle_ten (s : State) : (settle s).ten = s.ten := by unfold settle; split <;> rfl
@[simp] theorem settle_tq (s : State) : (settle s).tq = s.tq := by unfold settle; split <;> rfl
@[simp] theorem settle_tqOvf (s : State) : (settle s).tqOvf = s.tqOvf := by unfold settle; split <;> rfl
@[simp] theorem settle_res (s : State) : (settle s).res = s.res := by unfold settle; split <;> rfl
@[simp] theorem settle_busy (s : State) : (settle s).busy = s.busy := by unfold settle; split <;> rfl
@[simp] theorem settle_running (s : State) : (settle s).running = s.running := by unfold settle; split <;> rfl
@[simp] theorem settle_opm (s : State) : (settle s).opm = s.opm := by unfold settle; split <;> rfl
@[simp] theorem settle_platform (s : State) : (settle s).platform = s.platform := by unfold settle; split <;> rfl
@[simp] theorem settle_port (s : State) : (settle s).port = s.port := by unfold settle; split <;> rfl
@[simp] theorem settle_inbox (s : State) : (settle s).inbox = s.inbox := by unfold settle; split <;> rfl
@[simp] theorem settle_inReset (s : State) : (settle s).inReset = s.inReset := by unfold settle; split <;> rfl
@[simp] theorem settle_reads (s : State) : (settle s).reads = s.reads := by unfold settle; split <;> rfl
@[simp] theorem settle_draws (s : State) : (settle s).draws = s.draws := by unfold settle; split <;> rfl
theorem settle_stale (s : State) : (settle s).stale = if s.busy then s.stale else [] := by
  unfold settle; split <;> rfl

/-! ## The port -/

@[simp] theorem emit_start (e : BusEvent) (p : Port) : (emit e p).start = p.start := rfl
@[simp] theorem emit_addr (e : BusEvent) (p : Port) : (emit e p).addr = p.addr := rfl
@[simp] theorem emit_txe (e : BusEvent) (p : Port) : (emit e p).txe = p.txe := rfl
@[simp] theorem emit_btf (e : BusEvent) (p : Port) : (emit e p).btf = p.btf := rfl
@[simp] theorem emit_order (e : BusEvent) (p : Port) : (emit e p).order = p.order := rfl
@[simp] theorem emit_draws (e : BusEvent) (p : Port) : (emit e p).draws = p.draws := rfl
@[simp] theorem emit_log (e : BusEvent) (p : Port) : (emit e p).log = e :: p.log := rfl
@[simp] theorem emit_busLog (e : BusEvent) (p : Port) : (emit e p).busLog = p.busLog ++ [e] := by simp [Port.busLog]
@[simp] theorem emit_source (e : BusEvent) (p : Port) (f : Flag) : (emit e p).source f = p.source f := by cases f <;> rfl
@[simp] theorem withSource_log (p : Port) (f : Flag) (q : Source) : (p.withSource f q).log = p.log := by cases f <;> rfl
@[simp] theorem withSource_order (p : Port) (f : Flag) (q : Source) : (p.withSource f q).order = p.order := by cases f <;> rfl
@[simp] theorem withSource_draws (p : Port) (f : Flag) (q : Source) : (p.withSource f q).draws = p.draws := by cases f <;> rfl
@[simp] theorem withSource_source_same (p : Port) (f : Flag) (q : Source) : (p.withSource f q).source f = q := by cases f <;> rfl
theorem withSource_source_other (p : Port) (f g : Flag) (q : Source) (h : g ≠ f) : (p.withSource f q).source g = p.source g := by
  cases f <;> cases g <;> first | rfl | exact absurd rfl h
@[simp] theorem sampled_log (p : Port) (f : Flag) : (p.sampled f).log = .sample f (p.flagValue f) :: p.log := rfl
@[simp] theorem sampled_busLog (p : Port) (f : Flag) : (p.sampled f).busLog = p.busLog ++ [.sample f (p.flagValue f)] := by simp [Port.busLog]
@[simp] theorem sampled_draws (p : Port) (f : Flag) : (p.sampled f).draws = p.draws + 1 := rfl
@[simp] theorem sampled_order (p : Port) (f : Flag) : (p.sampled f).order = p.order := by cases f <;> rfl
@[simp] theorem sampled_source_same (p : Port) (f : Flag) : (p.sampled f).source f = (p.source f).next := by cases f <;> rfl
theorem sampled_source_other (p : Port) (f g : Flag) (h : g ≠ f) : (p.sampled f).source g = p.source g := by
  cases f <;> cases g <;> first | rfl | exact absurd rfl h

end Sys2Proof.Machine
end

