-- ==== Sys2Proof/Laws/Memory.lean ====
section
/-! SUPPORT. The laws of the two byte memories: a read after a write, and that every operation keeps the canonical
form (log 22). -/

namespace Sys2Proof.Machine

/-! ## Cells -/

theorem Memory.find_put (m : Memory) (a i : Nat) (b : Byte) :
    (m.put a b).find i = if i = a then some b else m.find i := by
  induction m with
  | nil =>
    by_cases h : a = i
    · simp [Memory.put, Memory.find, h]
    · simp [Memory.put, Memory.find, h, Ne.symm h]
  | cons c m ih =>
    obtain ⟨k, v⟩ := c
    rcases Nat.lt_trichotomy k a with h | h | h
    · by_cases hi : k = i
      · have : i ≠ a := by omega
        simp only [Memory.put, if_pos h, Memory.find, if_pos hi, if_neg this]
      · simp only [Memory.put, if_pos h, Memory.find, if_neg hi, ih]
    · by_cases hi : a = i
      · simp [Memory.put, Memory.find, h, hi]
      · simp [Memory.put, Memory.find, h, hi, Ne.symm hi]
    · have h1 : ¬ k < a := by omega
      have h2 : k ≠ a := by omega
      by_cases hi : a = i
      · simp [Memory.put, Memory.find, h1, h2, ← hi]
      · simp [Memory.put, Memory.find, h1, h2, hi, Ne.symm hi]

theorem Memory.find_drop (m : Memory) (a i : Nat) :
    (m.drop a).find i = if i = a then none else m.find i := by
  induction m with
  | nil => simp [Memory.drop, Memory.find]
  | cons c m ih =>
    obtain ⟨k, v⟩ := c
    by_cases h : k = a
    · simp only [Memory.drop, if_pos h, ih, Memory.find]
      by_cases hi : i = a
      · simp [hi]
      · have : k ≠ i := by omega
        simp [hi, this]
    · simp only [Memory.drop, if_neg h, Memory.find, ih]
      by_cases hk : k = i
      · have : i ≠ a := by omega
        simp [hk, this]
      · simp [hk]

theorem Memory.mem_put {m : Memory} {a : Nat} {b : Byte} {c : Host.Cell} (h : c ∈ m.put a b) :
    c = (a, b) ∨ c ∈ m := by
  induction m with
  | nil => simpa [Memory.put] using h
  | cons d m ih =>
    unfold Memory.put at h
    split at h
    · rcases List.mem_cons.mp h with h | h
      · simp [h]
      · rcases ih h with h | h <;> simp [h]
    · split at h <;> simp only [List.mem_cons] at h ⊢ <;> tauto

theorem Memory.mem_drop {m : Memory} {a : Nat} {c : Host.Cell} (h : c ∈ m.drop a) : c ∈ m := by
  induction m with
  | nil => exact h
  | cons d m ih =>
    unfold Memory.drop at h
    split at h
    · exact List.mem_cons_of_mem _ (ih h)
    · rcases List.mem_cons.mp h with h | h
      · simp [h]
      · exact List.mem_cons_of_mem _ (ih h)

/-- Addresses strictly rising. -/
abbrev Memory.Rising (m : Memory) : Prop := (m.map Prod.fst).Pairwise (· < ·)

theorem Memory.rising_put {m : Memory} (h : m.Rising) (a : Nat) (b : Byte) : (m.put a b).Rising := by
  induction m with
  | nil => exact List.pairwise_singleton _ _
  | cons c m ih =>
    simp only [Memory.Rising, List.map_cons, List.pairwise_cons, List.mem_map, forall_exists_index,
      and_imp] at h ih ⊢
    obtain ⟨hc, hm⟩ := h
    unfold Memory.put
    split
    · rename_i hlt
      simp only [List.map_cons, List.pairwise_cons, List.mem_map]
      refine ⟨?_, ih hm⟩
      rintro _ ⟨d, hd, rfl⟩
      rcases Memory.mem_put hd with rfl | hd
      · exact hlt
      · exact hc _ d hd rfl
    · split
      · rename_i _ he
        simp only [List.map_cons, List.pairwise_cons, List.mem_map]
        exact ⟨by rintro _ ⟨d, hd, rfl⟩; exact he ▸ hc _ d hd rfl, hm⟩
      · simp only [List.map_cons, List.pairwise_cons, List.mem_cons, List.mem_map]
        refine ⟨?_, ⟨by rintro _ ⟨d, hd, rfl⟩; exact hc _ d hd rfl, hm⟩⟩
        rintro _ (rfl | ⟨d, hd, rfl⟩)
        · omega
        · have := hc _ d hd rfl; omega

theorem Memory.rising_drop {m : Memory} (h : m.Rising) (a : Nat) : (m.drop a).Rising := by
  induction m with
  | nil => exact h
  | cons c m ih =>
    simp only [Memory.Rising, List.map_cons, List.pairwise_cons, List.mem_map] at h ih ⊢
    unfold Memory.drop
    split
    · exact ih h.2
    · simp only [List.map_cons, List.pairwise_cons, List.mem_map]
      exact ⟨by rintro _ ⟨d, hd, rfl⟩; exact h.1 _ ⟨d, Memory.mem_drop hd, rfl⟩, ih h.2⟩

theorem Memory.keys_put_of_mem {m : Memory} (h : m.Rising) {a : Nat} (ha : a ∈ m.map Prod.fst) (b : Byte) :
    (m.put a b).map Prod.fst = m.map Prod.fst := by
  induction m with
  | nil => simp at ha
  | cons c m ih =>
    simp only [Memory.Rising, List.map_cons, List.pairwise_cons] at h
    rcases Nat.lt_trichotomy c.1 a with hc | hc | hc
    · have : a ∈ m.map Prod.fst := by
        rcases List.mem_cons.mp ha with e | e
        · omega
        · exact e
      simp [Memory.put, hc, ih h.2 this]
    · simp [Memory.put, hc]
    · rcases List.mem_cons.mp ha with e | e
      · omega
      · have := h.1 a e; omega

/-! ## The framebuffer -/

theorem fbRead_fbWrite (m : Memory) (i j : Nat) (b : Byte) :
    fbRead (fbWrite m i b) j = if j = i then b else fbRead m j := by
  unfold fbRead fbWrite
  rw [Memory.find_put]
  split <;> rfl

theorem fb_wf_iff {m : Memory} : m.wf .fb = true ↔ m.map Prod.fst = List.range Config.fbBytes := by
  simp [Memory.wf]

/-- A write inside the space keeps the canonical form of the framebuffer. -/
theorem fbWrite_wf {m : Memory} (h : m.wf .fb = true) {i : Nat} (hi : i < Config.fbBytes) (b : Byte) :
    (fbWrite m i b).wf .fb = true := by
  rw [fb_wf_iff] at h ⊢
  have hr : m.Rising := by
    rw [Memory.Rising, h]; exact List.pairwise_lt_range
  rw [fbWrite, Memory.keys_put_of_mem hr (by rw [h]; simpa using hi), h]

theorem map_cells_wf (f : Nat → Byte) : Memory.wf .fb ((List.range Config.fbBytes).map fun a => (a, f a)) = true := by
  rw [fb_wf_iff, List.map_map]
  exact List.map_id' _

theorem fbReset_wf (k : Nat) : (fbReset k).wf .fb = true := map_cells_wf _

theorem fillFrame_wf (c : Color) : (fillFrame c).wf .fb = true := map_cells_wf _

theorem find_map_cells (f : Nat → Byte) (n i : Nat) (hi : i < n) :
    Memory.find ((List.range n).map fun a => (a, f a)) i = some (f i) := by
  have key : ∀ (l : List Nat), i ∈ l → Memory.find (l.map fun a => (a, f a)) i = some (f i) := by
    intro l
    induction l with
    | nil => simp
    | cons a l ih =>
      intro h
      by_cases ha : a = i
      · simp [Memory.find, ha]
      · rcases List.mem_cons.mp h with e | e
        · exact absurd e.symm ha
        · simp [Memory.find, ha, ih e]
  exact key _ (List.mem_range.mpr hi)

/-- A byte of a filled framebuffer (R105). -/
theorem fbRead_fillFrame (c : Color) {i : Nat} (hi : i < Config.fbBytes) : fbRead (fillFrame c) i = fillByte c := by
  simp only [fbRead, fillFrame, find_map_cells _ _ _ hi, Option.getD_some]

/-- A byte of the framebuffer after a reset (R33, U1). -/
theorem fbRead_fbReset (k : Nat) {i : Nat} (hi : i < Config.fbBytes) : fbRead (fbReset k) i = Config.fbAtReset k i := by
  simp only [fbRead, fbReset, find_map_cells _ _ _ hi, Option.getD_some]

/-! ## Operand memory -/

theorem opmRead_opmWrite (m : Memory) (a i : BitVec 16) (b : Byte) :
    opmRead (opmWrite m a b) i = if i = a then b else opmRead m i := by
  have e : i.toNat = a.toNat ↔ i = a := BitVec.toNat_inj
  unfold opmRead opmWrite
  by_cases hb : b = opmUnlisted <;> by_cases hi : i = a
  · simp [hb, hi, Memory.find_drop]
  · simp [hb, hi, Memory.find_drop, e]
  · simp [hb, hi, Memory.find_put]
  · simp [hb, hi, Memory.find_put, e]

/-- The host's write keeps the canonical form of operand memory. -/
theorem opmWrite_wf {m : Memory} (h : m.wf .opm = true) (a : BitVec 16) (b : Byte) : (opmWrite m a b).wf .opm = true := by
  simp only [Memory.wf, Bool.and_eq_true, decide_eq_true_eq, List.all_eq_true] at h ⊢
  unfold opmWrite
  split
  · exact ⟨Memory.rising_drop h.1 _, fun c hc => h.2 c (Memory.mem_drop hc)⟩
  · rename_i hb
    refine ⟨Memory.rising_put h.1 _ _, fun c hc => ?_⟩
    rcases Memory.mem_put hc with rfl | hc
    · exact ⟨a.isLt, hb⟩
    · exact h.2 c hc

/-! ## Pixels -/

theorem pixelIndex_lt {x y : Nat} (hx : x < Config.W) (hy : y < Config.H) : pixelIndex x y < Config.fbBytes := by
  simp only [pixelIndex, Config.W, Config.H, Config.fbBytes] at *; omega

/-- Drawing a pixel keeps the canonical form (R106). -/
theorem drawPixel_wf {m : Memory} (h : m.wf .fb = true) (x y : Nat) (c : Color) : (drawPixel x y c m).wf .fb = true := by
  unfold drawPixel
  split
  · exact h
  · rename_i hn
    exact fbWrite_wf h (pixelIndex_lt (by omega) (by omega)) _

/-- One painted bit: the colour at its place, the other seven kept (R106, R122). -/
theorem getLsbD_paintBit (b : Byte) (k j : Nat) (c : Color) (hk : k < 8) :
    (paintBit b k c).getLsbD j = if j = k then decide (c = .white) else b.getLsbD j := by
  have hone : (1#8 <<< k).getLsbD j = decide (j = k) := by
    by_cases hj : j < 8
    · interval_cases k <;> interval_cases j <;> decide
    · have h1 : j ≠ k := by omega
      simp [BitVec.getLsbD_of_ge _ _ (by omega : 8 ≤ j), h1]
  cases c with
  | white =>
    simp only [paintBit, BitVec.getLsbD_or, hone]
    by_cases h : j = k <;> simp [h]
  | black =>
    simp only [paintBit, BitVec.getLsbD_and, BitVec.getLsbD_not, hone]
    by_cases h : j = k
    · simp [h]
    · by_cases hj : j < 8
      · simp [h, hj]
      · simp [h, BitVec.getLsbD_of_ge b j (by omega)]

end Sys2Proof.Machine
end

