-- ==== Sys2Proof/Laws/Events.lean ====
section
/-! SUPPORT. What the events of the outside can do, beside the operation they run. -/

namespace Sys2Proof.Machine

/-- A step handles the oldest pending event (log 2). -/
theorem step_of_event {s : State} {e : HostEvent} {rest : List HostEvent} (h : s.inbox = e :: rest) :
    step s = handle e { s with inbox := rest } := by
  simp only [step, stepEvent, h]

/-- With no event pending the block idles (log 2). -/
theorem step_of_no_event {s : State} (h : s.inbox = []) : step s = .next s := by
  simp only [step, stepEvent, h]

/-- The replayed entries of an abandoned operation stand at the end of the bus log (R176). -/
theorem replay_busLog (es : List BusEvent) (p : Port) : (replay es p).busLog = p.busLog ++ es := by
  induction es generalizing p with
  | nil => simp [replay]
  | cons e es ih =>
    cases e <;> simp only [replay, ih, emit_busLog] <;> first | (simp [Port.busLog]; done) | (split <;> simp [Port.busLog])

/-- Writes of operand memory during an operation change that memory, the values it had, and the model's counter
(R59). -/
theorem writtenDuring_frame (ws : List (BitVec 16 × Byte)) (s : State) :
    writtenDuring ws s = { s with
      opm := (writtenDuring ws s).opm, stale := (writtenDuring ws s).stale, draws := s.draws + 1 } := by
  unfold writtenDuring
  generalize hu : ({ s with draws := s.draws + 1 } : State) = u
  have key : ∀ u : State, ws.foldl (fun t c => overwriteOperand c.1 c.2 t) u = { u with
      opm := (ws.foldl (fun t c => overwriteOperand c.1 c.2 t) u).opm
      stale := (ws.foldl (fun t c => overwriteOperand c.1 c.2 t) u).stale } := by
    induction ws with
    | nil => intro u; rfl
    | cons w ws ih =>
      intro u
      have := ih (overwriteOperand w.1 w.2 u)
      simp only [List.foldl_cons]
      generalize ws.foldl (fun t c => overwriteOperand c.1 c.2 t) (overwriteOperand w.1 w.2 u) = v at this ⊢
      rw [this]
      rfl
  rw [key u, ← hu]

/-- They keep its canonical form (R48). -/
theorem writtenDuring_wf (ws : List (BitVec 16 × Byte)) {s : State} (h : s.opm.wf .opm = true) :
    (writtenDuring ws s).opm.wf .opm = true := by
  unfold writtenDuring
  have key : ∀ u : State, u.opm.wf .opm = true → (ws.foldl (fun t c => overwriteOperand c.1 c.2 t) u).opm.wf .opm = true := by
    induction ws with
    | nil => exact fun u hu => hu
    | cons w ws ih => exact fun u hu => ih _ (opmWrite_wf hu _ _)
  exact key _ h

/-- An edge writes `TQ` and `TQ_OVF`, nothing else (R160). -/
theorem captureEdge_frame (t : Trigger) (s : State) :
    captureEdge t s = { s with tq := (captureEdge t s).tq, tqOvf := (captureEdge t s).tqOvf } := by
  unfold captureEdge; split
  · rfl
  · split <;> rfl

/-- An edge keeps the queue within its bound (R23, R160). -/
theorem captureEdge_queue (t : Trigger) {s : State} (h : s.tq.length ≤ s.platform.queueDepth) :
    (captureEdge t s).tq.length ≤ s.platform.queueDepth := by
  unfold captureEdge; split
  · exact h
  · split
    · simpa using (by omega : s.tq.length + 1 ≤ s.platform.queueDepth)
    · exact h

/-- A reset leaves the framebuffer in its canonical form (R33). -/
theorem setReset_wf (asserted : Bool) (s : State) : (setReset asserted s).fb.wf .fb = true := by
  simpa [setReset] using fbReset_wf s.draws

/-- The clamp of an animation step leaves a position in `[STEP, W - STEP]` (R130). -/
theorem moveTarget_bounds (p : Platform) (dir : Trigger) (xInit : BitVec 16) :
    p.step ≤ moveTarget p dir xInit ∧ moveTarget p dir xInit ≤ 128 - p.step := by
  have h : p.step ≤ 64 := by have := p.stepLess1.isLt; unfold Platform.step; omega
  unfold moveTarget clamp
  simp only [Config.W]
  cases dir <;> constructor <;> (repeat' split) <;> omega

end Sys2Proof.Machine
end

