-- ==== Sys2Proof/Laws/PerInstr.lean ====
section
/-! SUPPORT. The family `RowMatch`: the word of an operation is selected by that operation's own row of the opcode table,
whatever its operands (R64, R66). -/

namespace Sys2Proof.Laws.RowMatch

/-- A well-formed operation's word matches its own row: `(word & mask) = match` (R66). -/
def Statement (i : Instr) : Prop := i.WellFormed = true → i.op.selects (encode i) = true

/-- A word whose bits agree with the row's masked pattern is selected. -/
theorem of_bits {o : Op} {w : Word} (h : ∀ j, j < 32 → (w &&& o.mask).getLsbD j = o.pattern.getLsbD j) :
    o.selects w = true := by
  simp only [Op.selects, decide_eq_true_eq]
  exact BitVec.eq_of_getLsbD_eq h

theorem busStart : Statement .busStart := fun _ => by decide
theorem busStop : Statement .busStop := fun _ => by decide
theorem init : Statement .init := fun _ => by decide
theorem flush : Statement .flush := fun _ => by decide
theorem moveR : Statement .moveR := fun _ => by decide
theorem moveL : Statement .moveL := fun _ => by decide
theorem trigSvc : Statement .trigSvc := fun _ => by decide

theorem fbFill (color : Color) : Statement (.fbFill color) := fun _ => by cases color <;> decide

theorem cfgTrig (enR enL qclr : Bool) : Statement (.cfgTrig enR enL qclr) := fun _ => by
  cases enR <;> cases enL <;> cases qclr <;> decide

theorem busAddr (byte : BitVec 8) : Statement (.busAddr byte) := fun _ => of_bits fun j hj => by
  simp only [BitVec.getLsbD_and, encode, Op.pattern, Instr.op, Op.mask, Op.code, BitVec.getLsbD_append]
  interval_cases j <;> simp

theorem busByte (byte : BitVec 8) : Statement (.busByte byte) := fun _ => of_bits fun j hj => by
  simp only [BitVec.getLsbD_and, encode, Op.pattern, Instr.op, Op.mask, Op.code, BitVec.getLsbD_append]
  interval_cases j <;> simp

theorem busBurst (addr : BitVec 16) (n : Nat) : Statement (.busBurst addr n) := fun _ => of_bits fun j hj => by
  simp only [BitVec.getLsbD_and, encode, Op.pattern, Instr.op, Op.mask, Op.code, BitVec.getLsbD_append]
  interval_cases j <;> simp

theorem fbPixel (x y : BitVec 8) (color : Color) : Statement (.fbPixel x y color) := fun _ => of_bits fun j hj => by
  simp only [BitVec.getLsbD_and, encode, Op.pattern, Instr.op, Op.mask, Op.code, BitVec.getLsbD_append]
  interval_cases j <;> simp

theorem curSet (x y : BitVec 8) : Statement (.curSet x y) := fun _ => of_bits fun j hj => by
  simp only [BitVec.getLsbD_and, encode, Op.pattern, Instr.op, Op.mask, Op.code, BitVec.getLsbD_append]
  interval_cases j <;> simp

theorem wrChar (ch : BitVec 8) (font : BitVec 4) (wrap : Bool) (color : Color) :
    Statement (.wrChar ch font wrap color) := fun _ => of_bits fun j hj => by
  simp only [BitVec.getLsbD_and, encode, Op.pattern, Instr.op, Op.mask, Op.code, BitVec.getLsbD_append]
  interval_cases j <;> simp

theorem wrStr (addr : BitVec 16) (font : BitVec 4) (wrap : Bool) (color : Color) :
    Statement (.wrStr addr font wrap color) := fun _ => of_bits fun j hj => by
  simp only [BitVec.getLsbD_and, encode, Op.pattern, Instr.op, Op.mask, Op.code, BitVec.getLsbD_append]
  interval_cases j <;> simp

theorem wrImg (sprite : BitVec 4) (color : Color) : Statement (.wrImg sprite color) := fun _ => of_bits fun j hj => by
  simp only [BitVec.getLsbD_and, encode, Op.pattern, Instr.op, Op.mask, Op.code, BitVec.getLsbD_append]
  interval_cases j <;> simp

theorem cfgTimeout (value : BitVec 24) : Statement (.cfgTimeout value) := fun _ => of_bits fun j hj => by
  simp only [BitVec.getLsbD_and, encode, Op.pattern, Instr.op, Op.mask, Op.code, BitVec.getLsbD_append]
  interval_cases j <;> simp

end Sys2Proof.Laws.RowMatch
end

