-- ==== Sys2Proof/Laws/Port.lean ====
section
/-! SUPPORT. What the port procedures and the sequencer's runs can do: the block's waits end, a run of the block is never
stuck, and the log entries of the single port actions. -/

namespace Sys2Proof.Machine

/-! ## Answers and samples (R28) -/

theorem answer_scripted {q : Source} {b : Bool} {bs : List Bool} (h : q.answers = b :: bs) (n : Nat) :
    q.answer n = b := by
  simp [Source.answer, h]

theorem answer_steady {q : Source} {b : Bool} (h : q.answers = []) (hs : q.steady = some b) (n : Nat) :
    q.answer n = b := by
  simp [Source.answer, h, hs]

@[simp] theorem next_answers (q : Source) : q.next.answers = q.answers.tail := rfl
@[simp] theorem next_steady (q : Source) : q.next.steady = q.steady := rfl

/-! ## Polls and waits (R90, R91) -/

theorem poll_ne_never (f : Flag) (n : Nat) (p : Port) : (poll f n p).2 ≠ .never := by
  induction n generalizing p with
  | zero => unfold poll; split <;> simp
  | succ n ih =>
    unfold poll
    split
    · simp
    · exact ih _

/-- The block's own waits are polls (R91). -/
theorem waitFor_false (f : Flag) (n : Nat) (p : Port) : waitFor false f n p = poll f n p := rfl

/-- A poll whose first sample reads 1 takes that sample only (R90). -/
theorem poll_of_ready {f : Flag} {p : Port} (h : p.flagValue f = true) (n : Nat) :
    poll f n p = (p.sampled f, .ok) := by
  cases n <;> simp [poll, h]

/-- A poll with a bound left goes on after a 0 (R90). -/
theorem poll_succ_of_not_ready {f : Flag} {p : Port} (h : p.flagValue f = false) (n : Nat) :
    poll f (n + 1) p = poll f n (p.sampled f) := by
  simp [poll, h]

/-! ## The five procedures (R92 to R96) -/

theorem start_ne_never (t : Nat) (p : Port) : (start false t p).2 ≠ .never := poll_ne_never _ _ _

@[simp] theorem statusReads_start (p : Port) : (statusReads p).start = p.start := rfl
@[simp] theorem statusReads_addr (p : Port) : (statusReads p).addr = p.addr := rfl
@[simp] theorem statusReads_txe (p : Port) : (statusReads p).txe = p.txe := rfl
@[simp] theorem statusReads_btf (p : Port) : (statusReads p).btf = p.btf := rfl

/-- The two status reads stand in the bus log in one of the two orders (R94, U6). -/
theorem statusReads_busLog (p : Port) : (statusReads p).busLog =
    p.busLog ++ if p.order.answer p.draws = true then [.rdStatus1, .rdStatus2] else [.rdStatus2, .rdStatus1] := by
  cases h : p.order.answer p.draws <;> simp [statusReads, Port.busLog, h]

theorem sendAddress_ne_never (a : Byte) (t : Nat) (p : Port) : (sendAddress a t p).2 ≠ .never := by
  have h := poll_ne_never .addr t (emit (.txAddr a) p)
  unfold sendAddress
  simp only
  split <;> simp_all

theorem sendBurst_ne_never (t : Nat) (ds : List Byte) (p : Port) : (sendBurst false t ds p).2 ≠ .never := by
  induction ds generalizing p with
  | nil => exact poll_ne_never _ _ _
  | cons d ds ih =>
    unfold sendBurst
    simp only [waitFor_false]
    have h := poll_ne_never .txe t p
    split
    · exact ih _
    · simp
    · simp_all

/-- A burst of one byte is BUS.BYTE of that byte (R96). -/
theorem sendByte_eq_sendBurst (legacy : Bool) (d : Byte) (t : Nat) : sendByte legacy d t = sendBurst legacy t [d] := rfl

theorem sendByte_ne_never (d : Byte) (t : Nat) (p : Port) : (sendByte false d t p).2 ≠ .never := by
  rw [sendByte_eq_sendBurst]; exact sendBurst_ne_never _ _ _

/-- The end of a host-issued bus procedure that returned: its failure is the one error bit (R99). -/
theorem endBus_of_returns {r : Port × PollResult} (h : r.2 ≠ .never) (s : State) :
    endBus r s = finish (busRes (decide (r.2 = .timeout))) { s with port := r.1 } := by
  unfold endBus
  cases hr : r.2 <;> simp_all

/-! ## Runs of the sequencer (R126, R133) -/

/-- A primitive that returns leaves the run going, with its failure or-ed. -/
theorem call_of_returns {r : Run} (hs : r.stuck = false) {f : Port → Port × PollResult} (h : (f r.port).2 ≠ .never) :
    r.call f = { port := (f r.port).1, failed := r.failed || decide ((f r.port).2 = .timeout), stuck := false } := by
  simp [Run.call, hs, h]

theorem call_stuck {r : Run} (hs : r.stuck = false) {f : Port → Port × PollResult} (h : ∀ p, (f p).2 ≠ .never) :
    (r.call f).stuck = false := by
  rw [call_of_returns hs (h _)]

@[simp] theorem stop_stuck (r : Run) : r.stop.stuck = r.stuck := by
  unfold Run.stop; split <;> rfl

@[simp] theorem stop_failed (r : Run) : r.stop.failed = r.failed := by
  unfold Run.stop; split <;> rfl

theorem stop_port {r : Run} (hs : r.stuck = false) : r.stop.port = emit .reqStop r.port := by
  simp [Run.stop, hs]

theorem writeCommand_stuck (t : Nat) {r : Run} (hs : r.stuck = false) (b : Byte) : (writeCommand t r b).stuck = false := by
  simp only [writeCommand, stop_stuck]
  exact call_stuck (call_stuck (call_stuck (call_stuck hs (start_ne_never t)) (sendAddress_ne_never _ t))
    (sendByte_ne_never _ t)) (sendByte_ne_never _ t)

theorem writeData_stuck (t : Nat) (m : Memory) {r : Run} (hs : r.stuck = false) (p : Nat) :
    (writeData t m r p).stuck = false := by
  simp only [writeData, stop_stuck]
  exact call_stuck (call_stuck (call_stuck (call_stuck hs (start_ne_never t)) (sendAddress_ne_never _ t))
    (sendByte_ne_never _ t)) (sendBurst_ne_never t _)

theorem flushPage_stuck (t : Nat) (m : Memory) {r : Run} (hs : r.stuck = false) (p : Nat) :
    (flushPage t m r p).stuck = false :=
  writeData_stuck t m (writeCommand_stuck t (writeCommand_stuck t (writeCommand_stuck t hs _) _) _) p

theorem foldl_stuck {α : Type} {f : Run → α → Run} (hf : ∀ r a, r.stuck = false → (f r a).stuck = false) (l : List α)
    {r : Run} (hs : r.stuck = false) : (l.foldl f r).stuck = false := by
  induction l generalizing r with
  | nil => exact hs
  | cons a l ih => exact ih (hf r a hs)

/-- A flush of the block always ends (R129, R184). -/
theorem flushPages_stuck (t : Nat) (m : Memory) {r : Run} (hs : r.stuck = false) : (flushPages t m r).stuck = false :=
  foldl_stuck (fun _ p h => flushPage_stuck t m h p) _ hs

/-- The command phase of INIT always ends (R128, R184). -/
theorem initCommands_stuck (t : Nat) {r : Run} (hs : r.stuck = false) : (initCommands t r).stuck = false :=
  foldl_stuck (fun _ b h => writeCommand_stuck t h b) _ hs

/-- The end of a sequencer operation of the block. -/
theorem endRun_of_returns {r : Run} (hs : r.stuck = false) (res : Res) (s : State) :
    endRun res r s = finish res { s with port := r.port } := by
  simp [endRun, hs]

end Sys2Proof.Machine
end

