-- ==== Sys2Proof/Laws/Render.lean ====
section
/-! SUPPORT. What the rasterizer can do: one pixel law for the pixel write, the canonical form under every blit, and
the state fields each drawing procedure writes. -/

namespace Sys2Proof.Machine

/-! ## Pixels and cells (R41, R106, R113) -/

/-- Two pixels of the panel in the same byte and bit are one pixel (R41). -/
theorem pixelIndex_inj {x y x' y' : Nat} (hx : x < 128) (hx' : x' < 128) (h : pixelIndex x y = pixelIndex x' y')
    (hb : pixelBit y = pixelBit y') : x = x' ∧ y = y' := by
  simp only [pixelIndex, pixelBit, Config.W] at *; omega

/-- Any pixel of the panel after one pixel write (R106). -/
theorem pixel_drawPixel (x y : Nat) (c : Color) (m : Memory) {x' y' : Nat} (hx : x' < 128) (hy : y' < 64) :
    pixel (drawPixel x y c m) x' y' = if x' = x ∧ y' = y then decide (c = .white) else pixel m x' y' := by
  unfold drawPixel
  split
  · rename_i h
    have : ¬ (x' = x ∧ y' = y) := by simp only [Config.W, Config.H] at h; omega
    rw [if_neg this]
  · rename_i h
    simp only [Config.W, Config.H] at h
    unfold pixel
    rw [fbRead_fbWrite]
    by_cases hi : pixelIndex x' y' = pixelIndex x y
    · rw [if_pos hi, getLsbD_paintBit _ _ _ _ (show pixelBit y < 8 from Nat.mod_lt _ (by decide))]
      by_cases hb : pixelBit y' = pixelBit y
      · obtain ⟨rfl, rfl⟩ := pixelIndex_inj hx (by omega) hi hb
        simp
      · have : ¬ (x' = x ∧ y' = y) := fun e => hb (by rw [e.2])
        rw [if_neg hb, if_neg this, hi]
    · have : ¬ (x' = x ∧ y' = y) := fun e => hi (by rw [e.1, e.2])
      rw [if_neg hi, if_neg this]

theorem foldl_wf {α : Type} {f : Memory → α → Memory} (hf : ∀ m a, m.wf .fb = true → (f m a).wf .fb = true) (l : List α)
    {m : Memory} (h : m.wf .fb = true) : (l.foldl f m).wf .fb = true := by
  induction l generalizing m with
  | nil => exact h
  | cons a l ih => exact ih (hf m a h)

theorem blitRow_wf {m : Memory} (h : m.wf .fb = true) (r : PixelRow) (w x0 y : Nat) (c : Color) :
    (blitRow r w x0 y c m).wf .fb = true :=
  foldl_wf (fun _ _ hm => drawPixel_wf hm _ _ _) _ h

theorem blitCell_wf {m : Memory} (h : m.wf .fb = true) (rows : List PixelRow) (w x0 y : Nat) (c : Color) :
    (blitCell rows w x0 y c m).wf .fb = true := by
  induction rows generalizing m y with
  | nil => exact h
  | cons r rs ih => exact ih (blitRow_wf h r w x0 y c) _

theorem blitSections_wf {m : Memory} (h : m.wf .fb = true) (sp : Sprite) (y : Nat) (c : Color) (draws n : Nat)
    (x : BitVec 16) : (blitSections sp y c draws n m x).1.wf .fb = true := by
  unfold blitSections
  induction n with
  | zero => exact h
  | succ n ih => rw [List.range_succ, List.foldl_append]; exact blitCell_wf ih _ _ _ _ _

/-! ## Frames of the drawing procedures (R114 to R116) -/

/-- A successful character writes `FB`, the position, the wrap counter and the model's counter, nothing else (R114). -/
theorem writeChar_frame {f : Font} {ch : Byte} {wrap : Bool} {c : Color} {s s' : State}
    (h : writeChar f ch wrap c s = some s') :
    s' = { s with fb := s'.fb, cur := { s.cur with x := s'.cur.x, y := s'.cur.y, wc := s'.cur.wc }, draws := s'.draws } := by
  unfold writeChar at h
  split at h
  · cases h
  · cases h; rfl

/-- A successful character keeps the canonical form (R114). -/
theorem writeChar_wf {f : Font} {ch : Byte} {wrap : Bool} {c : Color} {s s' : State} (hm : s.fb.wf .fb = true)
    (h : writeChar f ch wrap c s = some s') : s'.fb.wf .fb = true := by
  unfold writeChar at h
  split at h
  · cases h
  · cases h; exact blitCell_wf hm _ _ _ _ _

/-- A character goes where its cell fits the height (R114, R121). -/
theorem charPlace_bound {w h : Nat} {wrap : Bool} {cur : Cursor} {xn yn wcn : Nat}
    (hp : charPlace w h wrap cur = some (xn, yn, wcn)) : yn + h ≤ 64 := by
  unfold charPlace at hp
  simp only [Config.W, Config.H] at hp
  split at hp
  · split at hp
    · split at hp <;> simp_all
    · cases hp
  · split at hp <;> simp_all

/-! ## Operand reads (R48, R59) -/

/-- A byte that was not changed during the operation is read as it stands. -/
theorem operandByte_of_stable {s : State} {a : BitVec 16} (h : ∀ b, (a, b) ∉ s.stale) : operandByte s a = opmRead s.opm a := by
  have : staleAt s a = [] := by
    simp only [staleAt, List.map_eq_nil_iff, List.filter_eq_nil_iff, decide_eq_true_eq]
    rintro ⟨a', b⟩ hm rfl
    exact h b hm
  simp only [operandByte, this]

/-- Reading such a byte draws nothing. -/
theorem afterRead_of_stable {s : State} {a : BitVec 16} (h : ∀ b, (a, b) ∉ s.stale) : afterRead a s = s := by
  have : staleAt s a = [] := by
    simp only [staleAt, List.map_eq_nil_iff, List.filter_eq_nil_iff, decide_eq_true_eq]
    rintro ⟨a', b⟩ hm rfl
    exact h b hm
  simp only [afterRead, this]

/-- A read of operand memory draws at most one free value, and changes nothing else. -/
theorem afterRead_frame (a : BitVec 16) (s : State) : afterRead a s = { s with draws := (afterRead a s).draws } := by
  unfold afterRead; split <;> rfl

/-- A string writes what its characters write, however it ends, and the model's counter (R115). -/
theorem writeChars_frame (f : Font) (wrap : Bool) (c : Color) (n : Nat) (a : BitVec 16) (s : State) :
    (writeChars f wrap c n a s).2 = { s with
      fb := (writeChars f wrap c n a s).2.fb
      cur := { s.cur with
        x := (writeChars f wrap c n a s).2.cur.x
        y := (writeChars f wrap c n a s).2.cur.y
        wc := (writeChars f wrap c n a s).2.cur.wc }
      draws := (writeChars f wrap c n a s).2.draws } := by
  induction n generalizing a s with
  | zero => rfl
  | succ n ih =>
    have r := afterRead_frame a s
    unfold writeChars
    split
    · rw [r]
    · split
      · rw [r]
      · rename_i s' h
        have e := writeChar_frame h
        have i := ih (a + 1#16) s'
        generalize (writeChars f wrap c n (a + 1#16) s').2 = t at i ⊢
        rw [i, e, r]

/-- A string keeps the canonical form (R115). -/
theorem writeChars_wf (f : Font) (wrap : Bool) (c : Color) (n : Nat) (a : BitVec 16) {s : State} (h : s.fb.wf .fb = true) :
    (writeChars f wrap c n a s).2.fb.wf .fb = true := by
  induction n generalizing a s with
  | zero => exact h
  | succ n ih =>
    have r : (afterRead a s).fb = s.fb := by rw [afterRead_frame]
    unfold writeChars
    split
    · rw [r]; exact h
    · split
      · rw [r]; exact h
      · rename_i s' hs
        exact ih _ (writeChar_wf (by rw [r]; exact h) hs)

/-- How the characters of a string leave the block: ended and idle with `RES` written, or going on and busy (R115,
R192). -/
theorem runString_cases (f : Font) (r : StringRun) (n : Nat) (s : State) :
    ((writeChars f r.wrap r.color n r.addr s).1 ≠ .goesOn ∧
      ∃ res, runString f r n s = finish res (writeChars f r.wrap r.color n r.addr s).2 ∧
        (res = { ret := Config.terminator } ∨ ∃ ch, res = noSpaceRes ch)) ∨
    ((writeChars f r.wrap r.color n r.addr s).1 = .goesOn ∧
      runString f r n s = { (writeChars f r.wrap r.color n r.addr s).2 with
        busy := true, running := some { r with addr := r.addr + BitVec.ofNat 16 n } }) := by
  unfold runString
  generalize writeChars f r.wrap r.color n r.addr s = q
  obtain ⟨e, t⟩ := q
  cases e
  · exact .inl ⟨StringEnd.noConfusion, _, rfl, .inl rfl⟩
  · exact .inl ⟨StringEnd.noConfusion, _, rfl, .inr ⟨_, rfl⟩⟩
  · exact .inr ⟨rfl, rfl⟩

/-- A string that goes on leaves the block busy (R192). -/
theorem runString_busy {f : Font} {r : StringRun} {n : Nat} {s : State}
    (h : (writeChars f r.wrap r.color n r.addr s).1 = .goesOn) : (runString f r n s).busy = true := by
  rcases runString_cases f r n s with ⟨hn, -⟩ | ⟨-, e⟩
  · exact absurd h hn
  · rw [e]

/-- A sprite writes `FB`, the position `x`, the origin, `LastSprite` and the model's counter, nothing else (R116). -/
theorem writeImg_frame (k : BitVec 4) (sp : Sprite) (c : Color) (s : State) :
    (writeImg k sp c s).1 = { s with
      fb := (writeImg k sp c s).1.fb
      cur := { s.cur with x := (writeImg k sp c s).1.cur.x, xInit := s.cur.x, yInit := s.cur.y }
      last := { valid := true, id := k }
      draws := (writeImg k sp c s).1.draws } := by
  unfold writeImg; split <;> rfl

/-- A sprite keeps the canonical form (R116). -/
theorem writeImg_wf (k : BitVec 4) (sp : Sprite) (c : Color) {s : State} (h : s.fb.wf .fb = true) :
    (writeImg k sp c s).1.fb.wf .fb = true := by
  unfold writeImg
  split
  · exact blitSections_wf h _ _ _ _ _ _
  · exact h

end Sys2Proof.Machine
end

