-- ==== Sys2Proof/Tests/Slice0.lean ====
section
/-! SUPPORT. Tests of the model. Expected values are those of spec/95_test_vectors.md (named V-…, S…) and of the rules'
own examples; assets, operand memory and parameters are those of section 2 there. -/

namespace Sys2Proof.Tests

open Sys2Proof.Machine

/-! ## Small states -/

/-- A flag that reads 1 at every sample. -/
def ready : Source := { answers := [], steady := some true }

/-- A flag that gives these answers and then 1 for ever. -/
def answers (bs : List Bool) : Source := { answers := bs, steady := some true }

/-- A flag that reads 0 at every sample. -/
def dead : Source := { answers := [], steady := some false }

/-- Font 0 of the vectors, codes 32 to 66: codes 32 to 64 are blank rows. -/
def font0 : Font where
  width := 8#8
  height := 8#8
  rows := List.replicate 264 0x0000#16 ++
    [0x1800#16, 0x2400#16, 0x4200#16, 0x4200#16, 0x7E00#16, 0x4200#16, 0x4200#16, 0x0000#16] ++
    [0x7C00#16, 0x4200#16, 0x4200#16, 0x7C00#16, 0x4200#16, 0x4200#16, 0x7C00#16, 0x0000#16]

/-- Font 1 of the vectors: solid, 16 by 10. -/
def font1 : Font := { width := 16#8, height := 10#8, rows := List.replicate 960 0xFFFF#16 }

/-- Font 2 of the vectors: 20 wide, wider than a row. -/
def font2 : Font := { width := 20#8, height := 2#8, rows := List.replicate 192 0xFFFF#16 }

/-- A font of width 0 and height 0, the kind rule R192 warns of. -/
def font3 : Font := { width := 0#8, height := 0#8, rows := [] }

/-- Sprite 0 of the vectors: a solid and a hollow box. -/
def sprite0 : Sprite where
  width := 8#8
  height := 8#8
  sections := 2#8
  rows := List.replicate 8 0xFF00#16 ++
    [0xFF00#16, 0x8100#16, 0x8100#16, 0x8100#16, 0x8100#16, 0x8100#16, 0x8100#16, 0xFF00#16]

/-- Sprite 1 of the vectors: three solid sections. -/
def sprite1 : Sprite := { width := 8#8, height := 8#8, sections := 3#8, rows := List.replicate 24 0xFF00#16 }

/-- Sprite 2 of the vectors: 16 by 16, one section. -/
def sprite2 : Sprite := { width := 16#8, height := 16#8, sections := 1#8, rows := List.replicate 16 0xFFFF#16 }

/-- `STEP = 8`, `TRIG_QDEPTH = 2` and the assets above. -/
def platform : Platform where
  stepLess1 := 7
  queueDepthLess1 := 1
  fonts := [(0#4, font0), (1#4, font1), (2#4, font2), (3#4, font3)]
  sprites := [(0#4, sprite0), (1#4, sprite1), (2#4, sprite2)]

/-- The operand memory of the vectors that the tests use. -/
def opm : Memory :=
  [(0x0000, 0xBB#8), (0x0100, 0x41#8), (0x0101, 0x42#8), (0x0110, 0x41#8), (0x0111, 0x42#8), (0x0112, 0x41#8),
   (0x0200, 0x11#8), (0x0201, 0x22#8), (0x0202, 0x33#8), (0xFFFF, 0xAA#8)]

/-- The start state of the vectors: `FB` blank, all flags ready. -/
def start : State :=
  { State.reset with
    fb := fillFrame .black
    platform := platform
    opm := opm
    port := { start := ready, addr := ready, txe := ready, btf := ready, order := ready, draws := 0, log := [] } }

/-- The bound set. -/
def bound (v : BitVec 24) (s : State) : State := { s with bto := { valid := true, value := v } }

/-- The cursor `(x, y | xi, yi, wc)`. -/
def cursor (x y xi yi wc : BitVec 16) (s : State) : State :=
  { s with cur := { x := x, y := y, xInit := xi, yInit := yi, wc := wc } }

/-- The last sprite set. -/
def lastIs (k : BitVec 4) (s : State) : State := { s with last := { valid := true, id := k } }

/-- The flag answers of one test. -/
def flags (st ad tx bt : Source) (s : State) : State :=
  { s with port := { s.port with start := st, addr := ad, txe := tx, btf := bt } }

/-- Both triggers enabled and these entries queued. -/
def queued (q : List Trigger) (s : State) : State := { s with ten := { enR := true, enL := true }, tq := q }

/-- These events pending. -/
def events (es : List HostEvent) (s : State) : State := { s with inbox := es }

/-- A view of the next state of an outcome. -/
def view {α : Type} (f : State → α) : Host.Outcome State Fault Refusal → Option α
  | .next s => some (f s)
  | .fault _ => none
  | .refused _ => none

/-- The cursor as the vectors write it. -/
def showCur (s : State) : List Nat := [s.cur.x, s.cur.y, s.cur.xInit, s.cur.yInit, s.cur.wc].map BitVec.toNat

/-- The framebuffer bytes that differ from a background. -/
def differing (b : Byte) (s : State) : List (Nat × Byte) := s.fb.filter fun c => decide (c.2 ≠ b)

/-! ## WellFormed: a burst of 0 or 257 bytes cannot be spelled (R65, U5) -/

theorem test_wellFormed_refuses_empty_burst : (Instr.busBurst 0x0200#16 0).WellFormed = false := by decide
theorem test_wellFormed_refuses_long_burst : (Instr.busBurst 0x0200#16 257).WellFormed = false := by decide
theorem test_wellFormed_accepts_1_and_256 :
    (Instr.busBurst 0x0000#16 1).WellFormed = true ∧ (Instr.busBurst 0xFFFF#16 256).WellFormed = true := by decide

/-! ## Decoding: the words of V-EN-1 to V-EN-34 -/

theorem test_decode_bus :
    [0x10000000#32, 0x11000000#32, 0x12000078#32, 0x130000AF#32, 0x14020002#32, 0x140000FF#32, 0x14FFFF01#32].map
        (fun w => (decode w).toOption) =
      [some .busStart, some .busStop, some (.busAddr 0x78#8), some (.busByte 0xAF#8), some (.busBurst 0x0200#16 3),
       some (.busBurst 0x0000#16 256), some (.busBurst 0xFFFF#16 2)] := by decide

theorem test_decode_framebuffer :
    [0x20000000#32, 0x20000001#32, 0x21050A01#32, 0x217F3F01#32, 0x22020300#32, 0x22C84600#32].map
        (fun w => (decode w).toOption) =
      [some (.fbFill .black), some (.fbFill .white), some (.fbPixel 5#8 10#8 .white), some (.fbPixel 127#8 63#8 .white),
       some (.curSet 2#8 3#8), some (.curSet 200#8 70#8)] := by decide

theorem test_decode_render :
    [0x30410001#32, 0x30410000#32, 0x30410013#32, 0x30200021#32, 0x31011003#32, 0x31012013#32, 0x32000000#32,
      0x32000011#32].map (fun w => (decode w).toOption) =
      [some (.wrChar 0x41#8 0#4 false .white), some (.wrChar 0x41#8 0#4 false .black), some (.wrChar 0x41#8 1#4 true .white),
       some (.wrChar 0x20#8 2#4 false .white), some (.wrStr 0x0110#16 0#4 true .white), some (.wrStr 0x0120#16 1#4 true .white),
       some (.wrImg 0#4 .black), some (.wrImg 1#4 .white)] := by decide

theorem test_decode_sequencer :
    [0x40000000#32, 0x41000000#32, 0x42000000#32, 0x43000000#32, 0x44000000#32].map (fun w => (decode w).toOption) =
      [some .init, some .flush, some .moveR, some .moveL, some .trigSvc] := by decide

theorem test_decode_configuration :
    [0x500003E8#32, 0x50000000#32, 0x50FFFFFF#32, 0x51000007#32, 0x51000006#32].map (fun w => (decode w).toOption) =
      [some (.cfgTimeout 1000#24), some (.cfgTimeout 0#24), some (.cfgTimeout 16777215#24), some (.cfgTrig true true true),
       some (.cfgTrig false true true)] := by decide

theorem test_decode_refuses_illegal_words :
    [0x00000000#32, 0xFFFFFFFF#32, 0x15000000#32, 0x10000001#32, 0x12000178#32, 0x20000002#32, 0x2100000A#32, 0x22000001#32,
      0x30410100#32, 0x3041000C#32, 0x32000100#32, 0x51000008#32].map (fun w => (decode w).toOption) =
      List.replicate 12 none := by decide

/-- The words a table row's pattern gives for three rows, through the host's entry point. -/
theorem test_decodeTableWord :
    decodeTableWord 32 0x14000000 = some (.busBurst 0#16 1) ∧ decodeTableWord 32 0x44000000 = some .trigSvc ∧
      decodeTableWord 32 0x45000000 = none := by decide

/-! ## Bus operations (R92 to R96) -/

/-- V-BUS-3 -/
theorem test_busStart_third_sample :
    view (fun s => (s.port.busLog, s.res.toWord, s.busy)) (exec .busStart (flags (answers [false, false]) ready ready ready (bound 2#24 start))) =
      some ([.reqStart, .sample .start false, .sample .start false, .sample .start true], 0x0000#32, false) := by decide

/-- V-BUS-4 -/
theorem test_busStart_timeout :
    view (fun s => (s.port.busLog, s.res.toWord)) (exec .busStart (flags (answers [false, false, false]) ready ready ready (bound 2#24 start))) =
      some ([.reqStart, .sample .start false, .sample .start false, .sample .start false], 0x1100#32) := by decide

/-- V-BUS-15 -/
theorem test_busStop_needs_no_bound :
    view (fun s => (s.port.busLog, s.res.toWord)) (exec .busStop start) = some ([.reqStop], 0x0000#32) := by decide

/-- V-BUS-6 -/
theorem test_busAddr_timeout :
    view (fun s => (s.port.busLog, s.res.toWord)) (exec (.busAddr 0x78#8) (flags ready dead ready ready (bound 0#24 start))) =
      some ([.txAddr 0x78#8, .sample .addr false], 0x1100#32) := by decide

/-- V-BUS-7 -/
theorem test_busAddr_status_reads :
    view (fun s => (s.port.busLog, s.res.toWord)) (exec (.busAddr 0x78#8) (bound 0#24 start)) =
      some ([.txAddr 0x78#8, .sample .addr true, .rdStatus1, .rdStatus2], 0x0000#32) := by decide

/-- V-BUS-9 -/
theorem test_busByte_not_written :
    view (fun s => (s.port.busLog, s.res.toWord)) (exec (.busByte 0xAF#8) (flags ready ready dead ready (bound 1#24 start))) =
      some ([.sample .txe false, .sample .txe false], 0x1100#32) := by decide

/-- V-BUS-11 -/
theorem test_busByte_written_then_timeout :
    view (fun s => (s.port.busLog, s.res.toWord)) (exec (.busByte 0xAF#8) (flags ready ready ready dead (bound 1#24 start))) =
      some ([.sample .txe true, .txData 0xAF#8, .sample .btf false, .sample .btf false], 0x1100#32) := by decide

/-- V-BUS-13 -/
theorem test_busBurst_stops_at_timeout :
    view (fun s => (s.port.busLog, s.res.toWord))
        (exec (.busBurst 0x0200#16 3) (flags ready ready (answers [true, false]) ready (bound 0#24 start))) =
      some ([.sample .txe true, .txData 0x11#8, .sample .txe false], 0x1100#32) := by decide

/-- V-BUS-14 -/
theorem test_busBurst_address_wraps :
    view (fun s => (s.port.busLog, s.res.toWord)) (exec (.busBurst 0xFFFF#16 2) (bound 0#24 start)) =
      some ([.sample .txe true, .txData 0xAA#8, .sample .txe true, .txData 0xBB#8, .sample .btf true], 0x0000#32) := by decide

/-- V-BUS-16 and V-SQ-8: with no bound set nothing is emitted. -/
theorem test_unset_bound :
    [Instr.busStart, .flush, .init].map (fun i => view (fun s => (s.port.busLog, s.res.toWord)) (exec i start)) =
      List.replicate 3 (some ([], 0x1800#32)) := by decide

/-! ## Framebuffer and cursor (R105 to R108) -/

/-- V-FB-1 -/
theorem test_fbFill_white :
    view (fun s => (differing 0xFF#8 s, s.fb.length, s.res.toWord)) (exec (.fbFill .white) start) = some ([], 1024, 0x0000#32) := by
  decide +kernel

/-- V-FB-4b, the step from the command word -/
theorem test_fbPixel_clears_one_bit :
    view (differing 0xFF#8) (step ({ start with fb := fillFrame .white }.withFetchWord 32 0x21050A00)) = some [(133, 0xFB#8)] := by
  decide +kernel

/-- V-FB-3, V-FB-5, V-FB-6 -/
theorem test_fbPixel_last_pixel_and_outside :
    [0x217F3F01, 0x21800001, 0x21004001].map (fun w => view (differing 0x00#8) (step (start.withFetchWord 32 w))) =
      [some [(1023, 0x80#8)], some [], some []] := by decide +kernel

/-- V-FB-12 -/
theorem test_curSet_off_panel :
    view (fun s => (showCur s, s.res.toWord)) (exec (.curSet 200#8 70#8) (cursor 1#16 2#16 3#16 4#16 5#16 start)) =
      some ([200, 70, 3, 4, 5], 0x0000#32) := by decide

/-! ## Rasterizer (R114 to R116) -/

/-- V-CH-3b: the whole cell is overwritten, across two pages. -/
theorem test_wrChar_overwrites_its_cell :
    view (fun s => (differing 0xFF#8 s, showCur s, s.res.toWord))
        (exec (.wrChar 0x41#8 0#4 false .white) (cursor 3#16 5#16 0#16 0#16 1#16 { start with fb := fillFrame .white })) =
      some ([(3, 0x1F#8), (4, 0x9F#8), (5, 0x5F#8), (6, 0x3F#8), (7, 0x3F#8), (8, 0x5F#8), (9, 0x9F#8), (10, 0x1F#8),
        (131, 0xE0#8), (132, 0xEF#8), (133, 0xE2#8), (134, 0xE2#8), (135, 0xE2#8), (136, 0xE2#8), (137, 0xEF#8), (138, 0xE0#8)],
        [11, 5, 0, 0, 1], 0x0041#32) := by decide +kernel

/-- V-CH-5 steps 3 and 4, V-CH-4: the multiplicative wrap, its height failure, and the width failure. -/
theorem test_wrChar_wraps_or_fails :
    [((120#16, 30#16, 3#16), 1#4, true), ((120#16, 45#16, 4#16), 1#4, true), ((121#16, 0#16, 1#16), 0#4, false)].map
        (fun p => view (fun s => (showCur s, s.res.toWord))
          (exec (.wrChar 0x41#8 p.2.1 p.2.2 .white) (cursor p.1.1 p.1.2.1 4#16 5#16 p.1.2.2 start))) =
      [some ([20, 45, 4, 5, 4], 0x0041#32), some ([120, 45, 4, 5, 4], 0x1201#32), some ([121, 0, 4, 5, 1], 0x1201#32)] := by
  decide +kernel

/-- V-ST-3 -/
theorem test_wrStr_wraps :
    view (fun s => (differing 0x00#8 s, showCur s, s.res.toWord))
        (exec (.wrStr 0x0110#16 0#4 true .white) (cursor 112#16 0#16 9#16 9#16 9#16 start)) =
      some ([(113, 0x7C#8), (114, 0x12#8), (115, 0x11#8), (116, 0x11#8), (117, 0x12#8), (118, 0x7C#8),
        (121, 0x7F#8), (122, 0x49#8), (123, 0x49#8), (124, 0x49#8), (125, 0x49#8), (126, 0x36#8),
        (241, 0x7C#8), (242, 0x12#8), (243, 0x11#8), (244, 0x11#8), (245, 0x12#8), (246, 0x7C#8)],
        [120, 8, 112, 0, 2], 0x0000#32) := by decide +kernel

/-- V-ST-1 -/
theorem test_wrStr_stops_at_failure :
    view (fun s => (differing 0x00#8 s, showCur s, s.res.toWord))
        (exec (.wrStr 0x0100#16 0#4 false .white) (cursor 120#16 0#16 9#16 9#16 9#16 start)) =
      some ([(121, 0x7C#8), (122, 0x12#8), (123, 0x11#8), (124, 0x11#8), (125, 0x12#8), (126, 0x7C#8)],
        [128, 0, 120, 0, 1], 0x1242#32) := by decide +kernel

/-- V-IM-5: later sections clipped and lost. -/
theorem test_wrImg_clips_later_sections :
    view (fun s => (differing 0x00#8 s, showCur s, s.last, s.res.toWord))
        (exec (.wrImg 1#4 .white) (cursor 116#16 0#16 0#16 0#16 7#16 start)) =
      some ((List.range 12).map (fun i => (116 + i, 0xFF#8)), [140, 0, 116, 0, 7], { valid := true, id := 1#4 }, 0x0000#32) := by
  decide +kernel

/-- V-IM-2: the origin and the last sprite stay recorded. -/
theorem test_wrImg_records_then_fails :
    view (fun s => (differing 0x00#8 s, showCur s, s.last, s.res.toWord))
        (exec (.wrImg 0#4 .white) (cursor 121#16 8#16 0#16 0#16 7#16 start)) =
      some ([], [121, 8, 121, 8, 7], { valid := true, id := 0#4 }, 0x1200#32) := by decide +kernel

/-! ## Sequencer (R126 to R132) -/

/-- V-SQ-1 -/
theorem test_writeCommand_log :
    (writeCommand 0 (Run.begin start.port) 0xAE#8).port.busLog =
      [.reqStart, .sample .start true, .txAddr 0x78#8, .sample .addr true, .rdStatus1, .rdStatus2, .sample .txe true,
       .txData 0x00#8, .sample .btf true, .sample .txe true, .txData 0xAE#8, .sample .btf true, .reqStop] := by decide

/-- V-SQ-2 -/
theorem test_init :
    view (fun s => (s.port.log.length, sampleCount s.port.log, (differing 0x00#8 s).length, showCur s, s.res.toWord))
        (exec .init (cursor 9#16 9#16 1#16 2#16 3#16 (bound 0#24 { start with fb := fillFrame .white }))) =
      some (2812, 1376, 0, [0, 0, 1, 2, 3], 0x0000#32) := by decide +kernel

/-- V-SQ-6: a failed command phase changes nothing but `RES`. -/
theorem test_init_failure :
    view (fun s => (s.port.log.length, (differing 0xFF#8 s).length, showCur s, s.res.toWord))
        (exec .init (cursor 9#16 9#16 1#16 2#16 3#16 (flags ready dead ready ready (bound 0#24 { start with fb := fillFrame .white })))) =
      some (308, 0, [9, 9, 1, 2, 3], 0x1500#32) := by decide +kernel

/-- V-SQ-3 -/
theorem test_flush :
    view (fun s => (s.port.log.length, sampleCount s.port.log, (dataBytes s.port.log).length, s.res.toWord))
        (exec .flush (bound 0#24 start)) =
      some (2448, 1208, 1080, 0x0000#32) := by decide +kernel

/-- V-SQ-5: one failed poll is reported and stops nothing. -/
theorem test_flush_one_failed_poll :
    view (fun s => (s.port.log.length, s.res.toWord))
        (exec .flush (flags ready ready ready (answers (List.replicate 10 true ++ [false])) (bound 0#24 start))) =
      some (2448, 0x1100#32) := by decide +kernel

/-- V-MV-1 -/
theorem test_moveR :
    view (fun s => (differing 0x00#8 s, showCur s, s.port.log.length, s.res.toWord))
        (exec .moveR (cursor 26#16 8#16 10#16 8#16 1#16 (lastIs 0#4 (bound 0#24 start)))) =
      some ((List.range 9).map (fun i => (146 + i, 0xFF#8)) ++ (List.range 6).map (fun i => (155 + i, 0x81#8)) ++ [(161, 0xFF#8)],
        [34, 8, 18, 8, 1], 2448, 0x0000#32) := by decide +kernel

/-- V-MV-6, the second MOVE.R: the redraw fails after the clear. -/
theorem test_moveR_redraw_fails :
    view (fun s => (differing 0x00#8 s, showCur s, s.port.log.length, s.res.toWord))
        (exec .moveR (cursor 124#16 0#16 108#16 0#16 1#16 (lastIs 2#4 (bound 0#24 { start with fb := fillFrame .white })))) =
      some ([], [116, 0, 116, 0, 1], 2448, 0x1200#32) := by decide +kernel

/-- V-MV-4: the left clamp. -/
theorem test_moveL_clamps :
    view (fun s => (showCur s, s.res.toWord))
        (exec .moveL (cursor 24#16 8#16 8#16 8#16 1#16 (lastIs 0#4 (bound 0#24 start)))) =
      some ([24, 8, 8, 8, 1], 0x0000#32) := by decide +kernel

/-! ## Configuration and triggers (section 3.9) -/

/-- V-CF-1 -/
theorem test_cfgTimeout :
    view (fun s => (s.bto, s.res.toWord)) (exec (.cfgTimeout 1000#24) start) = some ({ valid := true, value := 1000#24 }, 0x0000#32) := by
  decide

/-- Section 3.9 steps 9 and 10 -/
theorem test_cfgTrig_clears_queue :
    view (fun s => (tenWord s.ten, (captureEdge .left (captureEdge .right s)).tq, s.tqOvf, s.res.toWord))
        (exec (.cfgTrig false true true) { queued [.right] start with tqOvf := true }) =
      some (0x2#32, [.left], false, 0x0000#32) := by decide

/-- Section 3.9 step 5 -/
theorem test_edges_fill_and_overflow :
    (fun s => (s.tq, statWord s)) (captureEdge .right (captureEdge .left (captureEdge .right
        (queued [] (lastIs 0#4 (bound 0#24 start)))))) = ([.right, .left], 0x021E#32) := by decide

/-- Section 3.9 step 6 -/
theorem test_trigSvc_services_oldest :
    view (fun s => (s.tq, showCur s, statWord s, s.res.toWord))
        (exec .trigSvc { queued [.right, .left] (cursor 26#16 8#16 10#16 8#16 1#16 (lastIs 0#4 (bound 0#24 start))) with tqOvf := true }) =
      some ([.left], [34, 8, 18, 8, 1], 0x011E#32, 0x0000#32) := by decide +kernel

/-- Section 3.9 step 8 and V-SV-2 -/
theorem test_trigSvc_empty_or_no_sprite :
    [[], [.left]].map (fun q => view (fun s => (s.tq, s.port.busLog, s.res.toWord)) (exec .trigSvc (queued q (bound 0#24 start)))) =
      [some ([], [], 0x0000#32), some ([], [], 0x1800#32)] := by decide

/-! ## Events (R31, R67, R176) -/

/-- V-EN-28: an illegal word gives `RES = 1800`. -/
theorem test_illegal_word :
    view (fun s => (s.res.toWord, s.port.busLog, s.busy)) (step (start.withFetchWord 32 0x20000002)) =
      some (0x1800#32, [], false) := by decide +kernel

/-- R31: four addresses of the read-back port. -/
theorem test_readBack :
    let s := lastIs 2#4 (bound 1000#24 (cursor 7#16 8#16 9#16 10#16 11#16 start))
    [0x004, 0x008, 0x020, 0x024].map (readBack s) = [0x18#32, 1000#32, 11#32, 0x102#32] := by decide

/-- R59: while the block is busy a written byte keeps the value it had as one that may be read; idle it does not. -/
theorem test_write_while_busy_keeps_both_values :
    view (fun s => (opmRead s.opm 0x0100#16, s.stale)) (step (events [.opmWrite 0x0100#16 0x55#8] { start with busy := true })) =
        some (0x55#8, [(0x0100#16, 0x41#8)]) ∧
      view (fun s => (opmRead s.opm 0x0100#16, s.stale)) (step (events [.opmWrite 0x0100#16 0x55#8] start)) =
        some (0x55#8, []) := by decide

/-- R59: a write during BUS.BURST of a byte it does not read changes nothing on the bus (V-BUS-12), and is forgotten. -/
theorem test_write_during_burst :
    view (fun s => (dataBytes s.port.busLog, opmRead s.opm 0x0203#16, s.stale))
        (step (events [.commandWithWrites 0x14020002#32 [(0x0203#16, 0x44#8)]] (bound 0#24 start))) =
      some ([0x11#8, 0x22#8, 0x33#8], 0x44#8, []) := by decide

/-- R115, R192: a string in progress whose next byte is the terminator ends at it. -/
theorem test_string_in_progress_ends :
    view (fun s => (s.busy, s.running, s.res.toWord)) (step (events [.pass 5] { start with
        busy := true, running := some { font := 0#4, wrap := false, color := .white, addr := 0x0101#16 } })) =
      some (false, none, 0x0000#32) := by decide +kernel

/-- R176: an operation abandoned after three log entries leaves them and sends no stop. -/
theorem test_reset_abandons_an_operation :
    view (fun s => (s.port.busLog, s.inReset, s.busy, s.bto.valid))
        (step (events [.commandCutByReset 0x12000078#32 [] 3] (bound 0#24 start))) =
      some ([.txAddr 0x78#8, .sample .addr true, .rdStatus1], true, false, false) := by decide

/-! ## Witnesses: states and operands that meet the hypotheses of each statement -/

/-- The last cells of operand memory, with no terminator anywhere. -/
def opmFull : Memory := (List.range Config.opmBytes).map fun a => (a, 0x41#8)

/-- An idle block about to take a word. -/
def presents (w : Word) : State := events [.command w] (bound 0#24 start)

/-- A burst of 256 bytes, the longest, and one of 1. -/
theorem witness_DecodeOfEncodeGivesTheOperationBack :
    (Instr.busBurst 0xFFFF#16 256).WellFormed = true ∧ (Instr.busBurst 0#16 1).WellFormed = true := by decide

theorem witness_EncodeOfDecodeGivesTheWordBack :
    decode 0x14FFFFFF#32 = .ok (.busBurst 0xFFFF#16 256) ∧ decode 0x14000000#32 = .ok (.busBurst 0#16 1) := by decide

theorem witness_DecodeFollowsTheOpcodeTable :
    (0x30FF00F3#32 &&& Op.wrChar.mask = Op.wrChar.pattern) ∧ (∀ o ∈ [Op.wrChar, .wrStr], 0x3041000C#32 &&& o.mask ≠ o.pattern) := by
  decide

/-- V-EN-26: BUS.START with a reserved bit selects no row. -/
theorem witness_IllegalWordSetsOnlyUsage :
    (presents 0x10000001#32).Accepts ∧ (presents 0x10000001#32).inbox = [.command 0x10000001#32] ∧
      ∀ o : Op, 0x10000001#32 &&& o.mask ≠ o.pattern :=
  ⟨⟨rfl, rfl⟩, rfl, fun o => by cases o <;> decide⟩

theorem witness_StepRunsTheDecodedOperation :
    (presents 0x41000000#32).Accepts ∧ (presents 0x41000000#32).inbox = [.command 0x41000000#32] ∧
      decode 0x41000000#32 = .ok .flush ∧ decode (BitVec.ofNat 32 0x41000000) = .ok .flush :=
  ⟨⟨rfl, rfl⟩, rfl, rfl, rfl⟩

theorem witness_WordWhileBusyOrInResetIsDropped :
    ({ presents 0x41000000#32 with busy := true }.busy = true ∧ (presents 0x41000000#32).inbox = [.command 0x41000000#32]) ∧
      { presents 0x41000000#32 with inReset := true }.inReset = true := ⟨⟨rfl, rfl⟩, rfl⟩

theorem start_inv : start.Inv where
  fbForm := by decide +kernel
  opmForm := by decide +kernel
  queueBound := by decide
  yBound := by decide
  yInitBound := by decide
  lastInstalled := fun h => absurd h (by decide)
  resLegal := ⟨fun h => absurd h (by decide), fun h => absurd h (by decide)⟩
  busyRuns := rfl
  runningInstalled := fun _ h => nomatch h
  idleSettled := fun _ => rfl

/-- A state that meets the invariant steps, here by idling. -/
theorem witness_EveryStepKeepsTheInvariant : start.Inv ∧ step start = .next start := ⟨start_inv, rfl⟩

theorem witness_ResetInputLeavesResetValues :
    (events [.reset true] start).inbox = [.reset true] ∧ (events [.reset false] start).inbox = [.reset false] := ⟨rfl, rfl⟩

theorem witness_AbandonedOperationLeavesAPrefix :
    (events [.commandCutByReset 0x44000000#32 [(0x0100#16, 0x55#8)] 3] start).Accepts ∧ decode 0x44000000#32 = .ok .trigSvc ∧
      ∃ t, exec .trigSvc { writtenDuring [(0x0100#16, 0x55#8)] start with busy := true } = .next t :=
  ⟨⟨rfl, rfl⟩, rfl, _, rfl⟩

/-- The one within the bound (`k = n`), and `n + 1` zeros. -/
theorem witness_PollFollowsTheAnswers :
    (2 ≤ 2 ∧ (answers [false, false, true]).answers = List.replicate 2 false ++ true :: []) ∧
      (answers [false, false, false, true]).answers = List.replicate (2 + 1) false ++ [true] := by decide

theorem witness_BusStartRequestsAndPolls : (bound 0#24 start).bto.valid = true := rfl
theorem witness_BusAddrReadsStatusOnSuccess : (bound 1#24 start).bto.valid = true := rfl
theorem witness_BusByteWaitsThenWrites : (bound 5#24 start).bto.valid = true := rfl
theorem witness_BusBurstSendsOperandBytes : (bound 0xFFFFFF#24 start).bto.valid = true := rfl

theorem witness_UnsetBoundEndsInUsage :
    start.bto.valid = false ∧ Instr.init.op ∈ [Op.busStart, .busAddr, .busByte, .busBurst, .init, .flush, .moveR, .moveL] ∧
      (queued [.left] start).bto.valid = false ∧ (queued [.left] start).tq = .left :: [] := by decide

theorem witness_OriginalWaitsNeverReturnOnADeadFlag :
    (flags dead ready dead ready start).port.start.Dead ∧ (flags dead ready dead ready start).port.txe.Dead :=
  ⟨⟨rfl, rfl⟩, ⟨rfl, rfl⟩⟩

/-- S9: the last pixel is the last bit. -/
theorem witness_EveryFramebufferBitIsOnePixel :
    pixelIndex 127 63 = 1023 ∧ pixelBit 63 = 7 ∧ pixelIndex 0 0 = 0 ∧ pixelBit 0 = 0 := by decide

theorem witness_PixelWritesOneBit :
    128 ≤ (128#8).toNat ∧ 64 ≤ (64#8).toNat ∧ (127#8).toNat < 128 ∧ (63#8).toNat < 64 := by decide

/-- The last row of 'B' in font 0 and of section 1 in sprite 0. -/
theorem witness_AssetRowsAreIndexedAsStated :
    (32 ≤ (0x42#8).toNat ∧ 7 < font0.height.toNat ∧ ((0x42#8).toNat - 32) * font0.height.toNat + 7 < font0.rows.length) ∧
      (7 < sprite0.height.toNat ∧ 1 * sprite0.height.toNat + 7 < sprite0.rows.length) := by decide +kernel

/-- V-CH-4b with V-CH-7b (the cell just fits), V-CH-9 (a wrap), V-CH-4, V-CH-6 and V-CH-7 (the three failures). -/
theorem witness_CharacterIsDrawnWrappedOrFails :
    fontOf start.platform 0#4 = some font0 ∧ fontOf start.platform 1#4 = some font1 ∧
      ((cursor 120#16 56#16 0#16 0#16 1#16 start).cur.x.toNat + font0.width.toNat ≤ 128 ∧
        (cursor 120#16 56#16 0#16 0#16 1#16 start).cur.y.toNat + font0.height.toNat ≤ 64) ∧
      (128 < (120#16).toNat + font1.width.toNat ∧ ((0#16).toNat + font1.height.toNat) * (1#16).toNat + font1.height.toNat ≤ 64) ∧
      128 < (121#16).toNat + font0.width.toNat ∧
      (128 < (120#16).toNat + font1.width.toNat ∧ 64 < ((50#16).toNat + font1.height.toNat) * (1#16).toNat + font1.height.toNat) ∧
      ((0#16).toNat + font0.width.toNat ≤ 128 ∧ 64 < (57#16).toNat + font0.height.toNat) := by decide +kernel

/-- V-ST-2 and V-ST-1: one character drawn, then the terminator or a failing character. -/
theorem witness_StringIsDrawnInOrder :
    fontOf start.platform 0#4 = some font0 ∧ 0x00#8 ∉ [0x42#8] ∧
      (∃ t, CharsDrawn font0 false .white [0x42#8] (beginString start) t) ∧ HoldsBytes start 0x0101#16 [0x42#8, 0x00#8] ∧
      (∃ t, CharsDrawn font0 false .white [0x41#8] (beginString (cursor 120#16 0#16 0#16 0#16 1#16 start)) t ∧
        HoldsBytes (cursor 120#16 0#16 0#16 0#16 1#16 start) 0x0100#16 [0x41#8, 0x42#8] ∧ (writeChar font0 0x42#8 false .white t).isNone = true) := by
  refine ⟨rfl, by decide, ⟨_, .cons (Option.some_get (by decide +kernel)).symm .nil⟩, ?_, ⟨_, .cons (Option.some_get (by decide +kernel)).symm .nil, ?_, by decide +kernel⟩⟩
  · intro i h
    match i, h with
    | 0, _ => exact ⟨rfl, fun _ h => nomatch h⟩
    | 1, _ => exact ⟨rfl, fun _ h => nomatch h⟩
  · intro i h
    match i, h with
    | 0, _ => exact ⟨rfl, fun _ h => nomatch h⟩
    | 1, _ => exact ⟨rfl, fun _ h => nomatch h⟩

theorem opmFull_read (a : BitVec 16) : opmRead opmFull a = 0x41#8 := by
  simp only [opmRead, opmFull, find_map_cells _ _ _ a.isLt, Option.getD_some]

/-- The start state with it. -/
def endless : State := { start with opm := opmFull }

theorem endless_read (a : BitVec 16) : opmRead endless.opm a = 0x41#8 := by
  rw [show endless.opm = opmFull by simp only [endless]]
  exact opmFull_read a

theorem endless_stale : endless.stale = [] := rfl

theorem endless_canRead (a : BitVec 16) (b : Byte) (h : CanRead endless a b) : b ≠ 0x00#8 := by
  unfold CanRead at h
  rw [endless_read, endless_stale] at h
  rcases h with rfl | h
  · decide
  · cases h

/-- No terminator anywhere, in the font of width 0 and height 0: both forms of R192. -/
theorem witness_StringWithoutEndStaysBusy :
    fontOf endless.platform 3#4 = some font3 ∧ (∀ a b, CanRead endless a b → b ≠ 0x00#8) ∧
      (font3.width = 0#8 ∧ endless.cur.x.toNat ≤ 128 ∧ endless.cur.y.toNat + font3.height.toNat ≤ 64) ∧
      (true = true ∧ font3.height = 0#8 ∧ endless.cur.y = 0#16) :=
  ⟨rfl, endless_canRead, ⟨rfl, by decide, by decide⟩, rfl, rfl, rfl⟩

/-- Every character of the empty font is drawn where the cursor stands at (0, 0), and leaves it there. -/
theorem font3_runs (n : Nat) (a : BitVec 16) (s : State) (ho : s.opm = endless.opm) (hs : s.stale = []) (hx : s.cur.x = 0#16)
    (hy : s.cur.y = 0#16) : (writeChars font3 false .white n a s).1 = .goesOn := by
  induction n generalizing a s with
  | zero => rfl
  | succ n ih =>
    have hst : ∀ b, (a, b) ∉ s.stale := by simp [hs]
    unfold writeChars
    rw [operandByte_of_stable hst, afterRead_of_stable hst, show opmRead s.opm a = 0x41#8 by rw [ho]; exact endless_read a]
    rw [if_neg (by decide)]
    have hp : charPlace font3.width.toNat font3.height.toNat false s.cur = some (0, 0, s.cur.wc.toNat) := by
      simp [charPlace, hx, hy, font3]
    simp only [writeChar, hp]
    exact ih _ _ ho hs rfl rfl

theorem endless_goesOn : (writeChars font3 false .white 65536 0#16 (beginString endless)).1 = .goesOn := by
  refine font3_runs _ _ _ ?_ ?_ ?_ ?_
  · rw [beginString_opm]
  · rw [beginString_stale]; rfl
  · rw [beginString_cur]; rfl
  · rw [beginString_cur]; rfl

theorem witness_UnendedStringNeverEnds :
    endless.stale = [] ∧ (writeChars font3 false .white 65536 0#16 (beginString endless)).1 = .goesOn ∧
      ∃ u, exec (.wrStr 0#16 3#4 false .white) endless = .next u ∧ u.busy = true := by
  have hf : fontOf endless.platform 3#4 = some font3 := rfl
  refine ⟨endless_stale, endless_goesOn,
    runString font3 { font := 3#4, wrap := false, color := .white, addr := 0#16 } 65536 (beginString endless), ?_, ?_⟩
  · simp only [exec, execWrStr, hf]
  · exact runString_busy endless_goesOn

/-- The cell just fits, and misses by one pixel either way. -/
theorem witness_ImageIsDrawnOrOnlyRecorded :
    spriteOf start.platform 0#4 = some sprite0 ∧
      ((120#16).toNat + sprite0.width.toNat ≤ 128 ∧ (56#16).toNat + sprite0.height.toNat ≤ 64) ∧
      128 < (121#16).toNat + sprite0.width.toNat ∧ 64 < (57#16).toNat + sprite0.height.toNat := by decide

theorem witness_MissingAssetEndsInUsage :
    fontOf start.platform 15#4 = none ∧ spriteOf start.platform 3#4 = none ∧
      AnimationStep .moveR .right (lastIs 3#4 (bound 0#24 start)) (lastIs 3#4 (bound 0#24 start)) ∧
      (lastIs 3#4 (bound 0#24 start)).last.valid = true ∧
      spriteOf (lastIs 3#4 (bound 0#24 start)).platform (lastIs 3#4 (bound 0#24 start)).last.id = none :=
  ⟨rfl, rfl, .inl ⟨rfl, rfl, rfl⟩, rfl, rfl⟩

/-- V-CH-4 and V-IM-2 report `InsufficientSpace`. -/
theorem witness_FailedDrawingLeavesNoPixel :
    (∃ t, exec (.wrChar 0x41#8 0#4 false .white) (cursor 121#16 0#16 0#16 0#16 1#16 start) = .next t ∧ t.res.noSpace = true) ∧
      ∃ t, exec (.wrImg 0#4 .white) (cursor 121#16 8#16 0#16 0#16 1#16 start) = .next t ∧ t.res.noSpace = true :=
  ⟨⟨_, rfl, by decide +kernel⟩, ⟨_, rfl, by decide +kernel⟩⟩

theorem witness_WriteCommandIsOneTransaction : (Run.begin start.port).stuck = false := rfl
theorem witness_WriteDataSendsOnePage : (Run.begin (flags dead dead dead dead start).port).stuck = false := rfl
theorem witness_FlushSendsEveryPage : (bound 0#24 (flags dead ready ready ready start)).bto.valid = true := rfl

theorem witness_FlushWithAllFlagsReady : (bound 0#24 start).bto.valid = true ∧ (bound 0#24 start).port.AllReady :=
  ⟨rfl, ⟨rfl, rfl⟩, ⟨rfl, rfl⟩, ⟨rfl, rfl⟩, ⟨rfl, rfl⟩⟩

/-- Both outcomes of the command phase: see `test_init` and `test_init_failure`. -/
theorem witness_InitBringsThePanelUp : (bound 0#24 start).bto.valid = true := rfl

/-- A state in which an animation step runs: the bound set, sprite 0 drawn last, an `R` queued. -/
def animated : State := queued [.right] (lastIs 0#4 (bound 0#24 start))

theorem witness_AnimationStepMovesRedrawsFlushes :
    AnimationStep .moveR .right animated animated ∧ AnimationStep .moveL .left animated animated ∧
      AnimationStep .trigSvc .right animated { animated with tq := [] } ∧ animated.bto.valid = true ∧
      animated.last.valid = true ∧ spriteOf animated.platform animated.last.id = some sprite0 :=
  ⟨.inl ⟨rfl, rfl, rfl⟩, .inr (.inl ⟨rfl, rfl, rfl⟩), .inr (.inr ⟨rfl, [], rfl, rfl⟩), rfl, rfl, rfl⟩

theorem witness_AnimationStaysInsideItsRange :
    AnimationStep .moveL .left animated animated ∧ (spriteOf animated.platform animated.last.id).isSome = true ∧
      ∃ t, exec .moveL animated = .next t := ⟨.inr (.inl ⟨rfl, rfl, rfl⟩), rfl, _, rfl⟩

theorem witness_AnimationWithoutSpriteEndsInUsage :
    AnimationStep .moveL .left start start ∧ AnimationStep .trigSvc .left (queued [.left] start) (queued [] start) ∧
      start.last.valid = false := by
  refine ⟨.inr (.inl ⟨rfl, rfl, rfl⟩), .inr (.inr ⟨rfl, [], rfl, ?_⟩), rfl⟩
  simp only [queued]

theorem witness_SequencerSamplesAreBounded :
    animated.bto.valid = true ∧ Instr.trigSvc.op ∈ [Op.flush, .moveR, .moveL, .trigSvc] ∧ Instr.init.op = .init := by decide

theorem witness_TriggerServiceIsTheMoveOfItsEntry :
    start.tq = [] ∧ (queued [.right] start).tq = .right :: [] ∧ (queued [.left, .right] start).tq = .left :: [.right] :=
  ⟨rfl, rfl, rfl⟩

/-- One entry below the bound, at the bound, and the enable clear. -/
theorem witness_EdgeIsCapturedOrDropped :
    (events [.edge .left] (queued [.right] start)).inReset = false ∧
      (events [.edge .left] (queued [.right] start)).tq.length < start.platform.queueDepth ∧
      start.platform.queueDepth ≤ (events [.edge .left] (queued [.right, .left] start)).tq.length ∧
      (queued [] start).ten.enL = true ∧ start.ten.enL = false := by decide

theorem witness_EdgesDisturbNoOperation :
    Instr.busStop.op ≠ .trigSvc ∧ Instr.busStop.op ≠ .cfgTrig ∧ ∃ t, exec .busStop (queued [.right] start) = .next t :=
  ⟨by decide, by decide, _, rfl⟩

theorem witness_ReadBackReturnsTheState :
    (events [.readBack 0x7FF] start).inReset = false ∧ (events [.readBack 0x7FF] start).inbox = [.readBack 0x7FF] ∧
      (events [.readBack 0x7FF] start).busy = false ∧ 1023 < 1024 ∧ 0x7FF = 0x400 + 1023 := ⟨rfl, rfl, rfl, by decide, rfl⟩

theorem witness_HostWritesOneOperandByte :
    (events [.opmWrite 0xFFFF#16 0#8] start).inbox = [.opmWrite 0xFFFF#16 0#8] ∧ (∀ b, (0xFFFF#16, b) ∉ start.stale) ∧
      (events [.commandWithWrites 0x14FFFF00#32 [(0xFFFF#16, 0#8)]] start).Accepts ∧
      decode 0x14FFFF00#32 = .ok (.busBurst 0xFFFF#16 1) := ⟨rfl, fun b => by simp [start, State.reset], ⟨rfl, rfl⟩, rfl⟩

theorem witness_OnlyAStringCanStayBusy : Instr.flush.op ≠ .wrStr ∧ ∃ t, exec .flush start = .next t := ⟨by decide, _, rfl⟩

/-- MOVE.R in `animated` ends idle, as the statement's premise asks. -/
theorem witness_ErrorSetsOfOperations : ∃ t, exec .moveR animated = .next t ∧ t.busy = false := ⟨_, rfl, by decide +kernel⟩

theorem witness_CursorRegistersHaveTheirWriters :
    (∃ t, exec .flush start = .next t) ∧
      Op.flush ∉ [Op.curSet, .wrChar, .wrStr, .wrImg, .init, .moveR, .moveL, .trigSvc] := ⟨⟨_, rfl⟩, by decide⟩

theorem witness_BlockStateHasItsWriters :
    (∃ t, exec .busStop start = .next t) ∧
      Op.busStop ∉ [Op.fbFill, .fbPixel, .wrChar, .wrStr, .wrImg, .init, .moveR, .moveL, .trigSvc] := ⟨⟨_, rfl⟩, by decide⟩

theorem witness_DrawingDoesNotTouchThePort :
    (∃ t, exec (.wrImg 0#4 .white) start = .next t) ∧
      Op.wrImg ∈ [Op.fbFill, .fbPixel, .curSet, .wrChar, .wrStr, .wrImg, .cfgTimeout, .cfgTrig] := ⟨⟨_, rfl⟩, by decide⟩

theorem witness_BusLogOnlyGrows : ∃ t, step (presents 0x11000000#32) = .next t := ⟨_, rfl⟩

theorem witness_OperationsDoNotWriteTheEnvironment : ∃ t, exec .moveL animated = .next t := ⟨_, rfl⟩

end Sys2Proof.Tests
end

section
/-! PROOFS. How each operation ends: in what state, with which error set (R155, R158). Each lemma says once what its
operation can do; the writers' tables and the invariant both follow from these. -/

namespace Sys2Proof.Machine

/-! ## Legal error sets (R158) -/

theorem legal_usage : ({ usage := true } : Res).Legal := by simp [Res.Legal]

theorem legal_initFail : initFailRes.Legal := by simp [Res.Legal, initFailRes]

/-- Without `Usage` and without `InitFailure` every error set is legal (R158). -/
theorem legal_of_plain {r : Res} (hu : r.usage = false) (hi : r.init = false) : r.Legal := by
  simp [Res.Legal, hu, hi]

theorem legal_busRes (b : Bool) : (busRes b).Legal := legal_of_plain rfl rfl

theorem legal_noSpaceRes (b : Byte) : (noSpaceRes b).Legal := legal_of_plain rfl rfl

/-! ## The operations of the bus and the sequencer (R92 to R133) -/

/-- `u` is `s` ended with a legal result after some traffic on the port. -/
def EndsOnPort (s u : State) : Prop := ∃ r p, r.Legal ∧ u = finish r { s with port := p }

theorem endsOnPort_usage (s : State) : EndsOnPort s (finishUsage s) := ⟨_, s.port, legal_usage, rfl⟩

/-- A bus operation whose procedure returns writes the port and `RES` (R98, R99). -/
theorem busOperation_endsOnPort {f : Nat → Port → Port × PollResult} (hf : ∀ n p, (f n p).2 ≠ .never) (s : State) :
    EndsOnPort s (busOperation f s) := by
  unfold busOperation
  split
  · rw [endBus_of_returns (hf _ _)]
    exact ⟨_, _, legal_busRes _, rfl⟩
  · exact endsOnPort_usage s

/-- The bus operations and FLUSH write the port and `RES`, nothing else (R92 to R99, R129). -/
theorem exec_endsOnPort {i : Instr} {s t : State}
    (hi : i.op ∈ [Op.busStart, .busStop, .busAddr, .busByte, .busBurst, .flush]) (h : exec i s = .next t) :
    EndsOnPort s t := by
  cases i with
  | busStart => obtain rfl := Host.Outcome.next.inj h; exact busOperation_endsOnPort start_ne_never s
  | busStop => obtain rfl := Host.Outcome.next.inj h; exact ⟨_, _, legal_busRes _, rfl⟩
  | busAddr b => obtain rfl := Host.Outcome.next.inj h; exact busOperation_endsOnPort (sendAddress_ne_never b) s
  | busByte b => obtain rfl := Host.Outcome.next.inj h; exact busOperation_endsOnPort (sendByte_ne_never b) s
  | busBurst a n =>
    obtain rfl := Host.Outcome.next.inj h
    exact busOperation_endsOnPort (fun t => sendBurst_ne_never t _) s
  | flush =>
    obtain rfl := Host.Outcome.next.inj h
    split
    · exact ⟨_, _, legal_busRes _, endRun_of_returns (flushPages_stuck _ _ rfl) _ _⟩
    · exact endsOnPort_usage s
  | fbFill | fbPixel | curSet | wrChar | wrStr | wrImg | init | moveR | moveL | trigSvc | cfgTimeout | cfgTrig =>
    simp [Instr.op] at hi

/-- INIT writes the port and `RES`, and after a good command phase also clears `FB` and homes the cursor (R128). -/
theorem initPanel_cases (n : Nat) (s : State) :
    EndsOnPort s (initPanel n s) ∨
      EndsOnPort { s with fb := fillFrame .black, cur := homeCursor s.cur } (initPanel n s) := by
  have hc : (initCommands n (Run.begin s.port)).stuck = false := initCommands_stuck n rfl
  have hf (p : Port) : (flushPages n (fillFrame .black) (Run.begin p)).stuck = false := flushPages_stuck n _ rfl
  simp only [initPanel, hc, hf, Bool.false_eq_true, if_false]
  split
  · exact .inl ⟨_, _, legal_initFail, rfl⟩
  · refine .inr ⟨_, _, ?_, by with_reducible rfl⟩
    split
    · exact legal_initFail
    · exact legal_of_plain rfl rfl

theorem execInit_cases {s t : State} (h : execInit s = .next t) :
    EndsOnPort s t ∨ EndsOnPort { s with fb := fillFrame .black, cur := homeCursor s.cur } t := by
  obtain rfl := Host.Outcome.next.inj h
  split
  · exact initPanel_cases _ s
  · exact .inl (endsOnPort_usage s)

/-- The state an animation step redraws the sprite in: `Cur.x` moved, `FB` cleared (R130). -/
def movedTo (x : BitVec 16) (s : State) : State := { s with cur := { s.cur with x := x }, fb := fillFrame .black }

@[simp] theorem movedTo_platform (x : BitVec 16) (s : State) : (movedTo x s).platform = s.platform := by
  simp only [movedTo]
@[simp] theorem movedTo_running (x : BitVec 16) (s : State) : (movedTo x s).running = s.running := by
  simp only [movedTo]

/-- An animation step is refused with `Usage`, or it redraws the installed last sprite at a moved `Cur.x` and then
writes the port and `RES` (R130, R158). -/
theorem moveSprite_cases (dir : Trigger) (s : State) :
    EndsOnPort s (moveSprite dir s) ∨
      ∃ sp x, spriteOf s.platform s.last.id = some sp ∧
        EndsOnPort (writeImg s.last.id sp .white (movedTo x s)).1 (moveSprite dir s) := by
  unfold moveSprite
  split
  · exact .inl (endsOnPort_usage s)
  · split
    · exact .inl (endsOnPort_usage s)
    · split
      · exact .inl (endsOnPort_usage s)
      · rename_i sp hsp
        exact .inr ⟨sp, trunc16 (moveTarget s.platform dir s.cur.xInit), hsp, _, _, legal_of_plain rfl rfl,
          endRun_of_returns (flushPages_stuck _ _ rfl) _ _⟩

theorem execTrigSvc_cases {s t : State} (h : execTrigSvc s = .next t) :
    (s.tq = [] ∧ t = finish {} s) ∨ ∃ e q, s.tq = e :: q ∧ t = moveSprite e { s with tq := q } := by
  obtain rfl := Host.Outcome.next.inj h
  split
  · exact .inl ⟨‹_›, rfl⟩
  · exact .inr ⟨_, _, ‹_›, rfl⟩

/-! ## The drawing operations (R114 to R116) -/

theorem execWrChar_cases {ch : BitVec 8} {font : BitVec 4} {wrap : Bool} {c : Color} {s t : State}
    (h : execWrChar ch font wrap c s = .next t) :
    (∃ r, r.Legal ∧ t = finish r s) ∨
      ∃ f u r, r.Legal ∧ writeChar f ch wrap c s = some u ∧ t = finish r u := by
  obtain rfl := Host.Outcome.next.inj h
  split
  · exact .inl ⟨_, legal_usage, rfl⟩
  · split
    · exact .inl ⟨_, legal_noSpaceRes _, rfl⟩
    · exact .inr ⟨_, _, _, legal_of_plain rfl rfl, ‹_›, rfl⟩

theorem execWrStr_cases {addr : BitVec 16} {font : BitVec 4} {wrap : Bool} {c : Color} {s t : State}
    (h : execWrStr addr font wrap c s = .next t) :
    t = finishUsage s ∨
      ∃ f r, fontOf s.platform r.font = some f ∧ t = runString f r Config.opmBytes (beginString s) := by
  obtain rfl := Host.Outcome.next.inj h
  split
  · exact .inl rfl
  · exact .inr ⟨_, { font := font, wrap := wrap, color := c, addr := addr }, ‹_›, rfl⟩

theorem execWrImg_cases {k : BitVec 4} {c : Color} {s t : State} (h : execWrImg k c s = .next t) :
    t = finishUsage s ∨
      ∃ sp r, r.Legal ∧ spriteOf s.platform k = some sp ∧ t = finish r (writeImg k sp c s).1 := by
  obtain rfl := Host.Outcome.next.inj h
  split
  · exact .inl rfl
  · refine .inr ⟨_, _, ?_, ‹_›, rfl⟩
    split
    · exact legal_noSpaceRes _
    · exact legal_of_plain rfl rfl

/-- A string, ended or going on, writes what its characters write, `RES`, `busy` and its position (R115, R192). -/
theorem runString_frame (f : Font) (r : StringRun) (n : Nat) (s : State) :
    runString f r n s = { s with
      fb := (runString f r n s).fb
      cur := { s.cur with
        x := (runString f r n s).cur.x, y := (runString f r n s).cur.y, wc := (runString f r n s).cur.wc }
      res := (runString f r n s).res, busy := (runString f r n s).busy, running := (runString f r n s).running
      draws := (runString f r n s).draws } := by
  have e := writeChars_frame f r.wrap r.color n r.addr s
  rcases runString_cases f r n s with ⟨-, res, hs, -⟩ | ⟨-, hs⟩
  · rw [hs, e]; rfl
  · rw [hs, e]

/-! ## Which registers an operation may write (R14 to R26) -/

/-- `s` with the registers that an operation of the row may write taken from `t`. -/
def writtenBy (o : Op) (s t : State) : State :=
  match o with
  | .busStart | .busStop | .busAddr | .busByte | .busBurst | .flush =>
    { s with res := t.res, busy := t.busy, port := t.port }
  | .fbFill | .fbPixel => { s with res := t.res, busy := t.busy, fb := t.fb }
  | .curSet => { s with res := t.res, busy := t.busy, cur := { s.cur with x := t.cur.x, y := t.cur.y } }
  | .wrChar => { s with
      res := t.res, busy := t.busy, fb := t.fb, draws := t.draws
      cur := { s.cur with x := t.cur.x, y := t.cur.y, wc := t.cur.wc } }
  | .wrStr => { s with
      res := t.res, busy := t.busy, fb := t.fb, draws := t.draws, running := t.running, cur := t.cur }
  | .wrImg => { s with
      res := t.res, busy := t.busy, fb := t.fb, draws := t.draws, last := t.last
      cur := { s.cur with x := t.cur.x, xInit := t.cur.xInit, yInit := t.cur.yInit } }
  | .init => { s with
      res := t.res, busy := t.busy, fb := t.fb, port := t.port
      cur := { s.cur with x := t.cur.x, y := t.cur.y } }
  | .moveR | .moveL => { s with
      res := t.res, busy := t.busy, fb := t.fb, port := t.port, draws := t.draws, last := t.last
      cur := { s.cur with x := t.cur.x, xInit := t.cur.xInit, yInit := t.cur.yInit } }
  | .trigSvc => { s with
      res := t.res, busy := t.busy, fb := t.fb, port := t.port, draws := t.draws, last := t.last, tq := t.tq
      cur := { s.cur with x := t.cur.x, xInit := t.cur.xInit, yInit := t.cur.yInit } }
  | .cfgTimeout => { s with res := t.res, busy := t.busy, bto := t.bto }
  | .cfgTrig => { s with res := t.res, busy := t.busy, ten := t.ten, tq := t.tq, tqOvf := t.tqOvf }

theorem EndsOnPort.written {s t : State} (h : EndsOnPort s t) :
    t = { s with res := t.res, busy := t.busy, port := t.port } := by
  obtain ⟨r, p, -, rfl⟩ := h
  rfl

/-- What an animation step writes. -/
theorem moveSprite_written (dir : Trigger) (s : State) :
    moveSprite dir s = writtenBy .moveR s (moveSprite dir s) := by
  rcases moveSprite_cases dir s with h | ⟨sp, x, -, h⟩
  · rw [h.written]; rfl
  · rw [h.written, writeImg_frame]
    simp only [writtenBy, movedTo]

/-- An operation writes no register but those of its row. -/
theorem exec_written {i : Instr} {s t : State} (h : exec i s = .next t) : t = writtenBy i.op s t := by
  cases i with
  | busStart | busStop | busAddr b | busByte b | busBurst a n | flush =>
    exact (exec_endsOnPort (by simp [Instr.op]) h).written
  | fbFill c | fbPixel x y c | curSet x y | cfgTimeout v | cfgTrig r l q =>
    obtain rfl := Host.Outcome.next.inj h
    simp only [writtenBy, Instr.op, finish]
  | wrChar ch font wrap c =>
    rcases execWrChar_cases h with ⟨r, -, rfl⟩ | ⟨f, u, r, -, hu, rfl⟩
    · rfl
    · rw [writeChar_frame hu]; rfl
  | wrStr a font wrap c =>
    rcases execWrStr_cases h with rfl | ⟨f, r, -, rfl⟩
    · rfl
    · rw [runString_frame]; rfl
  | wrImg k c =>
    rcases execWrImg_cases h with rfl | ⟨sp, r, -, -, rfl⟩
    · rfl
    · rw [writeImg_frame]; rfl
  | init =>
    rcases execInit_cases h with h | h
    · rw [h.written]; rfl
    · rw [h.written]; simp only [writtenBy, Instr.op, homeCursor]
  | moveR => obtain rfl := Host.Outcome.next.inj h; exact moveSprite_written .right s
  | moveL => obtain rfl := Host.Outcome.next.inj h; exact moveSprite_written .left s
  | trigSvc =>
    rcases execTrigSvc_cases h with ⟨-, rfl⟩ | ⟨e, q, -, rfl⟩
    · rfl
    · rw [moveSprite_written]; rfl

end Sys2Proof.Machine
end

section
/-! PROOFS. The writers of the block's state (R14 to R26), read off the table `writtenBy`. -/

namespace Sys2Proof.Machine

theorem writtenBy_stale (o : Op) (s t : State) : (writtenBy o s t).stale = s.stale := by cases o <;> rfl

/-- No operation forgets or adds earlier values of operand bytes (R59). -/
theorem exec_stale {i : Instr} {s t : State} (h : exec i s = .next t) : t.stale = s.stale := by
  rw [exec_written h, writtenBy_stale]

/-- Settles O56: the columns of `writtenBy` for the cursor registers. -/
theorem cursorRegistersHaveTheirWriters : Obligations.CursorRegistersHaveTheirWriters := by
  intro i s t h
  rw [exec_written h]
  cases i.op <;> simp [writtenBy]

/-- Settles O57: the columns of `writtenBy` for the rest of the block. -/
theorem blockStateHasItsWriters : Obligations.BlockStateHasItsWriters := by
  intro i s t h
  rw [exec_written h]
  cases i.op <;> simp [writtenBy]

/-- Settles O60: no row of `writtenBy` has a column for the environment. -/
theorem operationsDoNotWriteTheEnvironment : Obligations.OperationsDoNotWriteTheEnvironment := by
  intro i s t h
  rw [exec_written h]
  cases i.op <;> simp [writtenBy]

end Sys2Proof.Machine
end

section
/-! PROOFS. The invariant of the machine (R14, R19, R23, R48, R121, R158): the part of it that holds also inside an
operation, the part an operation's end restores, and the part the end of operand reads restores. -/

namespace Sys2Proof.Machine

/-- The clauses of the invariant that hold also while an operation runs. -/
structure State.Form (s : State) : Prop where
  fbForm : s.fb.wf .fb = true
  opmForm : s.opm.wf .opm = true
  queueBound : s.tq.length ≤ s.platform.queueDepth
  yBound : s.cur.y.toNat < 256
  yInitBound : s.cur.yInit.toNat < 256
  lastInstalled : s.last.valid = true → (spriteOf s.platform s.last.id).isSome = true

/-- The invariant but for the earlier values of operand bytes: what the end of an operation gives. -/
structure State.Ended (s : State) : Prop extends s.Form where
  resLegal : s.res.Legal
  busyRuns : s.busy = s.running.isSome
  runningInstalled : ∀ r, s.running = some r → (fontOf s.platform r.font).isSome = true

theorem State.Inv.ended {s : State} (h : s.Inv) : s.Ended :=
  { h with }

theorem State.Ended.inv {s : State} (h : s.Ended) (hs : s.busy = false → s.stale = []) : s.Inv :=
  { h with idleSettled := hs }

theorem State.Inv.withInbox {s : State} (h : s.Inv) (es : List HostEvent) : State.Inv { s with inbox := es } :=
  { h with }

/-! ## Ends of operations -/

theorem State.Form.withPort {s : State} (h : s.Form) (p : Port) : State.Form { s with port := p } := { h with }

theorem State.Form.withBusy {s : State} (h : s.Form) : State.Form { s with busy := true } := { h with }

theorem State.Form.withFrame {s : State} {m : Memory} {c : Cursor} (h : s.Form) (hm : m.wf .fb = true)
    (hy : c.y.toNat < 256) (hyInit : c.yInit.toNat < 256) : State.Form { s with fb := m, cur := c } :=
  { h with fbForm := hm, yBound := hy, yInitBound := hyInit }

theorem ended_of_finish {s : State} {r : Res} (h : s.Form) (hr : s.running = none) (hl : r.Legal) : (finish r s).Ended :=
  { h with resLegal := hl, busyRuns := by simp [hr], runningInstalled := by simp [hr] }

theorem ended_of_finishUsage {s : State} (h : s.Form) (hr : s.running = none) : (finishUsage s).Ended :=
  ended_of_finish h hr legal_usage

theorem EndsOnPort.ended {s t : State} (h : EndsOnPort s t) (hs : s.Form) (hr : s.running = none) : t.Ended := by
  obtain ⟨r, p, hl, rfl⟩ := h
  exact ended_of_finish (hs.withPort p) hr hl

/-! ## Drawing (R114 to R116) -/

/-- A drawn character's vertical position fits the panel (R121). -/
theorem writeChar_y {f : Font} {ch : Byte} {wrap : Bool} {c : Color} {s u : State}
    (h : writeChar f ch wrap c s = some u) : u.cur.y.toNat ≤ 64 := by
  unfold writeChar at h
  split at h
  · cases h
  · rename_i xn yn wcn hp
    have := charPlace_bound hp
    cases h
    simp only [trunc16, BitVec.toNat_ofNat]
    omega

theorem writeChar_form {f : Font} {ch : Byte} {wrap : Bool} {c : Color} {s u : State} (hs : s.Form)
    (h : writeChar f ch wrap c s = some u) : u.Form := by
  have hy := writeChar_y h
  have hw := writeChar_wf hs.fbForm h
  rw [writeChar_frame h]
  exact { hs with fbForm := hw, yBound := by simp only; omega }

theorem afterRead_form {s : State} (hs : s.Form) (a : BitVec 16) : (afterRead a s).Form := by
  rw [afterRead_frame]
  exact { hs with }

theorem writeChars_form (f : Font) (wrap : Bool) (c : Color) (n : Nat) (a : BitVec 16) {s : State} (hs : s.Form) :
    (writeChars f wrap c n a s).2.Form := by
  induction n generalizing a s with
  | zero => exact hs
  | succ n ih =>
    unfold writeChars
    split
    · exact afterRead_form hs a
    · split
      · exact afterRead_form hs a
      · exact ih _ (writeChar_form (afterRead_form hs a) ‹_›)

theorem beginString_form {s : State} (hs : s.Form) : (beginString s).Form :=
  { hs with yInitBound := hs.yBound }

/-- A string ends, or stays in progress with `RES` as it was (R115, R192). -/
theorem runString_ended {f : Font} {r : StringRun} {n : Nat} {s : State} (hs : s.Form) (hl : s.res.Legal)
    (hr : s.running = none) (hf : fontOf s.platform r.font = some f) : (runString f r n s).Ended := by
  have form := writeChars_form f r.wrap r.color n r.addr hs
  have frame := writeChars_frame f r.wrap r.color n r.addr s
  rcases runString_cases f r n s with ⟨-, res, e, hres⟩ | ⟨-, e⟩
  · rw [e]
    refine ended_of_finish form (by rw [frame]; exact hr) ?_
    rcases hres with rfl | ⟨ch, rfl⟩
    · exact legal_of_plain rfl rfl
    · exact legal_noSpaceRes ch
  · rw [e]
    refine { form with resLegal := ?_, busyRuns := rfl, runningInstalled := ?_ }
    · rw [frame]; exact hl
    · rintro _ ⟨rfl⟩
      rw [frame]
      simp [hf]

theorem writeImg_form {k : BitVec 4} {sp : Sprite} {s : State} (hs : s.Form) (hk : spriteOf s.platform k = some sp)
    (c : Color) : (writeImg k sp c s).1.Form := by
  have hw := writeImg_wf k sp c hs.fbForm
  rw [writeImg_frame]
  exact { hs with fbForm := hw, yInitBound := hs.yBound, lastInstalled := fun _ => by simp [hk] }

/-! ## Every operation (R66) -/

theorem movedTo_form {s : State} (hs : s.Form) (x : BitVec 16) : (movedTo x s).Form := by
  unfold movedTo
  exact hs.withFrame (fillFrame_wf _) hs.yBound hs.yInitBound

theorem moveSprite_ended (dir : Trigger) {s : State} (hs : s.Form) (hr : s.running = none) :
    (moveSprite dir s).Ended := by
  rcases moveSprite_cases dir s with h | ⟨sp, x, hsp, h⟩
  · exact h.ended hs hr
  · refine h.ended (writeImg_form (movedTo_form hs x) (by simpa using hsp) _) ?_
    rw [writeImg_frame]
    simpa using hr

/-- Every operation brings a state with no string in progress to an end of an operation. -/
theorem exec_ended {i : Instr} {s t : State} (hs : s.Form) (hl : s.res.Legal) (hr : s.running = none)
    (h : exec i s = .next t) : t.Ended := by
  have plain : ({} : Res).Legal := legal_of_plain rfl rfl
  cases i with
  | busStart | busStop | busAddr b | busByte b | busBurst a n | flush =>
    exact (exec_endsOnPort (by simp [Instr.op]) h).ended hs hr
  | fbFill c =>
    obtain rfl := Host.Outcome.next.inj h
    exact ended_of_finish (hs.withFrame (fillFrame_wf c) hs.yBound hs.yInitBound) hr plain
  | fbPixel x y c =>
    obtain rfl := Host.Outcome.next.inj h
    exact ended_of_finish (hs.withFrame (drawPixel_wf hs.fbForm _ _ c) hs.yBound hs.yInitBound) hr plain
  | curSet x y =>
    obtain rfl := Host.Outcome.next.inj h
    refine ended_of_finish (hs.withFrame hs.fbForm ?_ hs.yInitBound) hr plain
    have := y.isLt
    simp only [BitVec.toNat_setWidth]
    omega
  | wrChar ch font wrap c =>
    rcases execWrChar_cases h with ⟨r, hlr, rfl⟩ | ⟨f, u, r, hlr, hu, rfl⟩
    · exact ended_of_finish hs hr hlr
    · exact ended_of_finish (writeChar_form hs hu) (by rw [writeChar_frame hu]; exact hr) hlr
  | wrStr a font wrap c =>
    rcases execWrStr_cases h with rfl | ⟨f, r, hf, rfl⟩
    · exact ended_of_finishUsage hs hr
    · exact runString_ended (beginString_form hs) hl hr hf
  | wrImg k c =>
    rcases execWrImg_cases h with rfl | ⟨sp, r, hlr, hk, rfl⟩
    · exact ended_of_finishUsage hs hr
    · exact ended_of_finish (writeImg_form hs hk c) (by rw [writeImg_frame]; exact hr) hlr
  | init =>
    rcases execInit_cases h with h | h
    · exact h.ended hs hr
    · exact h.ended (hs.withFrame (fillFrame_wf _) (by simp [homeCursor]) hs.yInitBound) hr
  | moveR => obtain rfl := Host.Outcome.next.inj h; exact moveSprite_ended .right hs hr
  | moveL => obtain rfl := Host.Outcome.next.inj h; exact moveSprite_ended .left hs hr
  | trigSvc =>
    rcases execTrigSvc_cases h with ⟨-, rfl⟩ | ⟨e, q, hq, rfl⟩
    · exact ended_of_finish hs hr plain
    · refine moveSprite_ended e { hs with queueBound := ?_ } hr
      have := hs.queueBound
      simp only [hq, List.length_cons] at this ⊢
      omega
  | cfgTimeout v => obtain rfl := Host.Outcome.next.inj h; exact ended_of_finish { hs with } hr plain
  | cfgTrig r l q =>
    obtain rfl := Host.Outcome.next.inj h
    refine ended_of_finish { hs with queueBound := ?_ } hr plain
    cases q
    · exact hs.queueBound
    · exact Nat.zero_le _

/-! ## Events (R31, R48, R63, R67, R160, R176, R192) -/

/-- A presented word is dropped, or it runs on an idle block and keeps the earlier values of operand bytes (R63, R67,
R181). -/
theorem presentWord_ended {w : Word} {s t : State} (hs : s.Ended) (h : presentWord w s = .next t) :
    t.Ended ∧ (t = s ∨ s.busy = false ∧ t.stale = s.stale) := by
  unfold presentWord at h
  split at h
  · cases h
    exact ⟨hs, .inl rfl⟩
  · rename_i hb
    have idle : s.busy = false := by simp_all
    have hr : s.running = none := by simpa [idle] using hs.busyRuns
    unfold runWord at h
    split at h
    · have stale := exec_stale h
      exact ⟨exec_ended hs.toForm.withBusy hs.resLegal hr h, .inr ⟨idle, stale⟩⟩
    · cases h
      exact ⟨ended_of_finishUsage { hs.toForm with } hr, .inr ⟨idle, rfl⟩⟩

theorem presentWord_inv {w : Word} {s t : State} (hs : s.Inv) (h : presentWord w s = .next t) : t.Inv := by
  obtain ⟨ht, rfl | ⟨idle, stale⟩⟩ := presentWord_ended hs.ended h
  · exact hs
  · exact ht.inv fun _ => stale.trans (hs.idleSettled idle)

theorem settle_inv {s : State} (hs : s.Ended) : (settle s).Inv := by
  unfold settle
  split
  · exact hs.inv (by simp_all)
  · exact State.Ended.inv { hs with } fun _ => rfl

theorem writtenDuring_ended (ws : List (BitVec 16 × Byte)) {s : State} (hs : s.Ended) : (writtenDuring ws s).Ended := by
  have hw := writtenDuring_wf ws hs.opmForm
  rw [writtenDuring_frame]
  exact { hs with opmForm := hw }

theorem setReset_inv (asserted : Bool) {s : State} (h : s.opm.wf .opm = true) : (setReset asserted s).Inv where
  fbForm := setReset_wf asserted s
  opmForm := by simpa [setReset] using h
  queueBound := by simp [setReset]
  yBound := by simp [setReset]
  yInitBound := by simp [setReset]
  lastInstalled := by simp [setReset]
  resLegal := by simp [setReset, Res.Legal]
  busyRuns := by simp [setReset]
  runningInstalled := by simp [setReset]
  idleSettled := by simp [setReset]

theorem captureEdge_inv (e : Trigger) {s : State} (hs : s.Inv) : (captureEdge e s).Inv := by
  have hq := captureEdge_queue e hs.queueBound
  rw [captureEdge_frame]
  exact { hs with queueBound := hq }

theorem changeOperand_inv (a : BitVec 16) (b : Byte) {s : State} (hs : s.Inv) : (changeOperand a b s).Inv := by
  unfold changeOperand
  split
  · exact { hs with opmForm := opmWrite_wf hs.opmForm a b, idleSettled := by simp_all }
  · exact { hs with opmForm := opmWrite_wf hs.opmForm a b }

theorem recordRead_inv (a : Nat) {s : State} (hs : s.Inv) : (recordRead a s).Inv := by
  unfold recordRead
  exact { hs with }

/-- A string in progress goes on in its installed font (R192). -/
theorem continueString_ended (n : Nat) {s : State} (hs : s.Ended) : (continueString n s).Ended := by
  unfold continueString
  split
  · exact hs
  · split
    · exact hs
    · exact runString_ended { hs.toForm with } hs.resLegal rfl ‹_›

theorem handle_inv {e : HostEvent} {s t : State} (hs : s.Inv) (h : handle e s = .next t) : t.Inv := by
  cases e with
  | command w => exact presentWord_inv hs h
  | edge e => obtain rfl := Host.Outcome.next.inj h; exact captureEdge_inv e hs
  | opmWrite a b => obtain rfl := Host.Outcome.next.inj h; exact changeOperand_inv a b hs
  | readBack a => obtain rfl := Host.Outcome.next.inj h; exact recordRead_inv a hs
  | reset level => obtain rfl := Host.Outcome.next.inj h; exact setReset_inv level hs.opmForm
  | commandWithWrites w ws =>
    simp only [handle, presentWordWithWrites] at h
    split at h
    · obtain rfl := Host.Outcome.next.inj h
      exact settle_inv (presentWord_ended (writtenDuring_ended ws hs.ended) ‹_›).1
    · cases h
    · cases h
  | commandCutByReset w ws k =>
    simp only [handle, presentWordThenReset] at h
    split at h
    · obtain rfl := Host.Outcome.next.inj h
      exact setReset_inv true (writtenDuring_wf ws hs.opmForm)
    · cases h
    · cases h
  | pass n => obtain rfl := Host.Outcome.next.inj h; exact settle_inv (continueString_ended n hs.ended)

/-- Settles O10: an event takes a state of the invariant to one, whatever operation it runs. -/
theorem everyStepKeepsTheInvariant : Obligations.EveryStepKeepsTheInvariant := by
  intro s t hs h
  cases hi : s.inbox with
  | nil =>
    rw [step_of_no_event hi] at h
    obtain rfl := Host.Outcome.next.inj h
    exact hs
  | cons e rest =>
    rw [step_of_event hi] at h
    exact handle_inv (State.Inv.withInbox hs rest) h

/-- Settles O9: the framebuffer of a reset is in canonical form, the other clauses are about its fixed values. -/
theorem resetMeetsTheInvariant : Obligations.ResetMeetsTheInvariant where
  fbForm := by simp only [State.reset, fbReset_wf]
  opmForm := by decide
  queueBound := Nat.zero_le _
  yBound := by decide
  yInitBound := by decide
  lastInstalled := nofun
  resLegal := legal_of_plain rfl rfl
  busyRuns := rfl
  runningInstalled := nofun
  idleSettled := fun _ => rfl

end Sys2Proof.Machine
end

section
/-! PROOFS. The reset values (R33) and what the host reads (R25, R26, R31). -/

namespace Sys2Proof.Machine

/-- Settles O11: all but the bytes of `FB` by definition. -/
theorem resetValues : Obligations.ResetValues := by
  refine ⟨rfl, rfl, rfl, rfl, rfl, rfl, rfl, rfl, rfl, rfl, rfl, rfl, rfl, fun i hi => ?_, rfl, rfl⟩
  simp only [State.reset]
  exact fbRead_fbReset 0 hi

/-! ## Bits of the words the host reads (R25, R26) -/

/-- A flag set below the other bits of a word. -/
theorem getLsbD_append_ofBool {n : Nat} (x : BitVec n) (b : Bool) (i : Nat) :
    (x ++ BitVec.ofBool b).getLsbD i = if i = 0 then b else x.getLsbD (i - 1) := by
  rw [BitVec.getLsbD_append]
  cases i <;> simp

/-- Settles O50: `ret` below bit 8, one flag at each of bits 8 to 12, zeros above. -/
theorem resultWordBits : Obligations.ResultWordBits := by
  intro r i
  simp only [Res.toWord, Res.fail, BitVec.getLsbD_append (m := 8), getLsbD_append_ofBool, BitVec.getLsbD_zero]
  split
  · rfl
  · obtain ⟨k, rfl⟩ := Nat.exists_eq_add_of_le (Nat.le_of_not_lt ‹_›)
    match k with
    | 0 | 1 | 2 | 3 | 4 => rfl
    | k + 5 =>
      have above (n : Nat) (hn : n < 13) : 8 + (k + 5) ≠ n := by omega
      simp [above]

/-- Settles O51: one flag at each of bits 0 to 4, zeros at 5 to 7, the saturated count at 8 to 15, zeros above. -/
theorem statusWordBits : Obligations.StatusWordBits := by
  intro s i
  simp only [statWord, getLsbD_append_ofBool, BitVec.getLsbD_append (m := 3), BitVec.getLsbD_append (m := 8),
    BitVec.getLsbD_ofNat]
  match i with
  | 0 | 2 | 3 | 4 => rfl
  | 1 => cases s.tq <;> rfl
  | 5 | 6 | 7 => rfl
  | i + 8 =>
    by_cases h : i < 8
    · have : i + 8 < 16 := by omega
      simp [h, this]
    · have : ¬ i + 8 < 16 := by omega
      simp [h, this]

/-! ## The read-back port (R21, R22, R31) -/

theorem btoWord_toNat (b : Bto) : (btoWord b).toNat = b.value.toNat := by
  rw [btoWord, BitVec.toNat_append]
  simp

theorem lastWord_toNat (l : LastSprite) : (lastWord l).toNat = 256 * l.valid.toNat + l.id.toNat := by
  obtain ⟨v, k⟩ := l
  have h : (0#23 ++ BitVec.ofBool v ++ 0#4).toNat = 16 * v.toNat := by cases v <;> rfl
  rw [lastWord, BitVec.toNat_append, h, ← Nat.shiftLeft_add_eq_or_of_lt k.isLt, Nat.shiftLeft_eq]
  simp only
  omega

theorem tenWord_toNat (e : TrigEnable) : (tenWord e).toNat = 2 * e.enL.toNat + e.enR.toNat := by
  obtain ⟨r, l⟩ := e
  cases r <;> cases l <;> rfl

theorem readBack_listed {s : State} {a : Nat} {v : Word} (hr : s.inReset = false) (hb : s.busy = false)
    (h : readBackIdle s a = some v) : readBack s a = v := by
  simp [readBack, hr, hb, h]

theorem readBackIdle_fb (s : State) {i : Nat} (hi : i < Config.fbBytes) :
    readBackIdle s (0x400 + i) = some ((fbRead s.fb i).setWidth 32) := by
  have hn (k : Nat) (hk : k < 0x400) : 0x400 + i ≠ k := by omega
  simp [readBackIdle, hi, hn]

theorem readBack_stat {s : State} (hr : s.inReset = false) : readBack s 0x004 = statWord s := by
  simp [readBack, readBackIdle, hr]

/-- Settles O52: the answer is `readBack`, which ignores the list of pending events. -/
theorem readBackReturnsTheState : Obligations.ReadBackReturnsTheState := by
  intro s a rest hr hi
  refine ⟨_, readBack s a, step_of_event hi, rfl, ?_, fun hb => ?_⟩
  · rintro rfl
    exact readBack_stat hr
  · have listed {v : Word} (h : readBackIdle s a = some v) : readBack s a = v := readBack_listed hr hb h
    refine ⟨?_, ?_, ?_, ?_, ?_, ?_, ?_, ?_, ?_, ?_⟩
    · rintro rfl; exact listed rfl
    · rintro rfl; rw [listed rfl, btoWord_toNat]
    · rintro rfl; rw [listed rfl, tenWord_toNat]
    iterate 5
      · rintro rfl; rw [listed rfl, BitVec.toNat_setWidth_of_le (by decide)]
    · rintro rfl; rw [listed rfl, lastWord_toNat]
    · rintro i hlt rfl
      rw [listed (readBackIdle_fb s hlt), BitVec.toNat_setWidth_of_le (by decide)]

end Sys2Proof.Machine
end

section
/-! PROOFS. The byte memories: pixels of the framebuffer (R41), rows of the assets (R45, R46) and operand memory while
it is read and written (R48, R59). -/

namespace Sys2Proof.Machine

/-! ## Pixels of the framebuffer (R41) -/

/-- The pixel that bit `b` of byte `i` holds: column `i mod 128`, row `b` of page `i div 128` (R41). -/
theorem pixel_of_bit (i : Nat) {b : Nat} (hb : b < 8) :
    pixelIndex (i % 128) (i / 128 * 8 + b) = i ∧ pixelBit (i / 128 * 8 + b) = b := by
  simp only [pixelIndex, pixelBit, Config.W]
  omega

/-- Settles O23: each bit has its pixel by `pixel_of_bit`, and no other by `pixelIndex_inj`. -/
theorem everyFramebufferBitIsOnePixel : Obligations.EveryFramebufferBitIsOnePixel := by
  refine ⟨fun x y hx hy => ?_, fun i b hi hb => ?_⟩
  · exact ⟨rfl, rfl, pixelIndex_lt hx hy, Nat.mod_lt y (by decide), fun m => rfl⟩
  · obtain ⟨hindex, hbit⟩ := pixel_of_bit i hb
    refine ⟨i % 128, i / 128 * 8 + b, by omega, by omega, hindex, hbit, fun x' y' hx' _ hi' hb' => ?_⟩
    exact pixelIndex_inj hx' (by omega) (hi'.trans hindex.symm) (hb'.trans hbit.symm)

/-! ## Rows of the assets (R45, R46) -/

/-- Inside its sequence a row is no free value (R45, R46). -/
theorem assetRow_of_lt {rows : List PixelRow} {k : Nat} (h : k < rows.length) (n : Nat) :
    some (assetRow rows (k : Int) n) = rows[k]? := by
  have : ¬ (k : Int) < 0 := by omega
  simp [assetRow, this, h]

@[simp] theorem glyphRows_length (f : Font) (ch : Byte) (d : Nat) : (glyphRows f ch d).length = f.height.toNat := by
  simp [glyphRows]

@[simp] theorem sectionRows_length (sp : Sprite) (t d : Nat) : (sectionRows sp t d).length = sp.height.toNat := by
  simp [sectionRows]

/-- Row `i` of a glyph is row `(ch - 32) * height + i` of its font (R45). -/
theorem glyphRows_getElem? {f : Font} {ch : Byte} {i : Nat} (d : Nat) (hch : 32 ≤ ch.toNat) (hi : i < f.height.toNat)
    (hrow : (ch.toNat - 32) * f.height.toNat + i < f.rows.length) :
    (glyphRows f ch d)[i]? = f.rows[(ch.toNat - 32) * f.height.toNat + i]? := by
  have cast : ((ch.toNat : Int) - 32) * (f.height.toNat : Int) + (i : Int) =
      ((ch.toNat - 32) * f.height.toNat + i : Nat) := by
    push_cast [hch]
    rfl
  rw [glyphRows, List.getElem?_map, List.getElem?_range hi, Option.map_some, cast, assetRow_of_lt hrow]

/-- Row `i` of section `t` of a sprite is row `t * height + i` of the sprite (R46). -/
theorem sectionRows_getElem? {sp : Sprite} {t i : Nat} (d : Nat) (hi : i < sp.height.toNat)
    (hrow : t * sp.height.toNat + i < sp.rows.length) :
    (sectionRows sp t d)[i]? = sp.rows[t * sp.height.toNat + i]? := by
  rw [sectionRows, List.getElem?_map, List.getElem?_range hi, Option.map_some, assetRow_of_lt hrow]

/-- Settles O28: the two index laws above. -/
theorem assetRowsAreIndexedAsStated : Obligations.AssetRowsAreIndexedAsStated :=
  ⟨fun f ch d _ => ⟨glyphRows_length f ch d, glyphRows_getElem? d⟩,
    fun sp t d _ => ⟨sectionRows_length sp t d, sectionRows_getElem? d⟩⟩

/-! ## Operand memory while it is read and written (R48, R59) -/

theorem mem_staleAt {s : State} {a : BitVec 16} {b : Byte} : b ∈ staleAt s a ↔ (a, b) ∈ s.stale := by
  simp [staleAt]

/-- A read of operand memory returns the byte or a value it has had since the operation began (R59, U8). -/
theorem operandByte_canRead (s : State) (a : BitVec 16) : CanRead s a (operandByte s a) := by
  unfold operandByte
  split
  · exact .inl rfl
  · have inside : Config.freePick s.draws a.toNat % ((staleAt s a).length + 1) <
        (opmRead s.opm a :: staleAt s a).length := Nat.mod_lt _ (Nat.succ_pos _)
    rw [List.getD_eq_getElem _ _ inside]
    exact (List.mem_cons.mp (List.getElem_mem _)).imp id mem_staleAt.mp

/-- What a read may return before a write of operand memory, it may return after it (R59). -/
theorem CanRead.overwrite {s : State} {a : BitVec 16} {v : Byte} (h : CanRead s a v) (c : BitVec 16) (b : Byte) :
    CanRead (overwriteOperand c b s) a v := by
  rcases h with rfl | h
  · by_cases hc : a = c
    · exact .inr (by simp [hc])
    · exact .inl (by simp [opmRead_opmWrite, hc])
  · exact .inr (by simp [h])

/-- The first write made, the others follow (R59). -/
theorem writtenDuring_cons (c : BitVec 16 × Byte) (ws : List (BitVec 16 × Byte)) (s : State) :
    writtenDuring (c :: ws) s = writtenDuring ws (overwriteOperand c.1 c.2 s) := rfl

/-- After several writes a byte is the last one written at its address (R48). -/
theorem opmRead_writtenDuring (ws : List (BitVec 16 × Byte)) (s : State) (a : BitVec 16) :
    opmRead (writtenDuring ws s).opm a = (ws.reverse.lookup a).getD (opmRead s.opm a) := by
  induction ws generalizing s with
  | nil => rfl
  | cons c ws ih =>
    obtain ⟨c, v⟩ := c
    rw [writtenDuring_cons, ih, overwriteOperand_opm, opmRead_opmWrite, List.reverse_cons, List.lookup_append]
    cases ws.reverse.lookup a with
    | some b => rfl
    | none =>
      by_cases hc : a = c
      · simp [hc]
      · simp [List.lookup_cons, beq_false_of_ne hc, hc]

theorem CanRead.writtenDuring {s : State} {a : BitVec 16} {v : Byte} (h : CanRead s a v)
    (ws : List (BitVec 16 × Byte)) : CanRead (writtenDuring ws s) a v := by
  induction ws generalizing s with
  | nil => exact h
  | cons c ws ih =>
    rw [writtenDuring_cons]
    exact ih (h.overwrite c.1 c.2)

/-- An earlier value kept is one the byte had: the first, one of the writes, or one kept before (R59). -/
theorem mem_stale_writtenDuring {ws : List (BitVec 16 × Byte)} {s : State} {a : BitVec 16} {b : Byte}
    (h : (a, b) ∈ (writtenDuring ws s).stale) : b = opmRead s.opm a ∨ (a, b) ∈ ws ∨ (a, b) ∈ s.stale := by
  induction ws generalizing s with
  | nil => exact .inr (.inr h)
  | cons c ws ih =>
    obtain ⟨c, v⟩ := c
    rw [writtenDuring_cons] at h
    rcases ih h with hb | hw | hs
    · rw [overwriteOperand_opm, opmRead_opmWrite] at hb
      split at hb
      · rename_i ha
        exact .inr (.inl (by simp [ha, hb]))
      · exact .inl hb
    · exact .inr (.inl (List.mem_cons_of_mem _ hw))
    · rw [overwriteOperand_stale, List.mem_cons] at hs
      rcases hs with ⟨rfl, rfl⟩ | hs
      · exact .inl rfl
      · exact .inr (.inr hs)

/-- A write of operand memory changes that memory and the values it had, nothing else (R48, R59). -/
theorem changeOperand_frame (a : BitVec 16) (b : Byte) (s : State) :
    changeOperand a b s = { s with opm := (changeOperand a b s).opm, stale := (changeOperand a b s).stale } := by
  unfold changeOperand
  split <;> rfl

/-- The end of operand reads forgets the earlier values of an idle block, nothing else (R59). -/
theorem settle_eq (s : State) : settle s = { s with stale := if s.busy then s.stale else [] } := by
  by_cases h : s.busy = true
  · simp only [settle, if_pos h]
  · simp only [settle, if_neg h]

/-- A block that accepts runs the decoded operation, busy (R63). -/
theorem presentWord_of_accepts {w : Word} {i : Instr} {s : State} (hs : s.Accepts) (hw : decode w = .ok i) :
    presentWord w s = exec i { s with busy := true } := by
  obtain ⟨hb, hr⟩ := hs
  simp [presentWord, runWord, hb, hr, hw]

/-- A step that presents a word with writes runs the operation on the memory they leave, then settles (R59, R63). -/
theorem step_commandWithWrites {s t : State} {w : Word} {ws : List (BitVec 16 × Byte)} {i : Instr}
    {rest : List HostEvent} (hs : s.Accepts) (hi : s.inbox = .commandWithWrites w ws :: rest) (hw : decode w = .ok i)
    (h : exec i { writtenDuring ws { s with inbox := rest } with busy := true } = .next t) :
    step s = .next (settle t) := by
  have accepts : (writtenDuring ws { s with inbox := rest }).Accepts := by
    rw [writtenDuring_frame]
    exact hs
  rw [step_of_event hi]
  simp only [handle, presentWordWithWrites, presentWord_of_accepts accepts hw, h]

/-- Settles O53: one write by `changeOperand`, the reads by `CanRead`, several writes by induction on their list. -/
theorem hostWritesOneOperandByte : Obligations.HostWritesOneOperandByte := by
  refine ⟨fun s a b rest hi => ?_, fun s a => ⟨operandByte_canRead s a, operandByte_of_stable⟩,
    fun s w ws i rest hs hi hw => ?_⟩
  · refine ⟨_, step_of_event hi, ?_, fun i => ?_, changeOperand_stale a b _⟩
    · rw [changeOperand_frame]
    · rw [changeOperand_opm, opmRead_opmWrite]
  · refine ⟨{ writtenDuring ws { s with inbox := rest } with busy := true }, ?_, opmRead_writtenDuring ws _,
      fun a _ => ?_, fun a b => mem_stale_writtenDuring, fun t ht => ?_⟩
    · rw [writtenDuring_frame]
    · exact CanRead.writtenDuring (s := { s with inbox := rest }) (.inl rfl) ws
    · rw [step_commandWithWrites hs hi hw ht, settle_eq]

end Sys2Proof.Machine
end

section
/-! PROOFS. The peripheral port: who touches it (R57, R194), and that its log only grows (R51, R56). -/

namespace Sys2Proof.Machine

/-- Settles O58: the rows of `writtenBy` with no column for the port. -/
theorem drawingDoesNotTouchThePort : Obligations.DrawingDoesNotTouchThePort := by
  intro i s t h
  rw [exec_written h]
  cases i.op <;> simp [writtenBy]

/-! ## Procedures on the port (R90 to R96) -/

theorem emit_grows (e : BusEvent) (p : Port) : p.busLog <+: (emit e p).busLog := by simp

theorem sampled_grows (f : Flag) (p : Port) : p.busLog <+: (p.sampled f).busLog := by simp

theorem statusReads_grows (p : Port) : p.busLog <+: (statusReads p).busLog := by simp [statusReads_busLog]

theorem poll_grows (f : Flag) (n : Nat) (p : Port) : p.busLog <+: (poll f n p).1.busLog := by
  induction n generalizing p with
  | zero => unfold poll; split <;> exact sampled_grows f p
  | succ n ih =>
    unfold poll
    split
    · exact sampled_grows f p
    · exact (sampled_grows f p).trans (ih _)

theorem start_grows (t : Nat) (p : Port) : p.busLog <+: (start false t p).1.busLog :=
  (emit_grows _ p).trans (poll_grows _ t _)

theorem sendAddress_grows (a : Byte) (t : Nat) (p : Port) : p.busLog <+: (sendAddress a t p).1.busLog := by
  have polled := (emit_grows (.txAddr a) p).trans (poll_grows .addr t _)
  unfold sendAddress
  simp only
  split
  · exact polled.trans (statusReads_grows _)
  · exact polled
  · exact polled

theorem sendBurst_grows (ds : List Byte) (t : Nat) (p : Port) : p.busLog <+: (sendBurst false t ds p).1.busLog := by
  induction ds generalizing p with
  | nil => exact poll_grows _ t p
  | cons d ds ih =>
    have polled := poll_grows .txe t p
    unfold sendBurst
    simp only [waitFor_false]
    split
    · exact (polled.trans (emit_grows _ _)).trans (ih _)
    · exact polled
    · exact polled

theorem sendByte_grows (d : Byte) (t : Nat) (p : Port) : p.busLog <+: (sendByte false d t p).1.busLog := by
  rw [sendByte_eq_sendBurst]
  exact sendBurst_grows [d] t p

/-! ## Runs of the sequencer (R126 to R133) -/

/-- `r'` is where a run that stood at `r` may stand later: its bus log has only grown. -/
def Run.GrowsTo (r r' : Run) : Prop := r.port.busLog <+: r'.port.busLog

theorem Run.GrowsTo.refl (r : Run) : r.GrowsTo r := List.prefix_rfl

theorem Run.GrowsTo.trans {r r' r'' : Run} (h : r.GrowsTo r') (h' : r'.GrowsTo r'') : r.GrowsTo r'' :=
  List.IsPrefix.trans h h'

theorem Run.GrowsTo.call {r r' : Run} (h : r.GrowsTo r') {f : Port → Port × PollResult}
    (hf : ∀ p, p.busLog <+: (f p).1.busLog) : r.GrowsTo (r'.call f) := by
  refine h.trans ?_
  unfold Run.call
  split
  · exact .refl r'
  · exact hf r'.port

theorem Run.GrowsTo.stop {r r' : Run} (h : r.GrowsTo r') : r.GrowsTo r'.stop := by
  refine h.trans ?_
  unfold Run.stop
  split
  · exact .refl r'
  · exact emit_grows _ r'.port

theorem Run.GrowsTo.writeCommand {r r' : Run} (h : r.GrowsTo r') (t : Nat) (b : Byte) :
    r.GrowsTo (writeCommand t r' b) :=
  ((((h.call (start_grows t)).call (sendAddress_grows _ t)).call (sendByte_grows _ t)).call (sendByte_grows b t)).stop

theorem Run.GrowsTo.writeData {r r' : Run} (h : r.GrowsTo r') (t : Nat) (m : Memory) (p : Nat) :
    r.GrowsTo (writeData t m r' p) :=
  ((((h.call (start_grows t)).call (sendAddress_grows _ t)).call (sendByte_grows _ t)).call (sendBurst_grows _ t)).stop

theorem Run.GrowsTo.flushPage {r r' : Run} (h : r.GrowsTo r') (t : Nat) (m : Memory) (p : Nat) :
    r.GrowsTo (flushPage t m r' p) :=
  (((h.writeCommand t _).writeCommand t _).writeCommand t _).writeData t m p

theorem foldl_growsTo {α : Type} {f : Run → α → Run} (hf : ∀ (r : Run) a, r.GrowsTo (f r a)) (l : List α) (r : Run) :
    r.GrowsTo (l.foldl f r) := by
  induction l generalizing r with
  | nil => exact .refl r
  | cons a l ih => exact (hf r a).trans (ih _)

theorem flushPages_grows (t : Nat) (m : Memory) (p : Port) :
    p.busLog <+: (flushPages t m (Run.begin p)).port.busLog :=
  foldl_growsTo (fun r p => (Run.GrowsTo.refl r).flushPage t m p) _ (Run.begin p)

theorem initCommands_grows (t : Nat) (p : Port) : p.busLog <+: (initCommands t (Run.begin p)).port.busLog :=
  foldl_growsTo (fun r b => (Run.GrowsTo.refl r).writeCommand t b) _ (Run.begin p)

/-! ## Operations (R92 to R133) -/

theorem busOperation_grows {f : Nat → Port → Port × PollResult} (hf : ∀ n p, p.busLog <+: (f n p).1.busLog)
    (s : State) : s.port.busLog <+: (busOperation f s).port.busLog := by
  unfold busOperation
  split
  · unfold endBus
    split <;> exact hf _ s.port
  · exact List.prefix_rfl

theorem endRun_port (res : Res) (r : Run) (s : State) : (endRun res r s).port = r.port := by
  unfold endRun
  split <;> rfl

theorem initPanel_grows (n : Nat) (s : State) : s.port.busLog <+: (initPanel n s).port.busLog := by
  have commands := initCommands_grows n s.port
  have flushed := commands.trans (flushPages_grows n (fillFrame .black) _)
  unfold initPanel
  simp only
  split
  · simpa only [neverEnds_port] using commands
  · split
    · simpa only [finish_port] using commands
    · split
      · simpa only [neverEnds_port] using flushed
      · simpa only [finish_port] using flushed

theorem moveSprite_grows (dir : Trigger) (s : State) : s.port.busLog <+: (moveSprite dir s).port.busLog := by
  unfold moveSprite
  split
  · exact List.prefix_rfl
  · split
    · exact List.prefix_rfl
    · split
      · exact List.prefix_rfl
      · simp only [animate, endRun_port]
        rw [writeImg_frame]
        exact flushPages_grows _ _ s.port

/-- Every operation only appends to the bus log (R51). -/
theorem exec_grows {i : Instr} {s t : State} (h : exec i s = .next t) : s.port.busLog <+: t.port.busLog := by
  cases i with
  | fbFill | fbPixel | curSet | wrChar | wrStr | wrImg | cfgTimeout | cfgTrig =>
    rw [drawingDoesNotTouchThePort _ s t h (by simp [Instr.op])]
  | busStart => obtain rfl := Host.Outcome.next.inj h; exact busOperation_grows start_grows s
  | busStop => obtain rfl := Host.Outcome.next.inj h; exact emit_grows _ s.port
  | busAddr b => obtain rfl := Host.Outcome.next.inj h; exact busOperation_grows (sendAddress_grows b) s
  | busByte b => obtain rfl := Host.Outcome.next.inj h; exact busOperation_grows (sendByte_grows b) s
  | busBurst a n => obtain rfl := Host.Outcome.next.inj h; exact busOperation_grows (sendBurst_grows _) s
  | init =>
    obtain rfl := Host.Outcome.next.inj h
    split
    · exact initPanel_grows _ s
    · exact List.prefix_rfl
  | flush =>
    obtain rfl := Host.Outcome.next.inj h
    split
    · simp only [endRun_port]
      exact flushPages_grows _ s.fb s.port
    · exact List.prefix_rfl
  | moveR => obtain rfl := Host.Outcome.next.inj h; exact moveSprite_grows .right s
  | moveL => obtain rfl := Host.Outcome.next.inj h; exact moveSprite_grows .left s
  | trigSvc =>
    rcases execTrigSvc_cases h with ⟨-, rfl⟩ | ⟨e, q, -, rfl⟩
    · exact List.prefix_rfl
    · exact moveSprite_grows e { s with tq := q }

/-! ## Events -/

/-- A presented word is dropped, refused with `Usage`, or run (R63, R67, R181). -/
theorem presentWord_grows {w : Word} {s t : State} (h : presentWord w s = .next t) :
    s.port.busLog <+: t.port.busLog := by
  unfold presentWord at h
  split at h
  · cases h
    exact List.prefix_rfl
  · unfold runWord at h
    split at h
    · exact exec_grows (s := { s with busy := true }) h
    · cases h
      exact List.prefix_rfl

@[simp] theorem writtenDuring_port (ws : List (BitVec 16 × Byte)) (s : State) : (writtenDuring ws s).port = s.port := by
  rw [writtenDuring_frame]

@[simp] theorem captureEdge_port (e : Trigger) (s : State) : (captureEdge e s).port = s.port := by
  rw [captureEdge_frame]

@[simp] theorem setReset_port (level : Bool) (s : State) : (setReset level s).port = s.port := by
  simp [setReset]

/-- A string draws, and drawing does not touch the port (R194). -/
@[simp] theorem continueString_port (n : Nat) (s : State) : (continueString n s).port = s.port := by
  unfold continueString
  split
  · rfl
  · split
    · rfl
    · rw [runString_frame]

/-- The log entries of an abandoned operation stand after those before it (R176). -/
theorem cutByReset_grows (k : Nat) (s after : State) : s.port.busLog <+: (cutByReset k s after).port.busLog := by
  rw [cutByReset, setReset_port, replay_busLog]
  exact List.prefix_append _ _

theorem handle_grows {e : HostEvent} {s t : State} (h : handle e s = .next t) : s.port.busLog <+: t.port.busLog := by
  cases e with
  | command w => exact presentWord_grows h
  | edge e => obtain rfl := Host.Outcome.next.inj h; rw [captureEdge_port]
  | opmWrite a b => obtain rfl := Host.Outcome.next.inj h; rw [changeOperand_port]
  | readBack a => obtain rfl := Host.Outcome.next.inj h; rw [recordRead_port]
  | reset level => obtain rfl := Host.Outcome.next.inj h; rw [setReset_port]
  | commandWithWrites w ws =>
    simp only [handle, presentWordWithWrites] at h
    split at h
    · obtain rfl := Host.Outcome.next.inj h
      rw [settle_port, ← writtenDuring_port ws s]
      exact presentWord_grows ‹_›
    · cases h
    · cases h
  | commandCutByReset w ws k =>
    simp only [handle, presentWordThenReset] at h
    split at h
    · obtain rfl := Host.Outcome.next.inj h
      simpa using cutByReset_grows k (writtenDuring ws s) _
    · cases h
    · cases h
  | pass n => obtain rfl := Host.Outcome.next.inj h; rw [settle_port, continueString_port]

/-- Settles O59: no event but a word touches the port, and what a word runs only appends. -/
theorem busLogOnlyGrows : Obligations.BusLogOnlyGrows := by
  intro s t h
  cases hi : s.inbox with
  | nil =>
    rw [step_of_no_event hi] at h
    obtain rfl := Host.Outcome.next.inj h
    exact List.prefix_rfl
  | cons e rest =>
    rw [step_of_event hi] at h
    exact handle_grows (s := { s with inbox := rest }) h

end Sys2Proof.Machine
end

section
/-! PROOFS. The decoder and the encoder are inverse to each other, and the decoder follows the opcode table (R63 to R67). -/

namespace Sys2Proof

/-! ## The opcode field (R64, R66) -/

theorem Op.ofCode_code (o : Op) : Op.ofCode o.code = some o := by cases o <;> rfl

theorem Op.selects_iff {o : Op} {w : Word} : o.selects w = true ↔ w &&& o.mask = o.pattern := decide_eq_true_iff

/-- A selected word agrees with the row's pattern in every field the mask covers. -/
theorem Op.extractLsb'_of_selects {o : Op} {w : Word} {lo n : Nat} (h : w &&& o.mask = o.pattern)
    (covered : o.mask.extractLsb' lo n = BitVec.allOnes n) : w.extractLsb' lo n = o.pattern.extractLsb' lo n := by
  rw [← h, BitVec.extractLsb'_and, covered, BitVec.and_allOnes]

/-- Every mask covers the operation code, so a selected word has the row's (R66). -/
theorem Op.bits_opcode {o : Op} {w : Word} (h : w &&& o.mask = o.pattern) : bits w 31 24 = o.code := by
  have covered : o.mask.extractLsb' 24 8 = BitVec.allOnes 8 := by cases o <;> rfl
  have pattern : o.pattern.extractLsb' 24 8 = o.code := by cases o <;> rfl
  exact (Op.extractLsb'_of_selects h covered).trans pattern

theorem Op.ofCode_of_selects {o : Op} {w : Word} (h : w &&& o.mask = o.pattern) : Op.ofCode (bits w 31 24) = some o := by
  rw [Op.bits_opcode h, o.ofCode_code]

/-- No two rows overlap: a word has one operation code (R66). -/
theorem Op.eq_of_selects {a b : Op} {w : Word} (ha : w &&& a.mask = a.pattern) (hb : w &&& b.mask = b.pattern) : a = b :=
  Option.some.inj ((Op.ofCode_of_selects ha).symm.trans (Op.ofCode_of_selects hb))

theorem Op.op_operands (o : Op) (w : Word) : (o.operands w).op = o := by cases o <;> rfl

/-! ## The decoder by the table (R66, R67) -/

theorem decode_of_selects {o : Op} {w : Word} (h : w &&& o.mask = o.pattern) : decode w = .ok (o.operands w) := by
  simp only [decode, Op.ofCode_of_selects h, Op.selects_iff.mpr h, if_true]

/-- The decoder answers exactly the operations of the rows a word selects. -/
theorem decode_eq_ok_iff {w : Word} {i : Instr} :
    decode w = .ok i ↔ ∃ o : Op, w &&& o.mask = o.pattern ∧ o.operands w = i := by
  constructor
  · intro h
    unfold decode at h
    split at h
    · cases h
    · next o _ =>
      split at h
      · next hsel => exact ⟨o, Op.selects_iff.mp hsel, Except.ok.inj h⟩
      · cases h
  · rintro ⟨o, h, rfl⟩
    exact decode_of_selects h

/-- A word that selects no row is illegal (R67). -/
theorem decode_of_no_row {w : Word} (h : ∀ o : Op, w &&& o.mask ≠ o.pattern) : ∃ e, decode w = .error e := by
  cases hd : decode w with
  | error e => exact ⟨e, rfl⟩
  | ok i =>
    obtain ⟨o, ho, -⟩ := decode_eq_ok_iff.mp hd
    exact absurd ho (h o)

/-- Settles O3: the two columns are evaluated, the rest is that the masks cover the operation code. -/
theorem decodeFollowsTheOpcodeTable : Obligations.DecodeFollowsTheOpcodeTable :=
  ⟨by decide, by decide, fun _ _ _ => Op.eq_of_selects, fun w o h => ⟨decode_of_selects h, o.op_operands w⟩,
    fun _ => decode_of_no_row⟩

/-! ## Operands out of an encoded word (R64, R65) -/

/-- The family `Laws.RowMatch`, put together: the word of an operation selects that operation's row. -/
theorem selects_encode {i : Instr} (h : i.WellFormed = true) : encode i &&& i.op.mask = i.op.pattern := by
  have row : Laws.RowMatch.Statement i := by
    cases i with
    | busStart => exact Laws.RowMatch.busStart
    | busStop => exact Laws.RowMatch.busStop
    | busAddr b => exact Laws.RowMatch.busAddr b
    | busByte b => exact Laws.RowMatch.busByte b
    | busBurst a n => exact Laws.RowMatch.busBurst a n
    | fbFill c => exact Laws.RowMatch.fbFill c
    | fbPixel x y c => exact Laws.RowMatch.fbPixel x y c
    | curSet x y => exact Laws.RowMatch.curSet x y
    | wrChar ch f wrap c => exact Laws.RowMatch.wrChar ch f wrap c
    | wrStr a f wrap c => exact Laws.RowMatch.wrStr a f wrap c
    | wrImg k c => exact Laws.RowMatch.wrImg k c
    | init => exact Laws.RowMatch.init
    | flush => exact Laws.RowMatch.flush
    | moveR => exact Laws.RowMatch.moveR
    | moveL => exact Laws.RowMatch.moveL
    | trigSvc => exact Laws.RowMatch.trigSvc
    | cfgTimeout v => exact Laws.RowMatch.cfgTimeout v
    | cfgTrig r l q => exact Laws.RowMatch.cfgTrig r l q
  exact Op.selects_iff.mp (row h)

@[simp] theorem Color.ofBit_toBit (c : Color) : Color.ofBit c.toBit[0] = c := by cases c <;> rfl

@[simp] theorem Color.toBit_ofBit (b : Bool) : (Color.ofBit b).toBit = BitVec.ofBool b := by cases b <;> rfl

/-- The length field of a burst spells `n - 1`, for the lengths 1 to 256 (R65). -/
theorem burstLength_of_field {n : Nat} (h : burstLengthOk n = true) : (BitVec.ofNat 8 (n - 1)).toNat + 1 = n := by
  simp only [burstLengthOk, Bool.and_eq_true, decide_eq_true_eq] at h
  rw [BitVec.toNat_ofNat]
  omega

/-- Every field is read from where the encoder puts it. -/
theorem operands_encode {i : Instr} (h : i.WellFormed = true) : i.op.operands (encode i) = i := by
  cases i <;> simp only [Instr.op, Op.operands, encode, bits, bit, BitVec.extractLsb'_append_eq_ite,
    BitVec.getLsbD_append]
  case busBurst a n => simpa using burstLength_of_field h
  all_goals simp

/-- Settles O1: the word selects its operation's own row, and that row reads the operands back. -/
theorem decodeOfEncodeGivesTheOperationBack : Obligations.DecodeOfEncodeGivesTheOperationBack := by
  intro i h
  rw [decode_of_selects (selects_encode h), operands_encode h]

/-! ## A word out of its operands (R64, R67) -/

theorem Op.wellFormed_operands (o : Op) (w : Word) : (o.operands w).WellFormed = true := by
  cases o with
  | busBurst =>
    have := (bits w 7 0).isLt
    simp only [Op.operands, Instr.WellFormed, burstLengthOk, Bool.and_eq_true, decide_eq_true_eq]
    omega
  | _ => rfl

theorem ofBool_bit (w : Word) (i : Nat) : BitVec.ofBool (bit w i) = w.extractLsb' i 1 := by
  ext j hj
  obtain rfl : j = 0 := by omega
  simp [bit]

/-- Encoding the operands a selected word spells gives the word back: the operation code and the reserved zeros are the
bits its mask covers, and joined with the fields, each where it was read, they are all 32 bits. -/
theorem Op.encode_operands {o : Op} {w : Word} (h : w &&& o.mask = o.pattern) : encode (o.operands w) = w := by
  have code : o.code = w.extractLsb' 24 8 := (Op.bits_opcode h).symm
  have reserved (lo n : Nat) (covered : o.mask.extractLsb' lo n = BitVec.allOnes n)
      (zero : o.pattern.extractLsb' lo n = 0#n) : 0#n = w.extractLsb' lo n :=
    zero.symm.trans (Op.extractLsb'_of_selects h covered).symm
  have join := @BitVec.extractLsb'_append_extractLsb'_eq_extractLsb' 32
  have whole : w.extractLsb' 0 32 = w := BitVec.extractLsb'_eq_self
  cases o <;> simp only [Op.code, Op.operands, encode, bits, Color.toBit_ofBit, ofBool_bit] at code ⊢
  case busStart | busStop | init | flush | moveR | moveL | trigSvc =>
    simp (disch := rfl) only [code, reserved 0 24 rfl rfl, join, whole]
  case busAddr | busByte => simp (disch := rfl) only [code, reserved 8 16 rfl rfl, join, whole]
  case busBurst =>
    simp (disch := rfl) only [Nat.add_sub_cancel, BitVec.ofNat_toNat, BitVec.setWidth_eq, code, join, whole]
  case fbFill => simp (disch := rfl) only [code, reserved 1 23 rfl rfl, join, whole]
  case fbPixel => simp (disch := rfl) only [code, reserved 1 7 rfl rfl, join, whole]
  case curSet => simp (disch := rfl) only [code, reserved 0 8 rfl rfl, join, whole]
  case wrChar => simp (disch := rfl) only [code, reserved 8 8 rfl rfl, reserved 2 2 rfl rfl, join, whole]
  case wrStr => simp (disch := rfl) only [code, reserved 2 2 rfl rfl, join, whole]
  case wrImg => simp (disch := rfl) only [code, reserved 8 16 rfl rfl, reserved 1 3 rfl rfl, join, whole]
  case cfgTimeout => simp (disch := rfl) only [code, join, whole]
  case cfgTrig => simp (disch := rfl) only [code, reserved 3 21 rfl rfl, join, whole]

/-- Settles O2: an operation that decodes is read off a selected row, whose operands spell the word. -/
theorem encodeOfDecodeGivesTheWordBack : Obligations.EncodeOfDecodeGivesTheWordBack := by
  intro w i h
  obtain ⟨o, ho, rfl⟩ := decode_eq_ok_iff.mp h
  exact ⟨o.wellFormed_operands w, Op.encode_operands ho⟩

/-- Settles O4: seven words, evaluated. -/
theorem writtenOutWordsDecode : Obligations.WrittenOutWordsDecode := by
  unfold Obligations.WrittenOutWordsDecode
  decide

end Sys2Proof
end

section
/-! PROOFS. What a presented command word does: a legal one runs its operation, an illegal one sets `RES` (R63, R67). -/

namespace Sys2Proof.Machine

/-- A block that accepts an illegal word reports `Usage` and is idle again (R67). -/
theorem presentWord_of_illegal {w : Word} {e : DecodeError} {s : State} (hs : s.Accepts) (hw : decode w = .error e) :
    presentWord w s = .next { s with res := { usage := true } } := by
  obtain ⟨hb, hr⟩ := hs
  simp [presentWord, runWord, finishUsage, finish, hb, hr, hw]

/-- Settles O5: an illegal word decodes to an error, which the block reports as `Usage`. -/
theorem illegalWordSetsOnlyUsage : Obligations.IllegalWordSetsOnlyUsage := by
  intro s w rest hs hi hw
  obtain ⟨e, he⟩ := decode_of_no_row hw
  have taken : State.Accepts { s with inbox := rest } := hs
  exact ⟨_, (step_of_event hi).trans (presentWord_of_illegal taken he), rfl, rfl, rfl, rfl⟩

/-- A step that takes a command word runs the operation it decodes to (R63). -/
theorem step_command {w : Word} {i : Instr} {s : State} {rest : List HostEvent} (hs : s.Accepts)
    (hi : s.inbox = .command w :: rest) (hw : decode w = .ok i) :
    step s = exec i { s with inbox := rest, busy := true } :=
  (step_of_event hi).trans (presentWord_of_accepts hs hw)

/-- Settles O6: `withFetchWord` leaves a block that accepts and has the word next. -/
theorem stepRunsTheDecodedOperation : Obligations.StepRunsTheDecodedOperation :=
  ⟨fun _ _ _ _ => step_command,
    fun s _ w _ hw => step_command (s := withNextWord s (BitVec.ofNat 32 w)) ⟨rfl, rfl⟩ rfl hw⟩

end Sys2Proof.Machine
end

section
/-! PROOFS. The bus channel: what a bounded poll does (R90), what the bus procedures put in the bus log and which answers
they leave alone (R92 to R96), and the host-issued operations assembled from them (R98, R99). -/

namespace Sys2Proof.Machine

/-! ## One poll (R90) -/

theorem PollSamples.one (n : Nat) : PollSamples n [true] true := .inl ⟨rfl, 0, n.zero_le, rfl⟩

theorem PollSamples.lastZero : PollSamples 0 [false] false := .inr ⟨rfl, rfl⟩

theorem PollSamples.zero {n : Nat} {vs : List Bool} {ok : Bool} (h : PollSamples n vs ok) :
    PollSamples (n + 1) (false :: vs) ok := by
  rcases h with ⟨rfl, k, hk, rfl⟩ | ⟨rfl, rfl⟩
  · exact .inl ⟨rfl, k + 1, Nat.succ_le_succ hk, rfl⟩
  · exact .inr ⟨rfl, rfl⟩

/-- A procedure called on the port `p` answered `r`: it ended in `OK` or in `TIMEOUT`, with the entries `es` made in the
bus log. -/
structure Returns (p : Port) (es : List BusEvent) (ok : Bool) (r : Port × PollResult) : Prop where
  result : r.2 = if ok = true then .ok else .timeout
  log : r.1.busLog = p.busLog ++ es

/-- Entries made before the call come first. -/
theorem Returns.after {p q : Port} {es fs : List BusEvent} {ok : Bool} {r : Port × PollResult}
    (h : Returns q fs ok r) (hq : q.busLog = p.busLog ++ es) : Returns p (es ++ fs) ok r :=
  ⟨h.result, by rw [h.log, hq, List.append_assoc]⟩

/-- A poll whose last sample reads 0 times out (R90). -/
theorem poll_zero_of_not_ready {f : Flag} {p : Port} (h : p.flagValue f = false) :
    poll f 0 p = (p.sampled f, .timeout) := by
  simp [poll, h]

theorem sampled_busLog_of_value {f : Flag} {p : Port} {b : Bool} (h : p.flagValue f = b) :
    (p.sampled f).busLog = p.busLog ++ samplesOf f [b] := by
  rw [sampled_busLog, h]; rfl

/-- A poll makes the entries of its samples, and these tell its result (R90). -/
theorem poll_returns (f : Flag) (n : Nat) (p : Port) :
    ∃ vs ok, PollSamples n vs ok ∧ Returns p (samplesOf f vs) ok (poll f n p) := by
  induction n generalizing p with
  | zero =>
    cases h : p.flagValue f with
    | true => exact ⟨_, _, .one 0, by rw [poll_of_ready h]; exact ⟨rfl, sampled_busLog_of_value h⟩⟩
    | false => exact ⟨_, _, .lastZero, by rw [poll_zero_of_not_ready h]; exact ⟨rfl, sampled_busLog_of_value h⟩⟩
  | succ n ih =>
    cases h : p.flagValue f with
    | true => exact ⟨_, _, .one _, by rw [poll_of_ready h]; exact ⟨rfl, sampled_busLog_of_value h⟩⟩
    | false =>
      obtain ⟨vs, ok, hs, hr⟩ := ih (p.sampled f)
      exact ⟨_, _, hs.zero, by rw [poll_succ_of_not_ready h]; exact hr.after (sampled_busLog_of_value h)⟩

/-- What every sample of a flag keeps, a poll of that flag keeps. -/
theorem poll_keeps {P : Port → Prop} {f : Flag} (hs : ∀ q, P q → P (q.sampled f)) (n : Nat) {p : Port} (h : P p) :
    P (poll f n p).1 := by
  induction n generalizing p with
  | zero => unfold poll; split <;> exact hs p h
  | succ n ih =>
    unfold poll
    split
    · exact hs p h
    · exact ih (hs p h)

theorem poll_source_other {f g : Flag} (hg : g ≠ f) (n : Nat) (p : Port) : (poll f n p).1.source g = p.source g :=
  poll_keeps (P := fun q => q.source g = p.source g) (fun q h => (sampled_source_other q f g hg).trans h) n rfl

@[simp] theorem poll_order (f : Flag) (n : Nat) (p : Port) : (poll f n p).1.order = p.order :=
  poll_keeps (P := fun q => q.order = p.order) (fun q h => (sampled_order q f).trans h) n rfl

/-- Settles O14: the samples by induction on the bound, the frame from what one sample keeps. -/
theorem pollTakesAtMostBoundPlusOneSamples : Obligations.PollTakesAtMostBoundPlusOneSamples := by
  intro f n p
  obtain ⟨vs, ok, hs, hr⟩ := poll_returns f n p
  exact ⟨vs, ok, hs, hr.result, hr.log, fun g hg => poll_source_other hg n p, poll_order f n p⟩

/-! ## A poll and the answers of its flag (R28, R90) -/

theorem flagValue_of_scripted {f : Flag} {p : Port} {b : Bool} {bs : List Bool} (h : (p.source f).answers = b :: bs) :
    p.flagValue f = b := answer_scripted h p.draws

theorem sampled_answers_of_scripted {f : Flag} {p : Port} {b : Bool} {bs : List Bool}
    (h : (p.source f).answers = b :: bs) : ((p.sampled f).source f).answers = bs := by
  rw [sampled_source_same, next_answers, h, List.tail_cons]

/-- The first 1 within the bound ends the poll; the answers after it stay (R90). -/
theorem poll_of_scripted_one {f : Flag} {n k : Nat} {rest : List Bool} {p : Port} (hk : k ≤ n)
    (h : (p.source f).answers = List.replicate k false ++ true :: rest) :
    (poll f n p).2 = .ok ∧ ((poll f n p).1.source f).answers = rest := by
  induction k generalizing n p with
  | zero =>
    rw [poll_of_ready (flagValue_of_scripted h)]
    exact ⟨rfl, sampled_answers_of_scripted h⟩
  | succ k ih =>
    obtain ⟨m, rfl⟩ := Nat.exists_eq_add_of_le' hk
    rw [← Nat.add_assoc, poll_succ_of_not_ready (flagValue_of_scripted h)]
    exact ih (Nat.le_add_left k m) (sampled_answers_of_scripted h)

/-- Zeros up to the bound time the poll out; the answers after them stay (R90). -/
theorem poll_of_scripted_zeros {f : Flag} {n : Nat} {rest : List Bool} {p : Port}
    (h : (p.source f).answers = List.replicate (n + 1) false ++ rest) :
    (poll f n p).2 = .timeout ∧ ((poll f n p).1.source f).answers = rest := by
  induction n generalizing p with
  | zero =>
    rw [poll_zero_of_not_ready (flagValue_of_scripted h)]
    exact ⟨rfl, sampled_answers_of_scripted h⟩
  | succ n ih =>
    rw [poll_succ_of_not_ready (flagValue_of_scripted h)]
    exact ih (sampled_answers_of_scripted h)

/-- Settles O15: by induction on the zeros before the first 1, and on the bound. -/
theorem pollFollowsTheAnswers : Obligations.PollFollowsTheAnswers :=
  ⟨fun _ _ _ _ _ => poll_of_scripted_one, fun _ _ _ _ => poll_of_scripted_zeros⟩

/-! ## The procedures of the bus master (R92 to R96) -/

/-- `Start(t)` puts the request and its samples in the bus log (R92). -/
theorem start_returns (t : Nat) (p : Port) :
    ∃ vs ok, PollSamples t vs ok ∧ Returns p (.reqStart :: samplesOf .start vs) ok (start false t p) := by
  obtain ⟨vs, ok, hs, hr⟩ := poll_returns .start t (emit .reqStart p)
  exact ⟨vs, ok, hs, hr.after (emit_busLog _ p)⟩

theorem start_source_other {g : Flag} (hg : g ≠ .start) (t : Nat) (p : Port) :
    (start false t p).1.source g = p.source g :=
  (poll_source_other hg t _).trans (emit_source _ p g)

theorem start_order (t : Nat) (p : Port) : (start false t p).1.order = p.order := poll_order .start t _

theorem statusReads_pair (p : Port) : ∃ first, (statusReads p).busLog = p.busLog ++ statusPair first :=
  ⟨_, statusReads_busLog p⟩

theorem statusReads_source (p : Port) (f : Flag) : (statusReads p).source f = p.source f := by cases f <;> rfl

/-- `SendAddress` after a good poll makes the status reads (R94). -/
theorem sendAddress_of_ok {a : Byte} {t : Nat} {p : Port} (h : (poll .addr t (emit (.txAddr a) p)).2 = .ok) :
    sendAddress a t p = (statusReads (poll .addr t (emit (.txAddr a) p)).1, .ok) := by
  simp only [sendAddress, h]

/-- `SendAddress` after a poll that was not good makes no status read (R94). -/
theorem sendAddress_of_not_ok {a : Byte} {t : Nat} {p : Port} (h : (poll .addr t (emit (.txAddr a) p)).2 ≠ .ok) :
    sendAddress a t p = poll .addr t (emit (.txAddr a) p) := by
  unfold sendAddress
  generalize poll .addr t (emit (.txAddr a) p) = r at h ⊢
  obtain ⟨q, e⟩ := r
  cases e with
  | ok => exact absurd rfl h
  | timeout => rfl
  | never => rfl

/-- `SendAddress` puts its byte, its samples and, after a good poll, the status reads in the bus log (R94). -/
theorem sendAddress_returns (a : Byte) (t : Nat) (p : Port) :
    ∃ vs ok first, PollSamples t vs ok ∧
      Returns p (.txAddr a :: samplesOf .addr vs ++ if ok = true then statusPair first else []) ok
        (sendAddress a t p) := by
  obtain ⟨vs, ok, hs, hr⟩ := poll_returns .addr t (emit (.txAddr a) p)
  have polled := hr.after (emit_busLog _ p)
  cases ok with
  | true =>
    obtain ⟨first, hfirst⟩ := statusReads_pair (poll .addr t (emit (.txAddr a) p)).1
    refine ⟨vs, true, first, hs, ?_⟩
    rw [sendAddress_of_ok polled.result]
    exact ⟨rfl, by rw [hfirst, polled.log, List.append_assoc]; rfl⟩
  | false =>
    refine ⟨vs, false, true, hs, ?_⟩
    rw [sendAddress_of_not_ok (by simp [polled.result])]
    simpa using polled

theorem sendAddress_source_other {g : Flag} (hg : g ≠ .addr) (a : Byte) (t : Nat) (p : Port) :
    (sendAddress a t p).1.source g = p.source g := by
  have polled := (poll_source_other hg t _).trans (emit_source (.txAddr a) p g)
  by_cases hok : (poll .addr t (emit (.txAddr a) p)).2 = .ok
  · rwa [sendAddress_of_ok hok, statusReads_source]
  · rwa [sendAddress_of_not_ok hok]

/-- A burst whose transmit-empty wait is good writes its byte and goes on (R95, R96). -/
theorem sendBurst_cons_of_ok {legacy : Bool} {t : Nat} {d : Byte} {ds : List Byte} {p : Port}
    (h : (waitFor legacy .txe t p).2 = .ok) :
    sendBurst legacy t (d :: ds) p = sendBurst legacy t ds (emit (.txData d) (waitFor legacy .txe t p).1) := by
  rw [sendBurst]; simp only [h]

/-- A burst whose transmit-empty wait is not good ends as the wait did, its byte unwritten (R91, R95, R96). -/
theorem sendBurst_cons_of_not_ok {legacy : Bool} {t : Nat} {d : Byte} {ds : List Byte} {p : Port}
    (h : (waitFor legacy .txe t p).2 ≠ .ok) : sendBurst legacy t (d :: ds) p = waitFor legacy .txe t p := by
  rw [sendBurst]
  generalize waitFor legacy .txe t p = r at h ⊢
  obtain ⟨q, e⟩ := r
  cases e with
  | ok => exact absurd rfl h
  | timeout => rfl
  | never => rfl

/-- A burst puts in the bus log what `BurstLog` says, and that tells its result (R95, R96). -/
theorem sendBurst_returns (t : Nat) (ds : List Byte) (p : Port) :
    ∃ es ok, BurstLog t ds es ok ∧ Returns p es ok (sendBurst false t ds p) := by
  induction ds generalizing p with
  | nil =>
    obtain ⟨vs, ok, hs, hr⟩ := poll_returns .btf t p
    exact ⟨_, ok, .done hs, hr⟩
  | cons d ds ih =>
    obtain ⟨vs, ok, hs, hr⟩ := poll_returns .txe t p
    rw [← waitFor_false] at hr
    cases ok with
    | true =>
      rw [sendBurst_cons_of_ok hr.result]
      obtain ⟨es, ok, hb, he⟩ := ih (emit (.txData d) (waitFor false .txe t p).1)
      exact ⟨_, ok, .byte hs hb, (he.after (emit_busLog _ _)).after hr.log⟩
    | false =>
      rw [sendBurst_cons_of_not_ok (by simp [hr.result])]
      exact ⟨_, false, .full hs, hr⟩

/-- What samples of the two transfer flags and data bytes keep, a burst keeps. -/
theorem sendBurst_keeps {P : Port → Prop} (ht : ∀ q, P q → P (q.sampled .txe)) (hb : ∀ q, P q → P (q.sampled .btf))
    (hd : ∀ d q, P q → P (emit (.txData d) q)) (t : Nat) (ds : List Byte) {p : Port} (h : P p) :
    P (sendBurst false t ds p).1 := by
  induction ds generalizing p with
  | nil => exact poll_keeps hb t h
  | cons d ds ih =>
    have waited : P (waitFor false .txe t p).1 := poll_keeps ht t h
    by_cases hok : (waitFor false .txe t p).2 = .ok
    · rw [sendBurst_cons_of_ok hok]
      exact ih (hd d _ waited)
    · rwa [sendBurst_cons_of_not_ok hok]

theorem sendBurst_start (t : Nat) (ds : List Byte) (p : Port) : (sendBurst false t ds p).1.start = p.start :=
  sendBurst_keeps (P := fun q => q.start = p.start) (fun _ => id) (fun _ => id) (fun _ _ => id) t ds rfl

theorem sendBurst_addr (t : Nat) (ds : List Byte) (p : Port) : (sendBurst false t ds p).1.addr = p.addr :=
  sendBurst_keeps (P := fun q => q.addr = p.addr) (fun _ => id) (fun _ => id) (fun _ _ => id) t ds rfl

theorem sendBurst_order (t : Nat) (ds : List Byte) (p : Port) : (sendBurst false t ds p).1.order = p.order :=
  sendBurst_keeps (P := fun q => q.order = p.order) (fun _ => id) (fun _ => id) (fun _ _ => id) t ds rfl

/-! ## The host operations (R93, R98, R99) -/

/-- With a bound set a bus operation runs its procedure and reports whether it timed out (R99). -/
theorem busOperation_of_returns {f : Nat → Port → Port × PollResult} {s : State} {es : List BusEvent} {ok : Bool}
    (hv : s.bto.valid = true) (h : Returns s.port es ok (f s.bto.value.toNat s.port)) :
    busOperation f s = finish (busRes (!ok)) { s with port := (f s.bto.value.toNat s.port).1 } := by
  cases ok <;> simp [busOperation, endBus, hv, h.result]

theorem busOperation_of_unset {s : State} (hv : s.bto.valid = false) (f : Nat → Port → Port × PollResult) :
    busOperation f s = finishUsage s := by
  simp [busOperation, hv]

theorem moveSprite_of_unset {s : State} (hv : s.bto.valid = false) (dir : Trigger) :
    moveSprite dir s = finishUsage s := by
  simp [moveSprite, hv]

/-- Settles O16: `Start` under the bound. -/
theorem busStartRequestsAndPolls : Obligations.BusStartRequestsAndPolls := by
  intro s hv
  obtain ⟨vs, ok, hs, hr⟩ := start_returns s.bto.value.toNat s.port
  have other {g : Flag} (hg : g ≠ .start) := start_source_other hg s.bto.value.toNat s.port
  exact ⟨_, vs, ok, congrArg Host.Outcome.next (busOperation_of_returns hv hr), hs, by simpa using hr.log, rfl,
    other (g := .addr) (by decide), other (g := .txe) (by decide), other (g := .btf) (by decide), start_order _ _⟩

/-- Settles O17: the definition of BUS.STOP. -/
theorem busStopOnlyEmits : Obligations.BusStopOnlyEmits :=
  fun s => ⟨_, rfl, emit_busLog .reqStop s.port, rfl⟩

/-- Settles O18: `SendAddress` under the bound. -/
theorem busAddrReadsStatusOnSuccess : Obligations.BusAddrReadsStatusOnSuccess := by
  intro b s hv
  obtain ⟨vs, ok, first, hs, hr⟩ := sendAddress_returns b s.bto.value.toNat s.port
  have other {g : Flag} (hg : g ≠ .addr) := sendAddress_source_other hg b s.bto.value.toNat s.port
  exact ⟨_, vs, ok, first, congrArg Host.Outcome.next (busOperation_of_returns hv hr), hs, by simpa using hr.log, rfl,
    other (g := .start) (by decide), other (g := .txe) (by decide), other (g := .btf) (by decide)⟩

/-- A burst under the bound is a host operation that leaves the start, address and order answers alone (R96, R99). -/
theorem busOperation_sendBurst {s : State} (hv : s.bto.valid = true) (ds : List Byte) :
    ∃ t es ok, busOperation (fun n => sendBurst false n ds) s = t ∧ BurstLog s.bto.value.toNat ds es ok ∧
      t.port.busLog = s.port.busLog ++ es ∧
      t = { s with port := t.port, res := { busTimeout := !ok }, busy := false } ∧
      t.port.start = s.port.start ∧ t.port.addr = s.port.addr ∧ t.port.order = s.port.order := by
  obtain ⟨es, ok, hb, hr⟩ := sendBurst_returns s.bto.value.toNat ds s.port
  exact ⟨_, es, ok, busOperation_of_returns hv hr, hb, hr.log, rfl, sendBurst_start _ _ _, sendBurst_addr _ _ _,
    sendBurst_order _ _ _⟩

/-- Settles O19: a byte is a burst of one. -/
theorem busByteWaitsThenWrites : Obligations.BusByteWaitsThenWrites := by
  intro b s hv
  obtain ⟨t, es, ok, ht, h⟩ := busOperation_sendBurst hv [b]
  exact ⟨t, es, ok, congrArg _ ht, h⟩

/-- Settles O20: the burst of the bytes read, each a value its address may be read as. -/
theorem busBurstSendsOperandBytes : Obligations.BusBurstSendsOperandBytes := by
  intro addr n s hv
  obtain ⟨t, es, ok, ht, h⟩ := busOperation_sendBurst hv (burstBytes s addr n)
  refine ⟨t, burstBytes s addr n, es, ok, congrArg _ ht, by simp [burstBytes], fun i hi => ?_, h⟩
  have read : (burstBytes s addr n)[i] = operandByte s (addr + BitVec.ofNat 16 i) := by simp [burstBytes]
  rw [read]
  exact operandByte_canRead s _

/-- With no bound set an operation of a row that polls ends in `Usage` (R98). -/
theorem exec_of_unset {s : State} (hv : s.bto.valid = false) {i : Instr}
    (hi : i.op ∈ [Op.busStart, .busAddr, .busByte, .busBurst, .init, .flush, .moveR, .moveL]) :
    exec i s = .next (finishUsage s) := by
  cases i with
  | busStart | busAddr | busByte | busBurst => exact congrArg _ (busOperation_of_unset hv _)
  | init | flush => simp [exec, execInit, execFlush, hv]
  | moveR | moveL => exact congrArg _ (moveSprite_of_unset hv _)
  | busStop | fbFill | fbPixel | curSet | wrChar | wrStr | wrImg | trigSvc | cfgTimeout | cfgTrig =>
    simp [Instr.op] at hi

/-- Settles O21: the checks of the bound come first; TRIG.SVC removes its entry before it. -/
theorem unsetBoundEndsInUsage : Obligations.UnsetBoundEndsInUsage := by
  refine fun s hv => ⟨fun i => exec_of_unset hv, fun e q hq => ?_⟩
  simp only [exec, execTrigSvc, hq]
  exact congrArg _ (moveSprite_of_unset (s := { s with tq := q }) hv e)

/-! ## A flag that reads 0 for ever (R91) -/

theorem flagValue_of_dead {f : Flag} {p : Port} (h : (p.source f).Dead) : p.flagValue f = false :=
  answer_steady h.1 h.2 p.draws

theorem sampled_dead {f : Flag} {p : Port} (h : (p.source f).Dead) : ((p.sampled f).source f).Dead := by
  obtain ⟨answers, steady⟩ := h
  rw [sampled_source_same]
  exact ⟨by rw [next_answers, answers, List.tail_nil], steady⟩

/-- The original's wait for a dead flag never returns (R91). -/
theorem waitFor_true_of_dead {f : Flag} {p : Port} (h : (p.source f).Dead) (n : Nat) :
    waitFor true f n p = (p, .never) := by
  obtain ⟨answers, steady⟩ := h
  simp [waitFor, pollForever, waitUnscripted, answers, steady]

/-- The block's poll of a dead flag times out after all its samples (R90). -/
theorem poll_of_dead {f : Flag} {p : Port} (h : (p.source f).Dead) (n : Nat) :
    Returns p (samplesOf f (List.replicate (n + 1) false)) false (poll f n p) := by
  have value := flagValue_of_dead h
  induction n generalizing p with
  | zero =>
    rw [poll_zero_of_not_ready value]
    exact ⟨rfl, sampled_busLog_of_value value⟩
  | succ n ih =>
    rw [poll_succ_of_not_ready value]
    exact (ih (sampled_dead h) (flagValue_of_dead (sampled_dead h))).after (sampled_busLog_of_value value)

/-- The original's burst never returns from a dead transmit-empty flag, the block's times out (R91, R96). -/
theorem sendBurst_of_dead {p : Port} (h : p.txe.Dead) (t : Nat) (d : Byte) (ds : List Byte) :
    (sendBurst true t (d :: ds) p).2 = .never ∧
      Returns p (samplesOf .txe (List.replicate (t + 1) false)) false (sendBurst false t (d :: ds) p) := by
  have original := waitFor_true_of_dead (f := .txe) h t
  have polled := poll_of_dead (f := .txe) h t
  rw [← waitFor_false] at polled
  rw [sendBurst_cons_of_not_ok (by simp [original]), sendBurst_cons_of_not_ok (by simp [polled.result])]
  exact ⟨by rw [original], polled⟩

/-- Settles O22: the waits on a dead flag, of the start and of the first byte of a burst. -/
theorem originalWaitsNeverReturnOnADeadFlag : Obligations.OriginalWaitsNeverReturnOnADeadFlag := by
  refine ⟨fun t p h => ?_, fun t d p h => ?_, fun t d ds p h => ?_, rfl⟩
  · have requested : ((emit .reqStart p).source .start).Dead := h
    have block : Returns p _ false (start false t p) := (poll_of_dead requested t).after (emit_busLog .reqStart p)
    exact ⟨by rw [start, waitFor_true_of_dead requested], block.result, by rw [block.log, List.append_assoc]⟩
  · simp only [sendByte_eq_sendBurst]
    obtain ⟨original, block⟩ := sendBurst_of_dead h t d []
    exact ⟨original, block.result, block.log⟩
  · obtain ⟨original, block⟩ := sendBurst_of_dead h t d ds
    exact ⟨original, block.result, block.log⟩

end Sys2Proof.Machine
end

section
/-! PROOFS. The framebuffer and cursor operations (R105 to R108). -/

namespace Sys2Proof.Machine

theorem drawPixel_of_outside {x y : Nat} (h : 128 ≤ x ∨ 64 ≤ y) (c : Color) (m : Memory) : drawPixel x y c m = m :=
  if_pos h

/-- Any byte of the framebuffer after one pixel write inside the panel (R106). -/
theorem fbRead_drawPixel {x y : Nat} (hx : x < 128) (hy : y < 64) (c : Color) (m : Memory) (a : Nat) :
    fbRead (drawPixel x y c m) a =
      if a = pixelIndex x y then paintBit (fbRead m (pixelIndex x y)) (pixelBit y) c else fbRead m a := by
  have inside : ¬ (Config.W ≤ x ∨ Config.H ≤ y) := not_or.mpr ⟨hx.not_ge, hy.not_ge⟩
  rw [drawPixel, if_neg inside, fbRead_fbWrite]

/-- Settles O25: the pixel's byte has one bit painted, every other byte is kept. -/
theorem pixelWritesOneBit : Obligations.PixelWritesOneBit := by
  refine fun x y c s => ⟨_, rfl, rfl, fun out => drawPixel_of_outside out c s.fb, fun hx hy => ?_⟩
  have byte := fbRead_drawPixel hx hy c s.fb
  refine ⟨fun a other => (byte a).trans (if_neg other), fun b => ?_⟩
  have painted := (byte (pixelIndex x.toNat y.toNat)).trans (if_pos rfl)
  exact (congrArg (·.getLsbD b) painted).trans (getLsbD_paintBit _ _ b c (Nat.mod_lt _ (by decide)))

theorem fillByte_eq_ite (c : Color) : fillByte c = if c = .white then 0xFF#8 else 0x00#8 := by
  cases c <;> rfl

/-- Settles O24: each byte of a filled framebuffer is the fill byte of the colour. -/
theorem fillSetsEveryByte : Obligations.FillSetsEveryByte := by
  refine fun c s => ⟨_, rfl, by simp only [finish], fun i hi => ?_⟩
  rw [finish_fb, fbRead_fillFrame c hi, fillByte_eq_ite]

/-- Settles O26: zero extension of a field to its register keeps the value. -/
theorem cursorSetStoresPosition : Obligations.CursorSetStoresPosition :=
  fun _ _ _ => ⟨_, rfl, BitVec.toNat_setWidth_of_le (by decide), BitVec.toNat_setWidth_of_le (by decide), rfl⟩

end Sys2Proof.Machine
end

section
/-! PROOFS. The cell blit (R113) and WR.CHAR (R114, R118): where a character goes, and what its cell leaves drawn. -/

namespace Sys2Proof.Machine

/-! ## The cell blit (R47, R113) -/

/-- Columns past 15 are unset (R47). -/
theorem columnColor_eq_ite (r : PixelRow) (j : Nat) (c : Color) :
    columnColor r j c = if j ≤ 15 ∧ r.getLsbD (15 - j) = true then c else c.complement := by
  by_cases hj : j ≤ 15 <;> simp [columnColor, rowColumn, hj]

theorem blitRow_succ (r : PixelRow) (w x0 y0 : Nat) (c : Color) (m : Memory) :
    blitRow r (w + 1) x0 y0 c m = drawPixel (x0 + w) y0 (columnColor r w c) (blitRow r w x0 y0 c m) := by
  simp [blitRow, List.range_succ]

/-- Any pixel of the panel after one row of a cell (R113). -/
theorem pixel_blitRow (r : PixelRow) (w x0 y0 : Nat) (c : Color) (m : Memory) {x y : Nat} (hx : x < 128) (hy : y < 64) :
    pixel (blitRow r w x0 y0 c m) x y =
      if x0 ≤ x ∧ x < x0 + w ∧ y = y0 then decide (columnColor r (x - x0) c = .white) else pixel m x y := by
  induction w with
  | zero =>
    have outside : ¬ (x0 ≤ x ∧ x < x0 + 0 ∧ y = y0) := by omega
    rw [if_neg outside]
    rfl
  | succ w ih =>
    rw [blitRow_succ, pixel_drawPixel _ _ _ _ hx hy, ih]
    by_cases last : x = x0 + w ∧ y = y0
    · have inside : x0 ≤ x ∧ x < x0 + (w + 1) ∧ y = y0 := by omega
      have column : x - x0 = w := by omega
      rw [if_pos last, if_pos inside, column]
    · have same : (x0 ≤ x ∧ x < x0 + w ∧ y = y0) ↔ (x0 ≤ x ∧ x < x0 + (w + 1) ∧ y = y0) := by omega
      rw [if_neg last]
      simp only [same]

/-- A cell is its first row and, one line below, the cell of the other rows (R113). -/
theorem CellDrawn.cons {r : PixelRow} {rs : List PixelRow} {w x0 y0 : Nat} {c : Color} {m m' : Memory}
    (h : CellDrawn rs w x0 (y0 + 1) c (blitRow r w x0 y0 c m) m') : CellDrawn (r :: rs) w x0 y0 c m m' := by
  intro x y hx hy
  rw [h x y hx hy, pixel_blitRow r w x0 y0 c m hx hy, columnColor_eq_ite]
  rcases Nat.lt_trichotomy y y0 with above | first | below
  · have hr : ¬ y = y0 := by omega
    have hs : ¬ y0 + 1 ≤ y := by omega
    have hc : ¬ y0 ≤ y := by omega
    simp [hr, hs, hc]
  · subst first
    simp
  · have hr : ¬ y = y0 := by omega
    have row : (r :: rs).getD (y - y0) 0#16 = rs.getD (y - (y0 + 1)) 0#16 := by
      rw [show y - y0 = y - (y0 + 1) + 1 by omega, List.getD_cons_succ]
    have same : (x0 ≤ x ∧ x < x0 + w ∧ y0 ≤ y ∧ y < y0 + (r :: rs).length) ↔
        (x0 ≤ x ∧ x < x0 + w ∧ y0 + 1 ≤ y ∧ y < y0 + 1 + rs.length) := by
      rw [List.length_cons]; omega
    simp only [row, same, hr, and_false, if_false]

/-- Settles O27: rows top to bottom by `CellDrawn.cons`, columns left to right by `pixel_blitRow`. -/
theorem blitDrawsExactlyTheCell : Obligations.BlitDrawsExactlyTheCell := by
  intro rows w x0 y0 c m
  induction rows generalizing y0 m with
  | nil =>
    intro x y _ _
    have empty : ¬ (x0 ≤ x ∧ x < x0 + w ∧ y0 ≤ y ∧ y < y0 + ([] : List PixelRow).length) := by
      rw [List.length_nil]; omega
    rw [if_neg empty]
    rfl
  | cons r rs ih => exact (ih _ _).cons

/-! ## Where a character goes (R114) -/

theorem charPlace_of_fits {w h : Nat} {cur : Cursor} (hx : cur.x.toNat + w ≤ 128) (hy : cur.y.toNat + h ≤ 64)
    (wrap : Bool) : charPlace w h wrap cur = some (cur.x.toNat, cur.y.toNat, cur.wc.toNat) := by
  simp [charPlace, hx.not_gt, hy.not_gt]

theorem charPlace_of_wraps {w h : Nat} {cur : Cursor} (hx : 128 < cur.x.toNat + w)
    (hy : (cur.yInit.toNat + h) * cur.wc.toNat + h ≤ 64) :
    charPlace w h true cur =
      some (cur.xInit.toNat, (cur.yInit.toNat + h) * cur.wc.toNat, cur.wc.toNat + 1) := by
  simp [charPlace, hx, hy.not_gt]

/-- The three ways a character does not fit: line full and no wrap, no line left to wrap to, no height left (R114). -/
theorem charPlace_of_full {w h : Nat} {wrap : Bool} {cur : Cursor}
    (full : (128 < cur.x.toNat + w ∧ wrap = false) ∨
      (128 < cur.x.toNat + w ∧ wrap = true ∧ 64 < (cur.yInit.toNat + h) * cur.wc.toNat + h) ∨
      (cur.x.toNat + w ≤ 128 ∧ 64 < cur.y.toNat + h)) : charPlace w h wrap cur = none := by
  rcases full with ⟨hx, rfl⟩ | ⟨hx, rfl, hy⟩ | ⟨hx, hy⟩
  · simp [charPlace, hx]
  · simp [charPlace, hx, hy]
  · simp [charPlace, hx.not_gt, hy]

/-- A cursor value that comes out of a 16-bit register is stored as it is (R18, R121). -/
@[simp] theorem trunc16_toNat (v : BitVec 16) : trunc16 v.toNat = v := by simp [trunc16]

theorem toNat_trunc16 {n : Nat} (h : n < 65536) : (trunc16 n).toNat = n := Nat.mod_eq_of_lt h

/-- The state after a character drawn at (`xn`, `yn`) with `wcn` for the next wrap counter (R114). -/
def drawnAt (f : Font) (ch : Byte) (c : Color) (xn yn wcn : Nat) (s : State) : State :=
  { s with
    fb := blitCell (glyphRows f ch s.draws) f.width.toNat xn yn c s.fb
    cur := { s.cur with x := trunc16 (xn + f.width.toNat), y := trunc16 yn, wc := trunc16 wcn }
    draws := s.draws + f.height.toNat }

theorem writeChar_of_place {f : Font} {wrap : Bool} {s : State} {xn yn wcn : Nat}
    (h : charPlace f.width.toNat f.height.toNat wrap s.cur = some (xn, yn, wcn)) (ch : Byte) (c : Color) :
    writeChar f ch wrap c s = some (drawnAt f ch c xn yn wcn s) := by
  simp only [writeChar, h, drawnAt]

theorem writeChar_of_full {f : Font} {wrap : Bool} {s : State}
    (h : charPlace f.width.toNat f.height.toNat wrap s.cur = none) (ch : Byte) (c : Color) :
    writeChar f ch wrap c s = none := by
  simp only [writeChar, h]

/-! ## WR.CHAR (R114, R118) -/

theorem exec_wrChar_of_drawn {font : BitVec 4} {s u : State} {f : Font} (hf : fontOf s.platform font = some f)
    {ch : Byte} {wrap : Bool} {c : Color} (h : writeChar f ch wrap c s = some u) :
    exec (.wrChar ch font wrap c) s = .next (finish { ret := ch } u) := by
  simp only [exec, execWrChar, hf, h]

theorem exec_wrChar_of_failed {font : BitVec 4} {s : State} {f : Font} (hf : fontOf s.platform font = some f)
    {ch : Byte} {wrap : Bool} {c : Color} (h : writeChar f ch wrap c s = none) :
    exec (.wrChar ch font wrap c) s = .next (finish (noSpaceRes Config.failSentinel) s) := by
  simp only [exec, execWrChar, hf, h]

theorem exec_wrChar_of_missing {font : BitVec 4} {s : State} (hf : fontOf s.platform font = none) (ch : Byte)
    (wrap : Bool) (c : Color) : exec (.wrChar ch font wrap c) s = .next (finishUsage s) := by
  simp only [exec, execWrChar, hf]

/-- Settles O29: the cell by O27 at the place `charPlace` gives; only `x` and `wc` after a wrap may be truncated. -/
theorem characterIsDrawnWrappedOrFails : Obligations.CharacterIsDrawnWrappedOrFails := by
  intro ch font wrap c s f hf
  refine ⟨fun hx hy => ?_, fun hx hw hy => ?_, fun full => ?_⟩
  · have drawn := writeChar_of_place (charPlace_of_fits hx hy wrap) ch c
    refine ⟨_, exec_wrChar_of_drawn hf drawn, blitDrawsExactlyTheCell _ _ _ _ _ _, toNat_trunc16 (by omega), ?_⟩
    simp only [drawnAt, finish, trunc16_toNat]
  · subst hw
    have drawn := writeChar_of_place (charPlace_of_wraps hx hy) ch c
    have line := toNat_trunc16 (n := (s.cur.yInit.toNat + f.height.toNat) * s.cur.wc.toNat) (by omega)
    exact ⟨_, exec_wrChar_of_drawn hf drawn, blitDrawsExactlyTheCell _ _ _ _ _ _, rfl, line, rfl, rfl⟩
  · exact exec_wrChar_of_failed hf (writeChar_of_full (charPlace_of_full full) ch c)

/-- A WR.CHAR that reports `InsufficientSpace` writes `RES` and ends, nothing else (R118). -/
theorem exec_wrChar_of_noSpace {ch : Byte} {font : BitVec 4} {wrap : Bool} {c : Color} {s t : State}
    (h : exec (.wrChar ch font wrap c) s = .next t) (hr : t.res.noSpace = true) : t = finish t.res s := by
  cases hf : fontOf s.platform font with
  | none =>
    obtain rfl := Host.Outcome.next.inj ((exec_wrChar_of_missing hf ch wrap c).symm.trans h)
    rfl
  | some f =>
    cases hu : writeChar f ch wrap c s with
    | none =>
      obtain rfl := Host.Outcome.next.inj ((exec_wrChar_of_failed hf hu).symm.trans h)
      rfl
    | some u =>
      obtain rfl := Host.Outcome.next.inj ((exec_wrChar_of_drawn hf hu).symm.trans h)
      exact absurd hr Bool.false_ne_true

end Sys2Proof.Machine
end

section
/-! PROOFS. WR.STR (R115): the characters one after another, as the state may read them (R59), and how the string
stands after them (R192, log 16). -/

namespace Sys2Proof.Machine

/-! ## One character of a string (R115) -/

/-- The address after `a` and `n` more is the address `n + 1` after `a`, modulo 65536 (R49). -/
theorem add_one_add_ofNat (a : BitVec 16) (n : Nat) : a + 1#16 + BitVec.ofNat 16 n = a + BitVec.ofNat 16 (n + 1) := by
  rw [BitVec.add_assoc, ← BitVec.ofNat_add, Nat.add_comm]

/-- No character drawn yet: the string goes on where it stands (R192). -/
theorem runString_zero (f : Font) (r : StringRun) (s : State) :
    runString f r 0 s = { s with busy := true, running := some { r with addr := r.addr + BitVec.ofNat 16 0 } } := rfl

/-- The string ends at its terminator (R115). -/
theorem runString_of_terminator {r : StringRun} {s : State} (h : operandByte s r.addr = 0x00#8) (f : Font) (n : Nat) :
    runString f r (n + 1) s = finish { ret := 0x00#8 } (afterRead r.addr s) := by
  simp only [runString, writeChars, h, if_true]

/-- The string ends at a character that does not fit, and returns it (R115). -/
theorem runString_of_failed {f : Font} {r : StringRun} {s : State} (hch : operandByte s r.addr ≠ 0x00#8)
    (h : writeChar f (operandByte s r.addr) r.wrap r.color (afterRead r.addr s) = none) (n : Nat) :
    runString f r (n + 1) s = finish (noSpaceRes (operandByte s r.addr)) (afterRead r.addr s) := by
  simp only [runString, writeChars, if_neg hch, h]

/-- A character drawn, the string goes on at the next address (R115). -/
theorem runString_of_drawn {f : Font} {r : StringRun} {s s' : State} (hch : operandByte s r.addr ≠ 0x00#8)
    (h : writeChar f (operandByte s r.addr) r.wrap r.color (afterRead r.addr s) = some s') (n : Nat) :
    runString f r (n + 1) s = runString f { r with addr := r.addr + 1#16 } n s' := by
  simp only [runString, writeChars, if_neg hch, h, add_one_add_ofNat]

/-! ## A string whose bytes stand still (R49, R115) -/

theorem HoldsBytes.head {s : State} {a : BitVec 16} {b : Byte} {bs : List Byte} (h : HoldsBytes s a (b :: bs)) :
    operandByte s a = b ∧ afterRead a s = s := by
  obtain ⟨byte, stable⟩ := h 0 (Nat.succ_pos _)
  rw [BitVec.add_zero] at byte stable
  exact ⟨(operandByte_of_stable stable).trans byte, afterRead_of_stable stable⟩

theorem HoldsBytes.tail {s : State} {a : BitVec 16} {b : Byte} {bs : List Byte} (h : HoldsBytes s a (b :: bs)) :
    HoldsBytes s (a + 1#16) bs := by
  intro i hi
  rw [add_one_add_ofNat]
  exact h (i + 1) (Nat.succ_lt_succ hi)

/-- A drawn character leaves operand memory and its earlier values as they were (R114). -/
theorem HoldsBytes.after_writeChar {f : Font} {ch : Byte} {wrap : Bool} {c : Color} {s s' : State} {a : BitVec 16}
    {bs : List Byte} (h : HoldsBytes s a bs) (hd : writeChar f ch wrap c s = some s') : HoldsBytes s' a bs := by
  rw [writeChar_frame hd]
  exact h

/-- The characters that stand in memory and are drawn bring the string to the bytes after them (R115). -/
theorem runString_of_charsDrawn {f : Font} {r : StringRun} {cs rest : List Byte} {s t : State} (hcs : 0x00#8 ∉ cs)
    (hd : CharsDrawn f r.wrap r.color cs s t) (hb : HoldsBytes s r.addr (cs ++ rest)) (n : Nat) :
    ∃ a, HoldsBytes t a rest ∧ runString f r (n + cs.length) s = runString f { r with addr := a } n t := by
  induction cs generalizing r s with
  | nil => cases hd; exact ⟨r.addr, hb, rfl⟩
  | cons ch cs ih =>
    obtain ⟨hch, hcs⟩ := List.ne_and_not_mem_of_not_mem_cons hcs
    obtain ⟨byte, still⟩ := hb.head
    cases hd with
    | cons hd hds =>
      obtain ⟨a, hrest, run⟩ := ih (r := { r with addr := r.addr + 1#16 }) hcs hds (hb.tail.after_writeChar hd)
      refine ⟨a, hrest, ?_⟩
      rw [List.length_cons, ← Nat.add_assoc, runString_of_drawn (byte ▸ hch.symm) (by rw [byte, still]; exact hd), run]

/-! ## A string whose bytes change (R59, U8, log 12) -/

theorem StringStep.ofTerminator {r : StringRun} {s : State} (h : CanRead s r.addr 0x00#8) (f : Font) (n d : Nat) :
    StringStep f r (n + 1) s (finish { ret := 0x00#8 } { s with draws := d }) :=
  ⟨[], s, d, .nil, .inl ⟨Nat.succ_pos n, (BitVec.add_zero r.addr).symm ▸ h, rfl⟩⟩

theorem StringStep.ofFailed {f : Font} {r : StringRun} {s : State} {ch : Byte} {d : Nat} (hch : ch ≠ 0x00#8)
    (hr : CanRead s r.addr ch) (h : writeChar f ch r.wrap r.color { s with draws := d } = none) (n : Nat) :
    StringStep f r (n + 1) s (finish (noSpaceRes ch) { s with draws := d }) :=
  ⟨[], s, d, .nil, .inr (.inl ⟨Nat.succ_pos n, ch, hch, (BitVec.add_zero r.addr).symm ▸ hr, h, rfl⟩)⟩

/-- One more character in front of a string step (R115). -/
theorem StringStep.cons {f : Font} {r : StringRun} {n : Nat} {s s' u : State} {ch : Byte} {d : Nat} (hch : ch ≠ 0x00#8)
    (hr : CanRead s r.addr ch) (hd : writeChar f ch r.wrap r.color { s with draws := d } = some s')
    (h : StringStep f { r with addr := r.addr + 1#16 } n s' u) : StringStep f r (n + 1) s u := by
  obtain ⟨cs, t, e, read, stands⟩ := h
  simp only [add_one_add_ofNat] at stands
  refine ⟨ch :: cs, t, e, .cons d hr hch hd read, ?_⟩
  simpa only [List.length_cons, Nat.add_lt_add_iff_right, Nat.add_right_cancel_iff] using stands

/-- Every byte is read as a value it may be read as, so the string stands where `StringStep` says (R59, R115, R192). -/
theorem runString_step (f : Font) (r : StringRun) (n : Nat) (s : State) : StringStep f r n s (runString f r n s) := by
  induction n generalizing r s with
  | zero => exact ⟨[], s, 0, .nil, .inr (.inr ⟨rfl, runString_zero f r s⟩)⟩
  | succ n ih =>
    have read := operandByte_canRead s r.addr
    have counted := afterRead_frame r.addr s
    by_cases hch : operandByte s r.addr = 0x00#8
    · rw [runString_of_terminator hch, counted]
      exact .ofTerminator (hch ▸ read) f n _
    · cases hd : writeChar f (operandByte s r.addr) r.wrap r.color (afterRead r.addr s) with
      | none =>
        rw [runString_of_failed hch hd]
        rw [counted] at hd ⊢
        exact .ofFailed hch read hd n
      | some s' =>
        rw [runString_of_drawn hch hd]
        rw [counted] at hd
        exact .cons hch read hd (ih _ s')

/-! ## WR.STR and the event `pass` (R115, R192) -/

theorem exec_wrStr_of_installed {font : BitVec 4} {s : State} {f : Font} (hf : fontOf s.platform font = some f)
    (addr : BitVec 16) (wrap : Bool) (c : Color) :
    exec (.wrStr addr font wrap c) s = .next (runString f { font := font, wrap := wrap, color := c, addr := addr } 65536
      (beginString s)) := by
  simp only [exec, execWrStr, hf]

theorem continueString_of_running {s : State} {r : StringRun} {f : Font} (hr : s.running = some r)
    (hf : fontOf s.platform r.font = some f) (n : Nat) :
    continueString n s = runString f r n { s with running := none } := by
  simp only [continueString, hr, hf]

/-- The event `pass` draws up to `n` further characters of the string in progress (R192, log 16). -/
theorem step_pass {s : State} {r : StringRun} {f : Font} {n : Nat} {rest : List HostEvent} (hr : s.running = some r)
    (hf : fontOf s.platform r.font = some f) (hi : s.inbox = .pass n :: rest) :
    step s = .next (settle (runString f r n { s with inbox := rest, running := none })) := by
  have goes := continueString_of_running (s := { s with inbox := rest }) hr hf n
  rw [step_of_event hi, handle, goes]

/-- Settles O30: the characters that stand still by `runString_of_charsDrawn`, the others by `runString_step`. -/
theorem stringIsDrawnInOrder : Obligations.StringIsDrawnInOrder := by
  refine ⟨fun addr font wrap c s t f cs hf hcs hlen hd => ?_, fun addr font wrap c s f hf => ?_,
    fun s r f n rest hr hf hi => ?_⟩
  · have bound : 65536 = 65536 - cs.length - 1 + 1 + cs.length := by omega
    have run (rest : List Byte) (hb : HoldsBytes s addr (cs ++ rest)) :=
      runString_of_charsDrawn (r := { font := font, wrap := wrap, color := c, addr := addr }) (s := beginString s)
        hcs hd hb (65536 - cs.length - 1 + 1)
    rw [exec_wrStr_of_installed hf, bound]
    refine ⟨fun hb => ?_, fun ch hch hb hfail => ?_⟩
    · obtain ⟨a, hrest, hrun⟩ := run _ hb
      obtain ⟨byte, still⟩ := hrest.head
      rw [hrun, runString_of_terminator byte, still]
      rfl
    · obtain ⟨a, hrest, hrun⟩ := run _ hb
      obtain ⟨byte, still⟩ := hrest.head
      rw [hrun, runString_of_failed (byte ▸ hch) (by rw [byte, still]; exact hfail), byte, still]
      rfl
  · exact ⟨_, exec_wrStr_of_installed hf addr wrap c, runString_step f _ _ _⟩
  · exact ⟨_, runString_step f r n _, by rw [step_pass hr hf hi, settle_eq]⟩

end Sys2Proof.Machine
end

section
/-! PROOFS. WR.IMG (R116): the sections side by side, and the failure that only records (C2); that a failed drawing
leaves no pixel (R118). -/

namespace Sys2Proof.Machine

/-! ## The sections of a sprite (R46, R116) -/

/-- `SpriteDrawn` for the first `n` sections. -/
def SectionsDrawn (sp : Sprite) (draws n x0 y0 : Nat) (c : Color) (m m' : Memory) : Prop :=
  ∀ x y, x < 128 → y < 64 →
    pixel m' x y =
      if x0 ≤ x ∧ x < x0 + sp.width.toNat * n ∧ y0 ≤ y ∧ y < y0 + sp.height.toNat then
        decide ((if (x - x0) % sp.width.toNat ≤ 15 ∧
            ((sectionRows sp ((x - x0) / sp.width.toNat) draws).getD (y - y0) 0#16).getLsbD
              (15 - (x - x0) % sp.width.toNat) = true
          then c else c.complement) = Color.white)
      else pixel m x y

theorem spriteDrawn_iff {sp : Sprite} {draws x0 y0 : Nat} {c : Color} {m m' : Memory} :
    SpriteDrawn sp draws x0 y0 c m m' ↔ SectionsDrawn sp draws sp.sections.toNat x0 y0 c m m' := Iff.rfl

/-- One more section to the right of `n` (R116). -/
theorem SectionsDrawn.succ {sp : Sprite} {draws n x0 y0 : Nat} {c : Color} {m m' m'' : Memory}
    (h : SectionsDrawn sp draws n x0 y0 c m m')
    (hc : CellDrawn (sectionRows sp n draws) sp.width.toNat (x0 + sp.width.toNat * n) y0 c m' m'') :
    SectionsDrawn sp draws (n + 1) x0 y0 c m m'' := by
  intro x y hx hy
  rw [hc x y hx hy, h x y hx hy, sectionRows_length, Nat.mul_succ]
  by_cases right : x0 + sp.width.toNat * n ≤ x ∧ x < x0 + sp.width.toNat * n + sp.width.toNat
  · obtain ⟨j, hj⟩ := Nat.exists_eq_add_of_le right.1
    have hjw : j < sp.width.toNat := by omega
    have column : x - x0 = j + sp.width.toNat * n := by omega
    have left : ¬ x < x0 + sp.width.toNat * n := by omega
    have range : x0 ≤ x ∧ x < x0 + (sp.width.toNat * n + sp.width.toNat) := by omega
    have offset : x - (x0 + sp.width.toNat * n) = j := by omega
    have hmod : (x - x0) % sp.width.toNat = j := by rw [column, Nat.add_mul_mod_self_left, Nat.mod_eq_of_lt hjw]
    have hdiv : (x - x0) / sp.width.toNat = n := by
      rw [column, Nat.add_mul_div_left _ _ (by omega), Nat.div_eq_of_lt hjw, Nat.zero_add]
    simp only [hmod, hdiv, offset, right, left, range, true_and, false_and, and_false, if_false]
  · have same : (x0 ≤ x ∧ x < x0 + (sp.width.toNat * n + sp.width.toNat) ∧ y0 ≤ y ∧ y < y0 + sp.height.toNat) ↔
        (x0 ≤ x ∧ x < x0 + sp.width.toNat * n ∧ y0 ≤ y ∧ y < y0 + sp.height.toNat) := by omega
    have outside : ¬ (x0 + sp.width.toNat * n ≤ x ∧ x < x0 + sp.width.toNat * n + sp.width.toNat ∧
        y0 ≤ y ∧ y < y0 + sp.height.toNat) := fun e => right ⟨e.1, e.2.1⟩
    rw [if_neg outside]
    simp only [same]

theorem blitSections_succ (sp : Sprite) (y : Nat) (c : Color) (draws n : Nat) (m : Memory) (x : BitVec 16) :
    blitSections sp y c draws (n + 1) m x =
      (blitCell (sectionRows sp n draws) sp.width.toNat (blitSections sp y c draws n m x).2.toNat y c
        (blitSections sp y c draws n m x).1,
       trunc16 ((blitSections sp y c draws n m x).2.toNat + sp.width.toNat)) := by
  simp [blitSections, List.range_succ]

/-- While no store of `Cur.x` is truncated, each section stands right of the one before (R116, R121). -/
theorem blitSections_drawn (sp : Sprite) (y : Nat) (c : Color) (draws : Nat) (m : Memory) (x : BitVec 16) {n : Nat}
    (hn : x.toNat + sp.width.toNat * n < 65536) :
    SectionsDrawn sp draws n x.toNat y c m (blitSections sp y c draws n m x).1 ∧
      (blitSections sp y c draws n m x).2.toNat = x.toNat + sp.width.toNat * n := by
  induction n with
  | zero =>
    refine ⟨fun x' y' _ _ => ?_, rfl⟩
    have empty : ¬ (x.toNat ≤ x' ∧ x' < x.toNat + sp.width.toNat * 0 ∧ y ≤ y' ∧ y' < y + sp.height.toNat) := by omega
    rw [if_neg empty]
    rfl
  | succ n ih =>
    rw [Nat.mul_succ, ← Nat.add_assoc] at hn
    obtain ⟨drawn, place⟩ := ih (by omega)
    rw [blitSections_succ, place, Nat.mul_succ, ← Nat.add_assoc]
    exact ⟨drawn.succ (blitDrawsExactlyTheCell _ _ _ _ _ _), toNat_trunc16 hn⟩

/-! ## WR.IMG (R116, R118) -/

theorem imageFits_iff {sp : Sprite} {cur : Cursor} :
    imageFits sp cur = true ↔ cur.x.toNat + sp.width.toNat ≤ 128 ∧ cur.y.toNat + sp.height.toNat ≤ 64 := by
  simp [imageFits]

theorem exec_wrImg_of_fits {k : BitVec 4} {s : State} {sp : Sprite} (hk : spriteOf s.platform k = some sp)
    (h : imageFits sp s.cur = true) (c : Color) :
    exec (.wrImg k c) s = .next (finish {} (drawImage sp c (beginImage k s))) := by
  simp only [exec, execWrImg, hk, writeImg, if_pos h, Bool.false_eq_true, if_false]

theorem exec_wrImg_of_failed {k : BitVec 4} {s : State} {sp : Sprite} (hk : spriteOf s.platform k = some sp)
    (h : ¬ imageFits sp s.cur = true) (c : Color) :
    exec (.wrImg k c) s = .next (finish (noSpaceRes 0#8) (beginImage k s)) := by
  simp only [exec, execWrImg, hk, writeImg, if_neg h, if_true]

theorem exec_wrImg_of_missing {k : BitVec 4} {s : State} (hk : spriteOf s.platform k = none) (c : Color) :
    exec (.wrImg k c) s = .next (finishUsage s) := by
  simp only [exec, execWrImg, hk]

/-- The sections of a sprite of which one fits end below 65536: no store of `Cur.x` is truncated (R116, R121). -/
theorem sections_end_lt {sp : Sprite} {x : Nat} (h : x + sp.width.toNat ≤ 128) :
    x + sp.width.toNat * sp.sections.toNat < 65536 := by
  have product : sp.width.toNat * sp.sections.toNat ≤ 128 * 255 :=
    Nat.mul_le_mul (by omega) (Nat.le_of_lt_succ sp.sections.isLt)
  omega

/-- Settles O33: the sections by `blitSections_drawn` from the recorded state, or the recorded state alone. -/
theorem imageIsDrawnOrOnlyRecorded : Obligations.ImageIsDrawnOrOnlyRecorded := by
  refine fun k c s sp hk => ⟨fun hx hy => ?_, fun full => ?_⟩
  · obtain ⟨drawn, place⟩ := blitSections_drawn sp s.cur.y.toNat c s.draws s.fb s.cur.x (sections_end_lt hx)
    exact ⟨_, exec_wrImg_of_fits hk (imageFits_iff.mpr ⟨hx, hy⟩) c, spriteDrawn_iff.mpr drawn, place, rfl⟩
  · have fails : ¬ imageFits sp s.cur = true := by rw [imageFits_iff]; omega
    exact exec_wrImg_of_failed hk fails c

/-- A WR.IMG that reports `InsufficientSpace` writes the origin, `LastSprite` and `RES` and ends (R118, C2). -/
theorem exec_wrImg_of_noSpace {k : BitVec 4} {c : Color} {s t : State} (h : exec (.wrImg k c) s = .next t)
    (hr : t.res.noSpace = true) : t = finish t.res (beginImage k s) := by
  cases hk : spriteOf s.platform k with
  | none =>
    obtain rfl := Host.Outcome.next.inj ((exec_wrImg_of_missing hk c).symm.trans h)
    exact absurd hr Bool.false_ne_true
  | some sp =>
    by_cases fits : imageFits sp s.cur = true
    · obtain rfl := Host.Outcome.next.inj ((exec_wrImg_of_fits hk fits c).symm.trans h)
      exact absurd hr Bool.false_ne_true
    · obtain rfl := Host.Outcome.next.inj ((exec_wrImg_of_failed hk fits c).symm.trans h)
      rfl

/-- Settles O35: what a failed WR.CHAR and a failed WR.IMG write holds no pixel and no position. -/
theorem failedDrawingLeavesNoPixel : Obligations.FailedDrawingLeavesNoPixel := by
  refine fun s t => ⟨fun ch font wrap c h hr => ?_, fun k c h hr => ?_⟩
  · rw [exec_wrChar_of_noSpace h hr]
    exact ⟨rfl, rfl⟩
  · rw [exec_wrImg_of_noSpace h hr]
    exact ⟨rfl, rfl, rfl, rfl⟩

end Sys2Proof.Machine
end

section
/-! PROOFS. Why 65536 characters are enough (R192, log 16). The cursor moves alike for every character, and a character
that does not move it for ever raises the bounded measure `progress`; so a string that has not ended by then stands at a
cursor where every further character fits, and has read every byte of a memory that holds still. -/

namespace Sys2Proof.Machine

/-! ## The cursor under the characters of a string (R114) -/

/-- Where every character fits and leaves the cursor so: the font of width 0 that fits at the cursor, and with wrap
enabled the font of height 0 on a run begun at `y = 0` (R192). -/
def Cursor.FitsForever (f : Font) (wrap : Bool) (cur : Cursor) : Prop :=
  (f.width.toNat = 0 ∧ cur.x.toNat ≤ 128 ∧ cur.y.toNat + f.height.toNat ≤ 64) ∨
    (wrap = true ∧ f.height.toNat = 0 ∧ cur.yInit.toNat = 0 ∧ cur.y.toNat ≤ 64)

/-- Lines begun and, within the line, columns used up. -/
def Cursor.progress (cur : Cursor) : Nat := 129 * cur.wc.toNat + min cur.x.toNat 128

/-- After `k` characters: every further one fits, or `k` steps of progress are made and the lines fit the panel. -/
def Cursor.After (f : Font) (wrap : Bool) (k : Nat) (cur : Cursor) : Prop :=
  cur.FitsForever f wrap ∨ (cur.wc.toNat ≤ 65 ∧ k ≤ cur.progress)

/-- A character is drawn at the cursor or after a wrap, whatever its code (R114). -/
theorem writeChar_cursor {f : Font} {ch : Byte} {wrap : Bool} {c : Color} {s s' : State}
    (h : writeChar f ch wrap c s = some s') :
    (s.cur.x.toNat + f.width.toNat ≤ 128 ∧ s.cur.y.toNat + f.height.toNat ≤ 64 ∧
      s'.cur = { s.cur with x := trunc16 (s.cur.x.toNat + f.width.toNat) }) ∨
    (128 < s.cur.x.toNat + f.width.toNat ∧ wrap = true ∧
      (s.cur.yInit.toNat + f.height.toNat) * s.cur.wc.toNat + f.height.toNat ≤ 64 ∧
      s'.cur = { s.cur with
        x := trunc16 (s.cur.xInit.toNat + f.width.toNat)
        y := trunc16 ((s.cur.yInit.toNat + f.height.toNat) * s.cur.wc.toNat)
        wc := trunc16 (s.cur.wc.toNat + 1) }) := by
  have fails (full : charPlace f.width.toNat f.height.toNat wrap s.cur = none) : False :=
    nomatch (writeChar_of_full full ch c).symm.trans h
  by_cases hx : 128 < s.cur.x.toNat + f.width.toNat
  · cases wrap with
    | false => exact (fails (charPlace_of_full (.inl ⟨hx, rfl⟩))).elim
    | true =>
      by_cases hy : 64 < (s.cur.yInit.toNat + f.height.toNat) * s.cur.wc.toNat + f.height.toNat
      · exact (fails (charPlace_of_full (.inr (.inl ⟨hx, rfl, hy⟩)))).elim
      · have hy := Nat.le_of_not_lt hy
        obtain rfl := Option.some.inj ((writeChar_of_place (charPlace_of_wraps hx hy) ch c).symm.trans h)
        exact .inr ⟨hx, rfl, hy, rfl⟩
  · have hx := Nat.le_of_not_lt hx
    by_cases hy : 64 < s.cur.y.toNat + f.height.toNat
    · exact (fails (charPlace_of_full (.inr (.inr ⟨hx, hy⟩)))).elim
    · have hy := Nat.le_of_not_lt hy
      obtain rfl := Option.some.inj ((writeChar_of_place (charPlace_of_fits hx hy wrap) ch c).symm.trans h)
      exact .inl ⟨hx, hy, by simp only [drawnAt, trunc16_toNat]⟩

/-- Where every character fits, the next one does (R192). -/
theorem Cursor.FitsForever.exists_writeChar {f : Font} {wrap : Bool} {s : State} (h : s.cur.FitsForever f wrap)
    (ch : Byte) (c : Color) : ∃ s', writeChar f ch wrap c s = some s' := by
  rcases h with ⟨hw, hx, hy⟩ | ⟨rfl, hh, hyi, hy⟩
  · exact ⟨_, writeChar_of_place (charPlace_of_fits (by omega) hy wrap) ch c⟩
  · by_cases hx : s.cur.x.toNat + f.width.toNat ≤ 128
    · exact ⟨_, writeChar_of_place (charPlace_of_fits hx (by omega) true) ch c⟩
    · exact ⟨_, writeChar_of_place (charPlace_of_wraps (Nat.lt_of_not_le hx) (by simp [hyi, hh])) ch c⟩

/-- And it leaves the cursor where every further one fits (R192). -/
theorem Cursor.FitsForever.after_writeChar {f : Font} {ch : Byte} {wrap : Bool} {c : Color} {s s' : State}
    (h : s.cur.FitsForever f wrap) (hd : writeChar f ch wrap c s = some s') : s'.cur.FitsForever f wrap := by
  rcases h with ⟨hw, hx, hy⟩ | ⟨rfl, hh, hyi, hy⟩ <;>
    rcases writeChar_cursor hd with ⟨-, -, moved⟩ | ⟨full, -, -, moved⟩
  · rw [moved, hw, Nat.add_zero, trunc16_toNat]
    exact .inl ⟨hw, hx, hy⟩
  · omega
  · rw [moved]
    exact .inr ⟨rfl, hh, hyi, hy⟩
  · rw [moved, hyi, hh, Nat.zero_add, Nat.zero_mul]
    exact .inr ⟨rfl, hh, hyi, Nat.zero_le _⟩

/-- A wrap that succeeds counts a line of the panel, or it is one of a font of height 0 on a run begun at `y = 0`. -/
theorem wrapCounter_le {y h wc : Nat} (fits : (y + h) * wc + h ≤ 64) : wc ≤ 64 ∨ (h = 0 ∧ y = 0) := by
  by_cases flat : y + h = 0
  · exact .inr (by omega)
  · have : 1 * wc ≤ (y + h) * wc := Nat.mul_le_mul_right wc (by omega)
    exact .inl (by omega)

/-- Each character drawn makes a step of progress, or no further one will fail (R114, R192). -/
theorem Cursor.After.succ {f : Font} {ch : Byte} {wrap : Bool} {c : Color} {k : Nat} {s s' : State}
    (h : s.cur.After f wrap k) (hd : writeChar f ch wrap c s = some s') : s'.cur.After f wrap (k + 1) := by
  rcases h with forever | ⟨hwc, hk⟩
  · exact .inl (forever.after_writeChar hd)
  · unfold Cursor.progress at hk
    rcases writeChar_cursor hd with ⟨hx, hy, moved⟩ | ⟨hx, rfl, hy, moved⟩
    · by_cases hw : f.width.toNat = 0
      · exact .inl (Cursor.FitsForever.after_writeChar (.inl ⟨hw, by omega, hy⟩) hd)
      · rw [moved]
        refine .inr ⟨hwc, ?_⟩
        simp only [Cursor.progress, toNat_trunc16 (show s.cur.x.toNat + f.width.toNat < 65536 by omega)]
        omega
    · rw [moved]
      rcases wrapCounter_le hy with lines | ⟨hh, hyi⟩
      · refine .inr ?_
        simp only [Cursor.progress, toNat_trunc16 (show s.cur.wc.toNat + 1 < 65536 by omega)]
        omega
      · rw [hyi, hh, Nat.zero_add, Nat.zero_mul]
        exact .inl (.inr ⟨rfl, hh, hyi, Nat.zero_le _⟩)

/-- The panel has room for `129 * 65 + 128` steps of progress: after more characters, every further one fits. -/
theorem Cursor.After.forever {f : Font} {wrap : Bool} {k : Nat} {cur : Cursor} (h : cur.After f wrap k)
    (hk : 129 * 65 + 128 < k) : cur.FitsForever f wrap := by
  rcases h with forever | ⟨hwc, made⟩
  · exact forever
  · unfold Cursor.progress at made
    omega

/-! ## Strings that go on while operand memory holds still (R115, R192) -/

theorem operandByte_of_settled {s : State} (hs : s.stale = []) (a : BitVec 16) : operandByte s a = opmRead s.opm a :=
  operandByte_of_stable (by simp [hs])

theorem afterRead_of_settled {s : State} (hs : s.stale = []) (a : BitVec 16) : afterRead a s = s :=
  afterRead_of_stable (by simp [hs])

theorem writeChar_stale {f : Font} {ch : Byte} {wrap : Bool} {c : Color} {s s' : State}
    (h : writeChar f ch wrap c s = some s') : s'.stale = s.stale := by
  rw [writeChar_frame h]

theorem writeChar_opm {f : Font} {ch : Byte} {wrap : Bool} {c : Color} {s s' : State}
    (h : writeChar f ch wrap c s = some s') : s'.opm = s.opm := by
  rw [writeChar_frame h]

/-- A character drawn, the others follow at the next address (R115). -/
theorem writeChars_of_drawn {f : Font} {wrap : Bool} {c : Color} {a : BitVec 16} {s s' : State} (hs : s.stale = [])
    (hch : opmRead s.opm a ≠ 0x00#8) (hd : writeChar f (opmRead s.opm a) wrap c s = some s') (n : Nat) :
    writeChars f wrap c (n + 1) a s = writeChars f wrap c n (a + 1#16) s' := by
  simp only [writeChars, operandByte_of_settled hs, afterRead_of_settled hs, if_neg hch, hd]

/-- A string that goes on after a character has drawn it, and goes on from the next address (R115). -/
theorem drawn_of_goesOn {f : Font} {wrap : Bool} {c : Color} {a : BitVec 16} {s : State} {n : Nat} (hs : s.stale = [])
    (h : (writeChars f wrap c (n + 1) a s).1 = .goesOn) :
    opmRead s.opm a ≠ 0x00#8 ∧ ∃ s', writeChar f (opmRead s.opm a) wrap c s = some s' ∧
      (writeChars f wrap c n (a + 1#16) s').1 = .goesOn := by
  by_cases hch : opmRead s.opm a = 0x00#8
  · simp [writeChars, operandByte_of_settled hs, hch] at h
  · cases hd : writeChar f (opmRead s.opm a) wrap c s with
    | none => simp [writeChars, operandByte_of_settled hs, afterRead_of_settled hs, hch, hd] at h
    | some s' => exact ⟨hch, s', rfl, writeChars_of_drawn hs hch hd n ▸ h⟩

/-- A string that goes on has read no terminator (R115). -/
theorem noTerminator_of_goesOn {f : Font} {wrap : Bool} {c : Color} {a : BitVec 16} {s : State} {n : Nat}
    (hs : s.stale = []) (h : (writeChars f wrap c n a s).1 = .goesOn) {i : Nat} (hi : i < n) :
    opmRead s.opm (a + BitVec.ofNat 16 i) ≠ 0x00#8 := by
  induction n generalizing a s i with
  | zero => exact absurd hi (Nat.not_lt_zero i)
  | succ n ih =>
    obtain ⟨hch, s', hd, goes⟩ := drawn_of_goesOn hs h
    cases i with
    | zero => rwa [BitVec.add_zero]
    | succ i =>
      rw [← add_one_add_ofNat, ← writeChar_opm hd]
      exact ih ((writeChar_stale hd).trans hs) goes (Nat.lt_of_succ_lt_succ hi)

/-- 65536 characters read every byte of operand memory (R49, log 16). -/
theorem noTerminator_anywhere {f : Font} {wrap : Bool} {c : Color} {a : BitVec 16} {s : State} (hs : s.stale = [])
    (h : (writeChars f wrap c 65536 a s).1 = .goesOn) (b : BitVec 16) : opmRead s.opm b ≠ 0x00#8 := by
  have reached : a + BitVec.ofNat 16 (b - a).toNat = b := by
    rw [BitVec.ofNat_toNat, BitVec.setWidth_eq, BitVec.add_comm, BitVec.sub_add_cancel]
  exact reached ▸ noTerminator_of_goesOn hs h (b - a).isLt

/-- The characters of a string that goes on move the cursor as `Cursor.After` says. -/
theorem writeChars_after {f : Font} {wrap : Bool} {c : Color} {a : BitVec 16} {s : State} {n k : Nat}
    (hs : s.stale = []) (hk : s.cur.After f wrap k) (h : (writeChars f wrap c n a s).1 = .goesOn) :
    (writeChars f wrap c n a s).2.cur.After f wrap (k + n) := by
  induction n generalizing a s k with
  | zero => exact hk
  | succ n ih =>
    obtain ⟨hch, s', hd, goes⟩ := drawn_of_goesOn hs h
    rw [writeChars_of_drawn hs hch hd, Nat.add_comm n 1, ← Nat.add_assoc]
    exact ih ((writeChar_stale hd).trans hs) (hk.succ hd) goes

/-- The state of a string that no number of characters ends: no byte is the terminator and none is a changed one, and
every character fits. -/
structure State.Endless (f : Font) (wrap : Bool) (s : State) : Prop where
  settled : s.stale = []
  noTerminator : ∀ a, opmRead s.opm a ≠ 0x00#8
  fits : s.cur.FitsForever f wrap

theorem State.Endless.goesOn {f : Font} {wrap : Bool} {s : State} (h : s.Endless f wrap) (c : Color) (n : Nat)
    (a : BitVec 16) : (writeChars f wrap c n a s).1 = .goesOn := by
  induction n generalizing a s with
  | zero => rfl
  | succ n ih =>
    obtain ⟨s', hd⟩ := h.fits.exists_writeChar (opmRead s.opm a) c
    rw [writeChars_of_drawn h.settled (h.noTerminator a) hd]
    have settled := (writeChar_stale hd).trans h.settled
    exact ih ⟨settled, fun b => writeChar_opm hd ▸ h.noTerminator b, h.fits.after_writeChar hd⟩ _

/-- The state of a string that goes on after 65536 characters is endless (R192, log 16). -/
theorem endless_of_goesOn {f : Font} {wrap : Bool} {c : Color} {a : BitVec 16} {s : State} (hs : s.stale = [])
    (h : (writeChars f wrap c 65536 a (beginString s)).1 = .goesOn) :
    (writeChars f wrap c 65536 a (beginString s)).2.Endless f wrap := by
  have frame := writeChars_frame f wrap c 65536 a (beginString s)
  have begun : (beginString s).cur.After f wrap 0 := .inr ⟨show (1#16).toNat ≤ 65 by decide, Nat.zero_le _⟩
  have forever := (writeChars_after (s := beginString s) hs begun h).forever (by decide)
  refine ⟨?_, fun b => ?_, forever⟩
  · rw [frame]
    exact hs
  · rw [frame]
    exact noTerminator_anywhere (s := beginString s) hs h b

/-- After `m` characters a string that goes on stands where its next characters start (R115). -/
theorem writeChars_add {f : Font} {wrap : Bool} {c : Color} {a : BitVec 16} {s : State} {m : Nat} (hs : s.stale = [])
    (h : (writeChars f wrap c m a s).1 = .goesOn) (n : Nat) :
    writeChars f wrap c (m + n) a s =
      writeChars f wrap c n (a + BitVec.ofNat 16 m) (writeChars f wrap c m a s).2 := by
  induction m generalizing a s with
  | zero => rw [Nat.zero_add, BitVec.add_zero]; rfl
  | succ m ih =>
    obtain ⟨hch, s', hd, goes⟩ := drawn_of_goesOn hs h
    rw [Nat.add_right_comm, writeChars_of_drawn hs hch hd, writeChars_of_drawn hs hch hd,
      ih ((writeChar_stale hd).trans hs) goes, add_one_add_ofNat]

/-- A string that goes on leaves the block busy at the character after the last one drawn (R192). -/
theorem runString_of_goesOn {f : Font} {r : StringRun} {n : Nat} {s : State}
    (h : (writeChars f r.wrap r.color n r.addr s).1 = .goesOn) :
    runString f r n s = { (writeChars f r.wrap r.color n r.addr s).2 with
      busy := true, running := some { r with addr := r.addr + BitVec.ofNat 16 n } } := by
  rcases runString_cases f r n s with ⟨ended, -⟩ | ⟨-, e⟩
  · exact absurd h ended
  · exact e

/-- A string that leaves the block busy goes on (R115, R192). -/
theorem goesOn_of_runString_busy {f : Font} {r : StringRun} {n : Nat} {s : State}
    (h : (runString f r n s).busy = true) : (writeChars f r.wrap r.color n r.addr s).1 = .goesOn := by
  rcases runString_cases f r n s with ⟨-, res, e, -⟩ | ⟨goes, -⟩
  · rw [e, finish_busy] at h
    exact absurd h Bool.false_ne_true
  · exact goes

/-- However many characters an endless string draws, the block stays busy, `RES` and the port as they were (R192). -/
theorem State.Endless.runString_busy {f : Font} {r : StringRun} {s : State} (h : s.Endless f r.wrap) (n : Nat) :
    (runString f r n s).busy = true ∧ (runString f r n s).res = s.res ∧ (runString f r n s).port = s.port := by
  have goes := h.goesOn r.color n r.addr
  rw [runString_of_goesOn goes, writeChars_frame]
  exact ⟨rfl, rfl, rfl⟩

/-- A WR.STR that leaves the block busy leaves an endless string in progress (R192, log 16). -/
theorem endless_of_exec_wrStr {addr : BitVec 16} {font : BitVec 4} {wrap : Bool} {c : Color} {s u : State}
    (hs : s.stale = []) (h : exec (.wrStr addr font wrap c) s = .next u) (hb : u.busy = true) :
    ∃ f r, u.running = some r ∧ fontOf u.platform r.font = some f ∧ u.Endless f r.wrap := by
  rcases execWrStr_cases h with rfl | ⟨f, r, hf, rfl⟩
  · exact absurd hb Bool.false_ne_true
  · have goes := goesOn_of_runString_busy hb
    obtain ⟨settled, noTerminator, fits⟩ := endless_of_goesOn hs goes
    refine ⟨f, { r with addr := r.addr + BitVec.ofNat 16 65536 }, ?_, ?_, ?_⟩
    · rw [runString_of_goesOn goes]
    · rw [runString_frame]
      exact hf
    · rw [runString_of_goesOn goes]
      exact ⟨settled, noTerminator, fits⟩

/-- Settles O32: the string that goes on after 65536 characters is endless. -/
theorem unendedStringNeverEnds : Obligations.UnendedStringNeverEnds := by
  refine ⟨fun f addr wrap c s n hs h => ?_, fun addr font wrap c s u n rest hs h hb => ?_⟩
  · rw [writeChars_add (s := beginString s) hs h]
    exact (endless_of_goesOn hs h).goesOn c n _
  · obtain ⟨f, r, hr, hf, settled, noTerminator, fits⟩ := endless_of_exec_wrStr hs h hb
    have endless : State.Endless f r.wrap { u with inbox := rest, running := none } := ⟨settled, noTerminator, fits⟩
    obtain ⟨busy, res, port⟩ := endless.runString_busy (r := r) n
    refine ⟨_, step_pass (s := { u with inbox := .pass n :: rest }) hr hf rfl, ?_⟩
    rw [settle_busy, settle_res, settle_port]
    exact ⟨busy, res, port⟩

end Sys2Proof.Machine
end

section
/-! PROOFS. The transactions of the sequencer (R126, R127): what one puts in the bus log whatever fails in it, the flush
and the command phase of INIT as lists of transactions, and FLUSH and INIT assembled from them (R128, R129, R133). -/

namespace Sys2Proof.Machine

/-! ## Primitives called in a run (R126, R133) -/

/-- The run that stood at `r` stands at `r'`: it made the entries `es` in the bus log, its failure is or-ed with that of
these entries, and it goes on. -/
structure Run.Makes (r : Run) (es : List BusEvent) (ok : Bool) (r' : Run) : Prop where
  log : r'.port.busLog = r.port.busLog ++ es
  failed : r'.failed = (r.failed || !ok)
  going : r'.stuck = false

theorem Run.Makes.refl {r : Run} (h : r.stuck = false) : r.Makes [] true r :=
  ⟨(List.append_nil _).symm, (Bool.or_false _).symm, h⟩

theorem Run.Makes.trans {r r' r'' : Run} {es fs : List BusEvent} {ok ok' : Bool} (h : r.Makes es ok r')
    (h' : r'.Makes fs ok' r'') : r.Makes (es ++ fs) (ok && ok') r'' :=
  ⟨by rw [h'.log, h.log, List.append_assoc], by rw [h'.failed, h.failed, Bool.not_and, Bool.or_assoc], h'.going⟩

/-- A primitive that returned leaves its port, and its failure is or-ed (R133). -/
theorem call_of_returned {r : Run} (hs : r.stuck = false) {es : List BusEvent} {ok : Bool}
    {f : Port → Port × PollResult} (h : Returns r.port es ok (f r.port)) :
    r.call f = { port := (f r.port).1, failed := r.failed || !ok, stuck := false } := by
  have returned : (f r.port).2 ≠ .never := by rw [h.result]; cases ok <;> decide
  rw [call_of_returns hs returned, h.result]
  cases ok <;> rfl

theorem Run.Makes.call {r r' : Run} {es fs : List BusEvent} {ok ok' : Bool} (h : r.Makes es ok r')
    {f : Port → Port × PollResult} (hf : Returns r'.port fs ok' (f r'.port)) :
    r.Makes (es ++ fs) (ok && ok') (r'.call f) :=
  h.trans (by rw [call_of_returned h.going hf]; exact ⟨hf.log, rfl, rfl⟩)

theorem Run.Makes.stop {r r' : Run} {es : List BusEvent} {ok : Bool} (h : r.Makes es ok r') :
    r.Makes (es ++ [.reqStop]) ok r'.stop where
  log := by rw [stop_port h.going, emit_busLog, h.log, List.append_assoc]
  failed := by rw [stop_failed, h.failed]
  going := by rw [stop_stuck, h.going]

/-- The failures of a whole run are those of its entries (R133). -/
theorem Run.Makes.failed_of_begin {p : Port} {es : List BusEvent} {ok : Bool} {r : Run}
    (h : (Run.begin p).Makes es ok r) : r.failed = !ok := h.failed

/-! ## One transaction (R68, R126, R127) -/

/-- The common shape of `WriteCommand` and `WriteData`: the transaction with control byte `ctrl` and payload `ds`. -/
def transact (t : Nat) (ctrl : Byte) (ds : List Byte) (r : Run) : Run :=
  ((((r.call (start false t)).call (sendAddress 0x78#8 t)).call (sendBurst false t [ctrl])).call
    (sendBurst false t ds)).stop

theorem writeCommand_eq_transact (t : Nat) (r : Run) (b : Byte) : writeCommand t r b = transact t 0x00#8 [b] r := rfl

theorem writeData_eq_transact (t : Nat) (m : Memory) (r : Run) (p : Nat) :
    writeData t m r p = transact t 0x40#8 (pageBytes m p) r := rfl

/-- A transaction is whole whatever fails in it: every primitive is called, and the stop is emitted (R126). -/
theorem transact_makes (t : Nat) (ctrl : Byte) (ds : List Byte) {r : Run} (hs : r.stuck = false) :
    ∃ es ok, Transaction t ctrl ds es ok ∧ r.Makes es ok (transact t ctrl ds r) := by
  obtain ⟨vs, okStart, startSamples, hstart⟩ := start_returns t r.port
  have started := (Run.Makes.refl hs).call hstart
  obtain ⟨ws, okAddr, first, addrSamples, haddr⟩ := sendAddress_returns 0x78#8 t (r.call (start false t)).port
  have addressed := started.call haddr
  obtain ⟨cs, okCtrl, ctrlLog, hctrl⟩ := sendBurst_returns t [ctrl] _
  have controlled := addressed.call hctrl
  obtain ⟨ps, okData, dataLog, hdata⟩ := sendBurst_returns t ds _
  refine ⟨_, _, ⟨vs, ws, cs, ps, first, okStart, okAddr, okCtrl, okData, startSamples, addrSamples, ctrlLog, dataLog,
    ?_, rfl⟩, (controlled.call hdata).stop⟩
  simp only [List.nil_append, List.cons_append, List.append_assoc]

/-- Settles O36: `WriteCommand` is the transaction of its one byte. -/
theorem writeCommandIsOneTransaction : Obligations.WriteCommandIsOneTransaction := by
  intro t r b hs
  obtain ⟨es, ok, htrans, hmakes⟩ := transact_makes t 0x00#8 [b] hs
  exact ⟨es, ok, htrans, hmakes.log, hmakes.failed, hmakes.going⟩

/-- Settles O37: `WriteData` is the transaction of the bytes of its page. -/
theorem writeDataSendsOnePage : Obligations.WriteDataSendsOnePage := by
  intro t m r p hs
  obtain ⟨es, ok, htrans, hmakes⟩ := transact_makes t 0x40#8 (pageBytes m p) hs
  exact ⟨es, ok, htrans, hmakes.log, hmakes.failed, hmakes.going⟩

/-! ## Lists of transactions (R71, R72, R128, R129) -/

/-- The transactions of a plan, made in order whatever fails in one (R129). -/
def transactAll (t : Nat) (plan : List (Byte × List Byte)) (r : Run) : Run :=
  plan.foldl (fun r c => transact t c.1 c.2 r) r

theorem transactAll_makes (t : Nat) (plan : List (Byte × List Byte)) {r : Run} (hs : r.stuck = false) :
    ∃ es ok, Transactions t plan es ok ∧ r.Makes es ok (transactAll t plan r) := by
  induction plan generalizing r with
  | nil => exact ⟨_, _, .nil, .refl hs⟩
  | cons c plan ih =>
    obtain ⟨es, ok, htrans, hmakes⟩ := transact_makes t c.1 c.2 hs
    obtain ⟨fs, okRest, hrest, hall⟩ := ih hmakes.going
    exact ⟨_, _, .cons htrans hrest, hmakes.trans hall⟩

/-- The transactions of one page of a flush: its three commands and its data (R72, R129). -/
def pagePlan (m : Memory) (p : Nat) : List (Byte × List Byte) :=
  [(0x00#8, [pageStart p]), (0x00#8, [0x00#8]), (0x00#8, [0x10#8]), (0x40#8, pageBytes m p)]

theorem flushPage_eq_transactAll (t : Nat) (m : Memory) (r : Run) (p : Nat) :
    flushPage t m r p = transactAll t (pagePlan m p) r := by
  simp only [flushPage, writeCommand_eq_transact, writeData_eq_transact, transactAll, pagePlan, List.foldl_cons,
    List.foldl_nil]

theorem pageStart_eq_ofNat (p : Nat) : pageStart p = BitVec.ofNat 8 (0xB0 + p) := by
  rw [pageStart, BitVec.ofNat_add]

theorem flushPlan_eq_flatMap (m : Memory) : flushPlan m = (List.range 8).flatMap (pagePlan m) := by
  refine congrArg (List.flatMap · (List.range 8)) (funext fun p => ?_)
  rw [pagePlan, pageStart_eq_ofNat, pageBytes]

theorem flushPages_eq_transactAll (t : Nat) (m : Memory) (r : Run) :
    flushPages t m r = transactAll t (flushPlan m) r := by
  have page : flushPage t m = fun r p => transactAll t (pagePlan m p) r := funext₂ (flushPage_eq_transactAll t m)
  simp only [flushPages, page, flushPlan_eq_flatMap, transactAll, List.foldl_flatMap]

theorem initPlan_eq_map : initPlan = Config.initSeq.map fun b => (0x00#8, [b]) := by decide

theorem initCommands_eq_transactAll (t : Nat) (r : Run) : initCommands t r = transactAll t initPlan r := by
  simp only [initCommands, initPlan_eq_map, transactAll, List.foldl_map, ← writeCommand_eq_transact]

/-- A flush makes the transactions of its plan (R129). -/
theorem flushPages_makes (t : Nat) (m : Memory) {r : Run} (hs : r.stuck = false) :
    ∃ es ok, Transactions t (flushPlan m) es ok ∧ r.Makes es ok (flushPages t m r) := by
  rw [flushPages_eq_transactAll]
  exact transactAll_makes t _ hs

/-- The command phase of INIT makes the transactions of its 28 bytes (R128). -/
theorem initCommands_makes (t : Nat) {r : Run} (hs : r.stuck = false) :
    ∃ es ok, Transactions t initPlan es ok ∧ r.Makes es ok (initCommands t r) := by
  rw [initCommands_eq_transactAll]
  exact transactAll_makes t _ hs

/-! ## FLUSH (R129) -/

/-- With a bound set FLUSH ends with what its pages made, `BusTimeout` their failure (R129, R133). -/
theorem exec_flush_of_makes {s : State} (hv : s.bto.valid = true) {es : List BusEvent} {ok : Bool} {r : Run}
    (hr : flushPages s.bto.value.toNat s.fb (Run.begin s.port) = r) (h : (Run.begin s.port).Makes es ok r) :
    exec .flush s = .next (finish (busRes (!ok)) { s with port := r.port }) := by
  simp only [exec, execFlush, hv, if_true, hr, endRun_of_returns h.going, h.failed_of_begin]

/-- Settles O38: the pages are the transactions of the plan. -/
theorem flushSendsEveryPage : Obligations.FlushSendsEveryPage := by
  intro s hv
  obtain ⟨es, ok, htrans, hmakes⟩ := flushPages_makes s.bto.value.toNat s.fb (r := Run.begin s.port) rfl
  generalize hr : flushPages s.bto.value.toNat s.fb (Run.begin s.port) = r at hmakes
  exact ⟨_, es, ok, exec_flush_of_makes hv hr hmakes, htrans, hmakes.log, by simp only [finish, busRes]⟩

/-! ## INIT (R128) -/

theorem fbRead_cleared {i : Nat} (hi : i < 1024) : fbRead (fillFrame .black) i = 0x00#8 := fbRead_fillFrame .black hi

/-- A failed command phase ends INIT, with nothing but `RES` written (R128, R153). -/
theorem initPanel_of_failed {t : Nat} {s : State} {es : List BusEvent} {r : Run}
    (hr : initCommands t (Run.begin s.port) = r) (h : (Run.begin s.port).Makes es false r) :
    initPanel t s = finish initFailRes { s with port := r.port } := by
  simp [initPanel, hr, h.going, h.failed_of_begin]

/-- After a good command phase INIT clears, flushes and homes, and reports the flush's failure (R128). -/
theorem initPanel_of_commanded {t : Nat} {s : State} {es fs : List BusEvent} {ok : Bool} {r q : Run}
    (hr : initCommands t (Run.begin s.port) = r) (h : (Run.begin s.port).Makes es true r)
    (hq : flushPages t (fillFrame .black) (Run.begin r.port) = q) (hf : (Run.begin r.port).Makes fs ok q) :
    initPanel t s = finish { init := !ok, busTimeout := !ok }
      { s with port := q.port, fb := fillFrame .black, cur := homeCursor s.cur } := by
  cases ok <;> simp [initPanel, hr, hq, h.going, hf.going, h.failed_of_begin, hf.failed_of_begin, initFailRes]

/-- Settles O40: the two outcomes of the command phase. -/
theorem initBringsThePanelUp : Obligations.InitBringsThePanelUp := by
  intro s hv
  have init : exec .init s = .next (initPanel s.bto.value.toNat s) := by simp only [exec, execInit, hv, if_true]
  obtain ⟨es, ok, commands, hmakes⟩ := initCommands_makes s.bto.value.toNat (r := Run.begin s.port) rfl
  generalize hr : initCommands s.bto.value.toNat (Run.begin s.port) = r at hmakes
  cases ok with
  | false =>
    refine ⟨_, es, false, init.trans (congrArg _ (initPanel_of_failed hr hmakes)), commands, fun _ => ?_, nofun⟩
    exact ⟨hmakes.log, by simp only [finish, initFailRes]⟩
  | true =>
    obtain ⟨fs, okFlush, pages, hflush⟩ :=
      flushPages_makes s.bto.value.toNat (fillFrame .black) (r := Run.begin r.port) rfl
    generalize hq : flushPages s.bto.value.toNat (fillFrame .black) (Run.begin r.port) = q at hflush
    refine ⟨_, es, true, init.trans (congrArg _ (initPanel_of_commanded hr hmakes hq hflush)), commands, nofun,
      fun _ => ⟨fs, okFlush, ?_, ?_, ?_, by simp only [finish, homeCursor]⟩⟩
    · simpa only [finish_fb] using pages
    · calc q.port.busLog = r.port.busLog ++ fs := hflush.log
        _ = s.port.busLog ++ es ++ fs := congrArg (· ++ fs) hmakes.log
    · simpa only [finish_fb] using fun _ => fbRead_cleared

end Sys2Proof.Machine
end

section
/-! PROOFS. The sequencer with all flags ready (R129, the vectors' V-SQ-3): every poll takes one sample, so the entries
of a transaction are known up to the order of its status reads, and can be counted. -/

namespace Sys2Proof.Machine

/-! ## A port whose flags all read 1 -/

theorem allReady_iff {p : Port} : p.AllReady ↔ ∀ f, (p.source f).Ready :=
  ⟨fun ⟨hs, ha, ht, hb⟩ f => by cases f <;> assumption, fun h => ⟨h .start, h .addr, h .txe, h .btf⟩⟩

theorem Port.AllReady.flagValue {p : Port} (h : p.AllReady) (f : Flag) : p.flagValue f = true :=
  answer_steady (allReady_iff.mp h f).1 (allReady_iff.mp h f).2 p.draws

theorem Source.Ready.next {q : Source} (h : q.Ready) : q.next.Ready :=
  ⟨by rw [next_answers, h.1, List.tail_nil], h.2⟩

theorem Port.AllReady.sampled {p : Port} (h : p.AllReady) (f : Flag) : (p.sampled f).AllReady := by
  refine allReady_iff.mpr fun g => ?_
  by_cases hg : g = f
  · rw [hg, sampled_source_same]
    exact (allReady_iff.mp h f).next
  · rw [sampled_source_other p f g hg]
    exact allReady_iff.mp h g

theorem Port.AllReady.emit {p : Port} (h : p.AllReady) (e : BusEvent) : (emit e p).AllReady := h

theorem Port.AllReady.statusReads {p : Port} (h : p.AllReady) : (statusReads p).AllReady := h

/-! ## The primitives on such a port (R90 to R96) -/

/-- A procedure called on `p` ended in `OK` with the entries `es`, and left all flags ready. -/
structure ReturnsReady (p : Port) (es : List BusEvent) (r : Port × PollResult) : Prop where
  returns : Returns p es true r
  ready : r.1.AllReady

theorem ReturnsReady.after {p q : Port} {es fs : List BusEvent} {r : Port × PollResult} (h : ReturnsReady q fs r)
    (hq : q.busLog = p.busLog ++ es) : ReturnsReady p (es ++ fs) r := ⟨h.returns.after hq, h.ready⟩

theorem poll_returnsReady {p : Port} (h : p.AllReady) (f : Flag) (n : Nat) :
    ReturnsReady p [.sample f true] (poll f n p) := by
  rw [poll_of_ready (h.flagValue f)]
  exact ⟨⟨rfl, sampled_busLog_of_value (h.flagValue f)⟩, h.sampled f⟩

theorem start_returnsReady {p : Port} (h : p.AllReady) (t : Nat) :
    ReturnsReady p [.reqStart, .sample .start true] (start false t p) :=
  (poll_returnsReady (h.emit .reqStart) .start t).after (emit_busLog _ p)

theorem sendAddress_returnsReady {p : Port} (h : p.AllReady) (a : Byte) (t : Nat) :
    ∃ first, ReturnsReady p (.txAddr a :: .sample .addr true :: statusPair first) (sendAddress a t p) := by
  have polled := (poll_returnsReady (h.emit (.txAddr a)) .addr t).after (emit_busLog _ p)
  obtain ⟨first, hfirst⟩ := statusReads_pair (poll .addr t (emit (.txAddr a) p)).1
  rw [sendAddress_of_ok polled.returns.result]
  exact ⟨first, ⟨rfl, by rw [hfirst, polled.returns.log, List.append_assoc]; rfl⟩, polled.ready.statusReads⟩

/-- The entries of the data bytes `ds`, each poll ended by its first sample (R95, R96). -/
def readyBurst (ds : List Byte) : List BusEvent :=
  ds.flatMap (fun d => [.sample .txe true, .txData d]) ++ [BusEvent.sample .btf true]

theorem sendBurst_returnsReady {p : Port} (h : p.AllReady) (t : Nat) (ds : List Byte) :
    ReturnsReady p (readyBurst ds) (sendBurst false t ds p) := by
  induction ds generalizing p with
  | nil => exact poll_returnsReady h .btf t
  | cons d ds ih =>
    have waited := poll_returnsReady h .txe t
    rw [← waitFor_false] at waited
    rw [sendBurst_cons_of_ok waited.returns.result]
    exact ((ih (waited.ready.emit (.txData d))).after (emit_busLog _ _)).after waited.returns.log

/-! ## Transactions on such a port -/

/-- The run that stood at `r` stands at `r'`: it made the entries `es`, none of them a failure, and all flags are
ready. -/
structure Run.MakesReady (r : Run) (es : List BusEvent) (r' : Run) : Prop where
  makes : r.Makes es true r'
  ready : r'.port.AllReady

theorem Run.MakesReady.trans {r r' r'' : Run} {es fs : List BusEvent} (h : r.MakesReady es r')
    (h' : r'.MakesReady fs r'') : r.MakesReady (es ++ fs) r'' := ⟨h.makes.trans h'.makes, h'.ready⟩

theorem Run.MakesReady.call {r r' : Run} {es fs : List BusEvent} (h : r.MakesReady es r')
    {f : Port → Port × PollResult} (hf : ReturnsReady r'.port fs (f r'.port)) : r.MakesReady (es ++ fs) (r'.call f) :=
  ⟨h.makes.call hf.returns, by rw [call_of_returned h.makes.going hf.returns]; exact hf.ready⟩

theorem Run.MakesReady.stop {r r' : Run} {es : List BusEvent} (h : r.MakesReady es r') :
    r.MakesReady (es ++ [.reqStop]) r'.stop :=
  ⟨h.makes.stop, by rw [stop_port h.makes.going]; exact h.ready⟩

/-- The entries of a transaction with all flags ready (R126, R127). -/
def readyTransaction (first : Bool) (ctrl : Byte) (ds : List Byte) : List BusEvent :=
  [BusEvent.reqStart, .sample .start true] ++ (BusEvent.txAddr 0x78#8 :: .sample .addr true :: statusPair first) ++
    readyBurst [ctrl] ++ readyBurst ds ++ [BusEvent.reqStop]

theorem transact_makesReady (t : Nat) (ctrl : Byte) (ds : List Byte) {r : Run} (hs : r.stuck = false)
    (hr : r.port.AllReady) : ∃ first, r.MakesReady (readyTransaction first ctrl ds) (transact t ctrl ds r) := by
  have started := Run.MakesReady.call ⟨.refl hs, hr⟩ (start_returnsReady hr t)
  obtain ⟨first, haddr⟩ := sendAddress_returnsReady started.ready 0x78#8 t
  have addressed := started.call haddr
  have controlled := addressed.call (sendBurst_returnsReady addressed.ready t [ctrl])
  exact ⟨first, (controlled.call (sendBurst_returnsReady controlled.ready t ds)).stop⟩

/-! ## Counting entries (R184) -/

/-- The entries `es` are `n` in number, `k` of them samples, and carry the data bytes `bs`. -/
structure Tally (es : List BusEvent) (n k : Nat) (bs : List Byte) : Prop where
  length : es.length = n
  samples : sampleCount es = k
  bytes : dataBytes es = bs

theorem Tally.append {es fs : List BusEvent} {n n' k k' : Nat} {bs cs : List Byte} (h : Tally es n k bs)
    (h' : Tally fs n' k' cs) : Tally (es ++ fs) (n + n') (k + k') (bs ++ cs) where
  length := by rw [List.length_append, h.length, h'.length]
  samples := by rw [← h.samples, ← h'.samples]; exact List.countP_append
  bytes := by rw [← h.bytes, ← h'.bytes]; exact List.filterMap_append

theorem readyBurst_tally (ds : List Byte) : Tally (readyBurst ds) (2 * ds.length + 1) (ds.length + 1) ds := by
  induction ds with
  | nil => exact ⟨rfl, rfl, rfl⟩
  | cons d ds ih =>
    have byte : Tally [.sample .txe true, .txData d] 2 1 [d] := ⟨rfl, rfl, rfl⟩
    have all := byte.append ih
    exact ⟨by rw [List.length_cons]; exact all.length.trans (by omega),
      by rw [List.length_cons]; exact all.samples.trans (by omega), all.bytes⟩

theorem readyTransaction_tally (first : Bool) (ctrl : Byte) (ds : List Byte) :
    Tally (readyTransaction first ctrl ds) (2 * ds.length + 11) (ds.length + 5) (ctrl :: ds) := by
  have opening : Tally ([BusEvent.reqStart, .sample .start true] ++
      (BusEvent.txAddr 0x78#8 :: .sample .addr true :: statusPair first)) 6 2 [] := by
    cases first <;> exact ⟨rfl, rfl, rfl⟩
  have stop : Tally [.reqStop] 1 0 [] := ⟨rfl, rfl, rfl⟩
  have all := ((opening.append (readyBurst_tally [ctrl])).append (readyBurst_tally ds)).append stop
  exact ⟨all.length.trans (by rw [List.length_singleton]; omega),
    all.samples.trans (by rw [List.length_singleton]; omega), all.bytes.trans (List.append_nil _)⟩

/-- The counts of a plan are the sums over its transactions, its data bytes the control bytes and payloads in order. -/
theorem transactAll_makesReady (t : Nat) (plan : List (Byte × List Byte)) {r : Run} (hs : r.stuck = false)
    (hr : r.port.AllReady) : ∃ es, r.MakesReady es (transactAll t plan r) ∧
      Tally es (plan.map fun c => 2 * c.2.length + 11).sum (plan.map fun c => c.2.length + 5).sum
        (plan.flatMap fun c => c.1 :: c.2) := by
  induction plan generalizing r with
  | nil => exact ⟨[], ⟨.refl hs, hr⟩, rfl, rfl, rfl⟩
  | cons c plan ih =>
    obtain ⟨first, one⟩ := transact_makesReady t c.1 c.2 hs hr
    obtain ⟨es, rest, count⟩ := ih one.makes.going one.ready
    exact ⟨_, one.trans rest, (readyTransaction_tally first c.1 c.2).append count⟩

/-! ## FLUSH -/

theorem flushPlan_length_sum (m : Memory) : ((flushPlan m).map fun c => 2 * c.2.length + 11).sum = 2448 := by
  simp only [flushPlan, List.map_flatMap, List.map_cons, List.map_nil, List.length_cons, List.length_nil,
    List.length_map, List.length_range]
  decide

theorem flushPlan_sample_sum (m : Memory) : ((flushPlan m).map fun c => c.2.length + 5).sum = 1208 := by
  simp only [flushPlan, List.map_flatMap, List.map_cons, List.map_nil, List.length_cons, List.length_nil,
    List.length_map, List.length_range]
  decide

theorem flushPlan_bytes (m : Memory) : ((flushPlan m).flatMap fun c => c.1 :: c.2) =
    (List.range 8).flatMap fun p =>
      [0x00#8, BitVec.ofNat 8 (0xB0 + p), 0x00#8, 0x00#8, 0x00#8, 0x10#8, 0x40#8] ++
        (List.range 128).map fun c => fbRead m (p * 128 + c) := by
  simp only [flushPlan, List.flatMap_assoc, List.flatMap_cons, List.flatMap_nil, List.append_nil, List.cons_append,
    List.nil_append]

/-- Settles O39: the counts of the plan of a flush. -/
theorem flushWithAllFlagsReady : Obligations.FlushWithAllFlagsReady := by
  intro s hv hready
  obtain ⟨es, run, count⟩ :=
    transactAll_makesReady s.bto.value.toNat (flushPlan s.fb) (r := Run.begin s.port) rfl hready
  rw [← flushPages_eq_transactAll] at run
  generalize hr : flushPages s.bto.value.toNat s.fb (Run.begin s.port) = r at run
  exact ⟨_, es, exec_flush_of_makes hv hr run.makes, rfl, run.makes.log,
    count.length.trans (flushPlan_length_sum _), count.samples.trans (flushPlan_sample_sum _),
    count.bytes.trans (flushPlan_bytes _)⟩

end Sys2Proof.Machine
end

section
/-! PROOFS. The animation step (R130 to R132, R142): the three operations that run it, where it puts the sprite, and how
it ends. -/

namespace Sys2Proof.Machine

/-- The three operations of an animation step run `Move(dir)` on the state with the entry removed (R131, R132, R142). -/
theorem AnimationStep.exec_eq {i : Instr} {dir : Trigger} {s s0 : State} (h : AnimationStep i dir s s0) :
    exec i s = .next (moveSprite dir s0) := by
  rcases h with ⟨rfl, rfl, rfl⟩ | ⟨rfl, rfl, rfl⟩ | ⟨rfl, q, hq, rfl⟩
  · rfl
  · rfl
  · simp only [exec, execTrigSvc, hq]

theorem AnimationStep.start_withQueue {i : Instr} {dir : Trigger} {s s0 : State} (h : AnimationStep i dir s s0) :
    ∃ q, s0 = { s with tq := q } := by
  rcases h with ⟨-, -, rfl⟩ | ⟨-, -, rfl⟩ | ⟨-, q, -, rfl⟩ <;> exact ⟨_, rfl⟩

theorem moveSprite_of_no_sprite {s : State} (h : s.last.valid = false) (dir : Trigger) :
    moveSprite dir s = finishUsage s := by
  cases hv : s.bto.valid <;> simp [moveSprite, hv, h]

/-- Settles O43: `Move` checks for a last sprite before it does anything. -/
theorem animationWithoutSpriteEndsInUsage : Obligations.AnimationWithoutSpriteEndsInUsage := by
  intro i dir s s0 hstep hl
  obtain ⟨q, rfl⟩ := hstep.start_withQueue
  exact hstep.exec_eq.trans (congrArg _ (moveSprite_of_no_sprite (s := { s with tq := q }) hl dir))

/-! ## Where the sprite goes (R9, R130 to R132) -/

theorem platform_step_le (p : Platform) : p.step ≤ 64 := p.stepLess1.isLt

theorem moveTarget_right (p : Platform) (xInit : BitVec 16) :
    moveTarget p .right xInit = min (max (xInit.toNat + p.step) p.step) (128 - p.step) := by
  have := platform_step_le p
  simp only [moveTarget, clamp, Config.W]
  split_ifs <;> omega

/-- To the left the difference is over the integers; cut off at 0 it clamps to the same target. -/
theorem moveTarget_left (p : Platform) (xInit : BitVec 16) :
    moveTarget p .left xInit = min (max (xInit.toNat - p.step) p.step) (128 - p.step) := by
  have := platform_step_le p
  simp only [moveTarget, clamp, Config.W]
  split_ifs <;> omega

/-! ## The redraw and the flush (R130) -/

/-- The redraw of an animation step: the last sprite in WHITE at the moved position of the cleared panel, and whether it
failed (R130). -/
def redraw (dir : Trigger) (sp : Sprite) (s : State) : State × Bool :=
  writeImg s.last.id sp .white (movedTo (trunc16 (moveTarget s.platform dir s.cur.xInit)) s)

theorem animate_eq_redraw (dir : Trigger) (t : Nat) (sp : Sprite) (s : State) :
    animate dir t sp s = endRun
      { noSpace := (redraw dir sp s).2
        busTimeout := (flushPages t (redraw dir sp s).1.fb (Run.begin (redraw dir sp s).1.port)).failed }
      (flushPages t (redraw dir sp s).1.fb (Run.begin (redraw dir sp s).1.port)) (redraw dir sp s).1 := by
  simp only [animate, redraw, movedTo]

theorem redraw_port (dir : Trigger) (sp : Sprite) (s : State) : (redraw dir sp s).1.port = s.port := by
  rw [redraw, writeImg_frame, movedTo]

theorem redraw_xInit (dir : Trigger) (sp : Sprite) (s : State) :
    (redraw dir sp s).1.cur.xInit = trunc16 (moveTarget s.platform dir s.cur.xInit) := by
  rw [redraw, writeImg_frame, movedTo]

theorem redraw_yInit (dir : Trigger) (sp : Sprite) (s : State) : (redraw dir sp s).1.cur.yInit = s.cur.y := by
  rw [redraw, writeImg_frame, movedTo]

/-- With a bound and an installed last sprite `Move` redraws it and flushes the panel, whatever fails, and reports both
failures (R130). -/
theorem moveSprite_of_installed {dir : Trigger} {s : State} {sp : Sprite} (hv : s.bto.valid = true)
    (hl : s.last.valid = true) (hk : spriteOf s.platform s.last.id = some sp) :
    ∃ p es ok, moveSprite dir s = finish { noSpace := (redraw dir sp s).2, busTimeout := !ok }
        { (redraw dir sp s).1 with port := p } ∧
      Transactions s.bto.value.toNat (flushPlan (redraw dir sp s).1.fb) es ok ∧ p.busLog = s.port.busLog ++ es := by
  obtain ⟨es, ok, pages, hmakes⟩ := flushPages_makes s.bto.value.toNat (redraw dir sp s).1.fb
    (r := Run.begin (redraw dir sp s).1.port) rfl
  have animated : moveSprite dir s = animate dir s.bto.value.toNat sp s := by simp [moveSprite, hv, hl, hk]
  rw [animated, animate_eq_redraw]
  generalize flushPages s.bto.value.toNat (redraw dir sp s).1.fb (Run.begin (redraw dir sp s).1.port) = r at hmakes ⊢
  rw [endRun_of_returns hmakes.going, hmakes.failed_of_begin]
  exact ⟨r.port, es, ok, rfl, pages, by rw [← redraw_port dir sp s]; exact hmakes.log⟩

/-- Settles O41: the redraw and the flush of `Move`, on the state with the entry removed. -/
theorem animationStepMovesRedrawsFlushes : Obligations.AnimationStepMovesRedrawsFlushes := by
  intro i dir s s0 sp hstep hv hl hk
  obtain ⟨q, rfl⟩ := hstep.start_withQueue
  obtain ⟨p, es, ok, hmove, pages, hlog⟩ := moveSprite_of_installed (dir := dir) (s := { s with tq := q }) hv hl hk
  refine ⟨_, redraw dir sp { s with tq := q }, es, ok, fillFrame .black, hstep.exec_eq.trans (congrArg _ hmove),
    fun _ => fbRead_cleared, ?_, pages, hlog, rfl⟩
  cases dir with
  | right => rw [redraw, moveTarget_right]; rfl
  | left => rw [redraw, moveTarget_left]; rfl

/-- Settles O42: the redraw records the position it draws at, and that is the clamped target. -/
theorem animationStaysInsideItsRange : Obligations.AnimationStaysInsideItsRange := by
  intro i dir s s0 t hstep hv hl hk ht
  obtain ⟨q, rfl⟩ := hstep.start_withQueue
  obtain ⟨sp, hsp⟩ := Option.isSome_iff_exists.mp hk
  obtain ⟨p, es, ok, hmove, -, -⟩ := moveSprite_of_installed (dir := dir) (s := { s with tq := q }) hv hl hsp
  rw [hstep.exec_eq, hmove] at ht
  obtain rfl := Host.Outcome.next.inj ht
  obtain ⟨low, high⟩ := moveTarget_bounds s.platform dir s.cur.xInit
  have stored := toNat_trunc16 (n := moveTarget s.platform dir s.cur.xInit) (by omega)
  rw [finish_cur, redraw_xInit, redraw_yInit, stored]
  exact ⟨low, high, rfl⟩

end Sys2Proof.Machine
end

section
/-! PROOFS. Configuration and trigger service (R140 to R142). -/

namespace Sys2Proof.Machine

/-! ## CFG.TIMEOUT and CFG.TRIG (R140, R141) -/

/-- Settles O45: the definition of CFG.TIMEOUT. -/
theorem timeoutIsConfigured : Obligations.TimeoutIsConfigured :=
  fun _ _ => rfl

/-- Settles O46: CFG.TRIG with `qclr` and without it. -/
theorem triggersAreConfigured : Obligations.TriggersAreConfigured := by
  intro enR enL qclr s
  cases qclr with
  | false => exact ⟨_, rfl, rfl, nofun, fun _ => ⟨rfl, rfl⟩, rfl⟩
  | true => exact ⟨_, rfl, rfl, fun _ => ⟨rfl, rfl⟩, nofun, rfl⟩

/-! ## TRIG.SVC (R142) -/

theorem exec_trigSvc_of_empty {s : State} (h : s.tq = []) : exec .trigSvc s = .next (finish {} s) := by
  simp only [exec, execTrigSvc, h]

/-- An entry is serviced as an animation step in its direction, on the state with the entry removed. -/
theorem exec_trigSvc_of_entry {s : State} {dir : Trigger} {q : List Trigger} (h : s.tq = dir :: q) :
    exec .trigSvc s = .next (moveSprite dir { s with tq := q }) :=
  AnimationStep.exec_eq (.inr (.inr ⟨rfl, q, h, rfl⟩))

theorem exec_moveR (s : State) : exec .moveR s = .next (moveSprite .right s) :=
  AnimationStep.exec_eq (.inl ⟨rfl, rfl, rfl⟩)

theorem exec_moveL (s : State) : exec .moveL s = .next (moveSprite .left s) :=
  AnimationStep.exec_eq (.inr (.inl ⟨rfl, rfl, rfl⟩))

/-- Settles O47: TRIG.SVC on an entry and the move of its direction run the same animation step. -/
theorem triggerServiceIsTheMoveOfItsEntry : Obligations.TriggerServiceIsTheMoveOfItsEntry :=
  fun _ => ⟨exec_trigSvc_of_empty, fun _ h => (exec_trigSvc_of_entry h).trans (exec_moveR _).symm,
    fun _ h => (exec_trigSvc_of_entry h).trans (exec_moveL _).symm⟩

end Sys2Proof.Machine
end

section
/-! PROOFS. How an operation ends: always in a next state (R154, R155), and with an error set of its own row (R158). -/

namespace Sys2Proof.Machine

/-- Settles O8: every arm of the dispatch is a next state. -/
theorem noOperationStops : Obligations.NoOperationStops := by
  intro i s
  cases i with
  | busStart | busStop | busAddr | busByte | busBurst | fbFill | fbPixel | curSet | wrChar | wrStr | wrImg | init
  | flush | moveR | moveL | trigSvc | cfgTimeout | cfgTrig => exact ⟨_, rfl⟩

/-! ## The results of the shared procedures (R98, R99, R128, R130, R158) -/

theorem busOperation_res {f : Nat → Port → Port × PollResult} (hf : ∀ n p, (f n p).2 ≠ .never) (s : State) :
    (busOperation f s).res = { usage := true } ∨ ∃ b, (busOperation f s).res = busRes b := by
  unfold busOperation
  split
  · exact .inr ⟨_, by rw [endBus_of_returns (hf _ _), finish_res]⟩
  · exact .inl rfl

/-- INIT fails as a whole, for a poll that timed out, or not at all (R128, R153). -/
theorem initPanel_res (n : Nat) (s : State) : ∃ b, (initPanel n s).res = { init := b, busTimeout := b } := by
  obtain ⟨es, ok, -, commands⟩ := initCommands_makes n (r := Run.begin s.port) rfl
  cases ok with
  | false => exact ⟨true, by rw [initPanel_of_failed rfl commands, finish_res, initFailRes]⟩
  | true =>
    obtain ⟨fs, ok, -, pages⟩ :=
      flushPages_makes n (fillFrame .black) (r := Run.begin (initCommands n (Run.begin s.port)).port) rfl
    exact ⟨!ok, by rw [initPanel_of_commanded rfl commands rfl pages, finish_res]⟩

/-- `Move` needs an installed last sprite (U4, log 9). -/
theorem moveSprite_of_missing {s : State} (hk : spriteOf s.platform s.last.id = none) (dir : Trigger) :
    moveSprite dir s = finishUsage s := by
  simp [moveSprite, hk]

/-- An animation step is refused with `Usage`, or reports the failures of its redraw and its flush (R130, R158). -/
theorem moveSprite_res (dir : Trigger) (s : State) :
    (moveSprite dir s).res = { usage := true } ∨
      ∃ full timedOut, (moveSprite dir s).res = { noSpace := full, busTimeout := timedOut } := by
  cases hv : s.bto.valid with
  | false => exact .inl (by rw [moveSprite_of_unset hv, finishUsage_res])
  | true =>
    cases hl : s.last.valid with
    | false => exact .inl (by rw [moveSprite_of_no_sprite hl, finishUsage_res])
    | true =>
      cases hk : spriteOf s.platform s.last.id with
      | none => exact .inl (by rw [moveSprite_of_missing hk, finishUsage_res])
      | some sp =>
        obtain ⟨p, es, ok, moved, -, -⟩ := moveSprite_of_installed hv hl hk
        exact .inr ⟨_, _, by rw [moved, finish_res]⟩

/-- A string that ends reports its terminator, or the character that did not fit (R115). -/
theorem runString_res {f : Font} {r : StringRun} {n : Nat} {s : State} (h : (runString f r n s).busy = false) :
    ∃ ret full, (runString f r n s).res = { ret := ret, noSpace := full } := by
  rcases runString_cases f r n s with ⟨-, res, ends, rfl | ⟨ch, rfl⟩⟩ | ⟨-, goesOn⟩
  · exact ⟨_, false, by rw [ends, finish_res]⟩
  · exact ⟨ch, true, by rw [ends, finish_res, noSpaceRes]⟩
  · rw [goesOn] at h
    exact absurd h.symm Bool.false_ne_true

/-! ## The table of R158 -/

/-- The results that an operation of the row can end with (R158). -/
def MayReport (o : Op) (r : Res) : Prop :=
  match o with
  | .busStart | .busAddr | .busByte | .busBurst | .flush => r = { usage := true } ∨ ∃ b, r = busRes b
  | .wrChar | .wrStr | .wrImg => r = { usage := true } ∨ ∃ ret full, r = { ret := ret, noSpace := full }
  | .init => r = { usage := true } ∨ ∃ b, r = { init := b, busTimeout := b }
  | .moveR | .moveL | .trigSvc =>
    r = { usage := true } ∨ ∃ full timedOut, r = { noSpace := full, busTimeout := timedOut }
  | .busStop | .fbFill | .fbPixel | .curSet | .cfgTimeout | .cfgTrig => r = {}

/-- An operation that ends reports a result of its row (R158). -/
theorem exec_mayReport {i : Instr} {s t : State} (h : exec i s = .next t) (ends : t.busy = false) :
    MayReport i.op t.res := by
  cases i with
  | busStart => obtain rfl := Host.Outcome.next.inj h; exact busOperation_res start_ne_never s
  | busAddr b => obtain rfl := Host.Outcome.next.inj h; exact busOperation_res (sendAddress_ne_never b) s
  | busByte b => obtain rfl := Host.Outcome.next.inj h; exact busOperation_res (sendByte_ne_never b) s
  | busBurst a n =>
    obtain rfl := Host.Outcome.next.inj h
    exact busOperation_res (fun t => sendBurst_ne_never t _) s
  | busStop | fbFill c | fbPixel x y c | curSet x y | cfgTimeout v | cfgTrig r l c =>
    obtain rfl := Host.Outcome.next.inj h
    rfl
  | wrChar ch font wrap c =>
    obtain rfl := Host.Outcome.next.inj h
    split
    · exact .inl rfl
    · split
      · exact .inr ⟨_, true, rfl⟩
      · exact .inr ⟨ch, false, rfl⟩
  | wrStr a font wrap c =>
    rcases execWrStr_cases h with rfl | ⟨f, r, -, rfl⟩
    · exact .inl rfl
    · exact .inr (runString_res ends)
  | wrImg k c =>
    cases hk : spriteOf s.platform k with
    | none =>
      obtain rfl := Host.Outcome.next.inj ((exec_wrImg_of_missing hk c).symm.trans h)
      exact .inl rfl
    | some sp =>
      by_cases fits : imageFits sp s.cur = true
      · obtain rfl := Host.Outcome.next.inj ((exec_wrImg_of_fits hk fits c).symm.trans h)
        exact .inr ⟨_, false, rfl⟩
      · obtain rfl := Host.Outcome.next.inj ((exec_wrImg_of_failed hk fits c).symm.trans h)
        exact .inr ⟨_, true, rfl⟩
  | init =>
    obtain rfl := Host.Outcome.next.inj h
    split
    · exact .inr (initPanel_res _ s)
    · exact .inl rfl
  | flush =>
    obtain rfl := Host.Outcome.next.inj h
    split
    · exact .inr ⟨_, congrArg State.res (endRun_of_returns (flushPages_stuck _ _ rfl) _ s)⟩
    · exact .inl rfl
  | moveR => obtain rfl := Host.Outcome.next.inj h; exact moveSprite_res .right s
  | moveL => obtain rfl := Host.Outcome.next.inj h; exact moveSprite_res .left s
  | trigSvc =>
    rcases execTrigSvc_cases h with ⟨-, rfl⟩ | ⟨e, q, -, rfl⟩
    · exact .inr ⟨false, false, rfl⟩
    · exact moveSprite_res e _

/-- Settles O55: the clauses of R158, read off the table `MayReport`. -/
theorem errorSetsOfOperations : Obligations.ErrorSetsOfOperations := by
  intro i s t h ends
  have reported := exec_mayReport h ends
  cases hi : i.op <;> rw [hi] at reported
  case busStart | busAddr | busByte | busBurst | flush => rcases reported with e | ⟨b, e⟩ <;> simp [e, busRes]
  case wrChar | wrStr | wrImg => rcases reported with e | ⟨ret, full, e⟩ <;> simp [e]
  case init => rcases reported with e | ⟨b, e⟩ <;> simp [e]
  case moveR | moveL | trigSvc => rcases reported with e | ⟨full, timedOut, e⟩ <;> simp [e]
  case busStop | fbFill | fbPixel | curSet | cfgTimeout | cfgTrig => simp [show t.res = {} from reported]

end Sys2Proof.Machine
end

section
/-! PROOFS. Trigger edges (R160): what an edge does by itself, and that no operation but TRIG.SVC and CFG.TRIG reads or
writes what it writes (R164, U7). -/

namespace Sys2Proof.Machine

/-! ## One edge (R160) -/

theorem captureEdge_of_masked {t : Trigger} {s : State} (h : s.ten.enables t = false) : captureEdge t s = s := by
  simp [captureEdge, h]

theorem captureEdge_of_room {t : Trigger} {s : State} (hr : s.inReset = false) (he : s.ten.enables t = true)
    (room : s.tq.length < s.platform.queueDepth) : captureEdge t s = { s with tq := s.tq ++ [t] } := by
  simp [captureEdge, hr, he, room]

theorem captureEdge_of_full {t : Trigger} {s : State} (hr : s.inReset = false) (he : s.ten.enables t = true)
    (full : s.platform.queueDepth ≤ s.tq.length) : captureEdge t s = { s with tqOvf := true } := by
  simp [captureEdge, hr, he, full.not_gt]

/-- Settles O48: an edge whose trigger is masked, one that finds room in the queue, one that finds it full. -/
theorem edgeIsCapturedOrDropped : Obligations.EdgeIsCapturedOrDropped := by
  intro s e rest hr hi
  refine ⟨captureEdge e { s with inbox := rest }, step_of_event hi, captureEdge_frame e _, fun masked => ?_,
    fun enabled => ⟨fun room => ?_, fun full => ?_⟩⟩
  · rw [captureEdge_of_masked (s := { s with inbox := rest }) masked]
    exact ⟨rfl, rfl⟩
  · rw [captureEdge_of_room (s := { s with inbox := rest }) hr enabled room]
    exact ⟨rfl, rfl⟩
  · rw [captureEdge_of_full (s := { s with inbox := rest }) hr enabled full]
    exact ⟨rfl, rfl⟩

/-! ## An edge and an operation (R164) -/

/-- `s` with another queue and overflow bit: what an edge can make of it (R160). -/
def State.withQueue (q : List Trigger) (o : Bool) (s : State) : State := { s with tq := q, tqOvf := o }

@[simp] theorem withQueue_fb (q : List Trigger) (o : Bool) (s : State) : (s.withQueue q o).fb = s.fb := rfl
@[simp] theorem withQueue_cur (q : List Trigger) (o : Bool) (s : State) : (s.withQueue q o).cur = s.cur := rfl
@[simp] theorem withQueue_last (q : List Trigger) (o : Bool) (s : State) : (s.withQueue q o).last = s.last := rfl
@[simp] theorem withQueue_bto (q : List Trigger) (o : Bool) (s : State) : (s.withQueue q o).bto = s.bto := rfl
@[simp] theorem withQueue_platform (q : List Trigger) (o : Bool) (s : State) :
    (s.withQueue q o).platform = s.platform := rfl
@[simp] theorem withQueue_port (q : List Trigger) (o : Bool) (s : State) : (s.withQueue q o).port = s.port := rfl

/-- The procedure runs alike whatever stands in the queue and its overflow bit, and leaves both alone. -/
def IgnoresQueue (f : State → State) : Prop := ∀ q o s, f (s.withQueue q o) = (f s).withQueue q o

/-- The check of the bound reads no queue (R98). -/
theorem IgnoresQueue.bounded {f : State → State} (h : IgnoresQueue f) :
    IgnoresQueue fun s => if s.bto.valid then f s else finishUsage s := by
  intro q o s
  cases hv : s.bto.valid with
  | true => simpa [hv] using h q o s
  | false => simp only [withQueue_bto, hv, Bool.false_eq_true, if_false]; rfl

theorem busOperation_ignoresQueue (f : Nat → Port → Port × PollResult) : IgnoresQueue (busOperation f) := by
  refine IgnoresQueue.bounded (f := fun s => endBus (f s.bto.value.toNat s.port) s) fun q o s => ?_
  simp only [endBus, withQueue_bto, withQueue_port]
  split <;> rfl

theorem endRun_ignoresQueue (res : Res) (r : Run) : IgnoresQueue (endRun res r) := by
  intro q o s
  unfold endRun
  cases r.stuck <;> rfl

/-- INIT takes the same course and writes the same panel whatever stands in the queue (R128). -/
theorem initPanel_ignoresQueue (n : Nat) : IgnoresQueue (initPanel n) := by
  intro q o s
  obtain ⟨es, ok, -, commands⟩ := initCommands_makes n (r := Run.begin s.port) rfl
  cases ok with
  | false =>
    rw [initPanel_of_failed rfl commands, initPanel_of_failed (s := s.withQueue q o) rfl commands]
    simp only [State.withQueue, finish]
  | true =>
    obtain ⟨fs, ok, -, pages⟩ :=
      flushPages_makes n (fillFrame .black) (r := Run.begin (initCommands n (Run.begin s.port)).port) rfl
    rw [initPanel_of_commanded rfl commands rfl pages,
      initPanel_of_commanded (s := s.withQueue q o) rfl commands rfl pages]
    simp only [State.withQueue, finish]

theorem writeChar_withQueue (f : Font) (ch : Byte) (wrap : Bool) (c : Color) (q : List Trigger) (o : Bool) (s : State) :
    writeChar f ch wrap c (s.withQueue q o) = (writeChar f ch wrap c s).map (State.withQueue q o) := by
  cases h : charPlace f.width.toNat f.height.toNat wrap s.cur with
  | none => rw [writeChar_of_full h, writeChar_of_full (s := s.withQueue q o) h]; rfl
  | some place => rw [writeChar_of_place h, writeChar_of_place (s := s.withQueue q o) h]; rfl

theorem afterRead_ignoresQueue (a : BitVec 16) : IgnoresQueue (afterRead a) := by
  intro q o s
  have stale : staleAt (s.withQueue q o) a = staleAt s a := rfl
  simp only [afterRead, stale]
  split <;> rfl

/-- A string reads and draws the same characters whatever stands in the queue (R115). -/
theorem runString_ignoresQueue (f : Font) (r : StringRun) (n : Nat) : IgnoresQueue (runString f r n) := by
  intro q o s
  induction n generalizing r s with
  | zero => rw [runString_zero, runString_zero]; rfl
  | succ n ih =>
    by_cases hch : operandByte s r.addr = 0x00#8
    · rw [runString_of_terminator hch, runString_of_terminator (s := s.withQueue q o) hch, afterRead_ignoresQueue]
      rfl
    · have drawn := writeChar_withQueue f (operandByte s r.addr) r.wrap r.color q o (afterRead r.addr s)
      rw [← afterRead_ignoresQueue] at drawn
      cases hd : writeChar f (operandByte s r.addr) r.wrap r.color (afterRead r.addr s) with
      | none =>
        rw [hd] at drawn
        rw [runString_of_failed hch hd, runString_of_failed (s := s.withQueue q o) hch drawn, afterRead_ignoresQueue]
        rfl
      | some s' =>
        rw [hd] at drawn
        rw [runString_of_drawn hch hd, runString_of_drawn (s := s.withQueue q o) hch drawn]
        exact ih _ s'

theorem writeImg_withQueue (k : BitVec 4) (sp : Sprite) (c : Color) (q : List Trigger) (o : Bool) (s : State) :
    writeImg k sp c (s.withQueue q o) = ((writeImg k sp c s).1.withQueue q o, (writeImg k sp c s).2) := by
  by_cases fits : imageFits sp s.cur = true
  · simp only [writeImg, withQueue_cur, fits, if_true]
    rfl
  · simp only [writeImg, withQueue_cur, fits]
    rfl

theorem movedTo_ignoresQueue (x : BitVec 16) : IgnoresQueue (movedTo x) := by
  intro q o s
  simp only [movedTo, State.withQueue]

theorem redraw_withQueue (dir : Trigger) (sp : Sprite) (q : List Trigger) (o : Bool) (s : State) :
    redraw dir sp (s.withQueue q o) = ((redraw dir sp s).1.withQueue q o, (redraw dir sp s).2) := by
  simp only [redraw, withQueue_last, withQueue_platform, withQueue_cur, movedTo_ignoresQueue _ q o s,
    writeImg_withQueue]

theorem animate_ignoresQueue (dir : Trigger) (n : Nat) (sp : Sprite) : IgnoresQueue (animate dir n sp) := by
  intro q o s
  rw [animate_eq_redraw, animate_eq_redraw, redraw_withQueue]
  exact endRun_ignoresQueue _ _ q o _

theorem moveSprite_ignoresQueue (dir : Trigger) : IgnoresQueue (moveSprite dir) := by
  intro q o s
  cases hv : s.bto.valid with
  | false => rw [moveSprite_of_unset hv, moveSprite_of_unset (s := s.withQueue q o) hv]; rfl
  | true =>
    cases hl : s.last.valid with
    | false => rw [moveSprite_of_no_sprite hl, moveSprite_of_no_sprite (s := s.withQueue q o) hl]; rfl
    | true =>
      cases hk : spriteOf s.platform s.last.id with
      | none => rw [moveSprite_of_missing hk, moveSprite_of_missing (s := s.withQueue q o) hk]; rfl
      | some sp => simpa [moveSprite, hv, hl, hk] using animate_ignoresQueue dir _ sp q o s

/-- Every operation but TRIG.SVC and CFG.TRIG does the same on every queue, and leaves the queue alone (R164). -/
theorem exec_withQueue {i : Instr} {s t : State} (hsvc : i.op ≠ .trigSvc) (hcfg : i.op ≠ .cfgTrig)
    (h : exec i s = .next t) (q : List Trigger) (o : Bool) : exec i (s.withQueue q o) = .next (t.withQueue q o) := by
  cases i with
  | busStart | busAddr b | busByte b | busBurst a n =>
    obtain rfl := Host.Outcome.next.inj h
    exact congrArg _ (busOperation_ignoresQueue _ q o s)
  | fbFill c => obtain rfl := Host.Outcome.next.inj h; simp only [exec, execFbFill, State.withQueue, finish]
  | busStop | fbPixel x y c | curSet x y | cfgTimeout v => obtain rfl := Host.Outcome.next.inj h; rfl
  | wrChar ch font wrap c =>
    obtain rfl := Host.Outcome.next.inj h
    simp only [exec, execWrChar, withQueue_platform, writeChar_withQueue]
    cases fontOf s.platform font with
    | none => rfl
    | some f =>
      dsimp only
      cases writeChar f ch wrap c s <;> rfl
  | wrStr a font wrap c =>
    obtain rfl := Host.Outcome.next.inj h
    simp only [exec, execWrStr, withQueue_platform]
    cases fontOf s.platform font with
    | none => rfl
    | some f => exact congrArg _ (runString_ignoresQueue f _ _ q o (beginString s))
  | wrImg k c =>
    obtain rfl := Host.Outcome.next.inj h
    simp only [exec, execWrImg, withQueue_platform, writeImg_withQueue]
    cases spriteOf s.platform k <;> rfl
  | init =>
    obtain rfl := Host.Outcome.next.inj h
    exact congrArg _ (IgnoresQueue.bounded (f := fun s => initPanel s.bto.value.toNat s)
      (fun q o s => initPanel_ignoresQueue _ q o s) q o s)
  | flush =>
    obtain rfl := Host.Outcome.next.inj h
    exact congrArg _ (IgnoresQueue.bounded
      (f := fun s => let r := flushPages s.bto.value.toNat s.fb (Run.begin s.port); endRun (busRes r.failed) r s)
      (fun q o s => endRun_ignoresQueue _ _ q o s) q o s)
  | moveR => obtain rfl := Host.Outcome.next.inj h; exact congrArg _ (moveSprite_ignoresQueue .right q o s)
  | moveL => obtain rfl := Host.Outcome.next.inj h; exact congrArg _ (moveSprite_ignoresQueue .left q o s)
  | trigSvc => exact absurd rfl hsvc
  | cfgTrig r l c => exact absurd rfl hcfg

/-- What an edge makes of the queue depends on the queue, the enables, the depth and the reset input alone (R160). -/
theorem captureEdge_eq_withQueue (e : Trigger) {s t : State} (htq : t.tq = s.tq) (hovf : t.tqOvf = s.tqOvf)
    (hten : t.ten = s.ten) (hplatform : t.platform = s.platform) (hreset : t.inReset = s.inReset) :
    captureEdge e t = t.withQueue (captureEdge e s).tq (captureEdge e s).tqOvf := by
  have same : (captureEdge e t).tq = (captureEdge e s).tq ∧ (captureEdge e t).tqOvf = (captureEdge e s).tqOvf := by
    simp only [captureEdge, htq, hten, hplatform, hreset]
    split
    · exact ⟨htq, hovf⟩
    · split
      · exact ⟨rfl, hovf⟩
      · exact ⟨rfl, rfl⟩
  rw [captureEdge_frame e t, same.1, same.2, State.withQueue]

/-- Settles O49: an edge is another queue, on which the operation does the same; and what the edge makes of the queue
stands in state the operation does not write. -/
theorem edgesDisturbNoOperation : Obligations.EdgesDisturbNoOperation := by
  intro i e s t hsvc hcfg h
  obtain ⟨-, -, -, hten, htq, hovf⟩ := blockStateHasItsWriters i s t h
  obtain ⟨-, hplatform, -, hreset, -⟩ := operationsDoNotWriteTheEnvironment i s t h
  have before := captureEdge_eq_withQueue e (s := s) (t := s) rfl rfl rfl rfl rfl
  have after := captureEdge_eq_withQueue e (htq (by simp [hsvc, hcfg])) (hovf hcfg) (hten hcfg) hplatform hreset
  rw [before, after, exec_withQueue hsvc hcfg h]

end Sys2Proof.Machine
end

section
/-! PROOFS. Reset and hazards (R176, R178, R181): a word presented to a busy block or in reset, the reset input, and an
operation abandoned by it. -/

namespace Sys2Proof.Machine

/-- A block that is busy or in reset drops the word (R20, R176, R181). -/
theorem presentWord_of_not_accepting {s : State} (h : s.busy = true ∨ s.inReset = true) (w : Word) :
    presentWord w s = .next s := by
  rw [presentWord, if_pos (Bool.or_eq_true_iff.mpr h)]

/-- Settles O7: the word is taken from the pending events and dropped. -/
theorem wordWhileBusyOrInResetIsDropped : Obligations.WordWhileBusyOrInResetIsDropped :=
  fun s w rest h hi => (step_of_event hi).trans (presentWord_of_not_accepting (s := { s with inbox := rest }) h w)

/-! ## The reset input (R33, R176, R178) -/

@[simp] theorem setReset_inReset (level : Bool) (s : State) : (setReset level s).inReset = level := by
  simp only [setReset]
@[simp] theorem setReset_busy (level : Bool) (s : State) : (setReset level s).busy = false := by
  simp only [setReset, resetBlock_busy]
@[simp] theorem setReset_res (level : Bool) (s : State) : (setReset level s).res = {} := by
  simp only [setReset, resetBlock_res]
@[simp] theorem setReset_cur (level : Bool) (s : State) :
    (setReset level s).cur = { x := 0#16, y := 0#16, xInit := 0#16, yInit := 0#16, wc := 1#16 } := by
  simp only [setReset, resetBlock_cur]
@[simp] theorem setReset_last_valid (level : Bool) (s : State) : (setReset level s).last.valid = false := by
  simp only [setReset, resetBlock_last]
@[simp] theorem setReset_bto_valid (level : Bool) (s : State) : (setReset level s).bto.valid = false := by
  simp only [setReset, resetBlock_bto]
@[simp] theorem setReset_ten (level : Bool) (s : State) : (setReset level s).ten = { enR := false, enL := false } := by
  simp only [setReset, resetBlock_ten]
@[simp] theorem setReset_tq (level : Bool) (s : State) : (setReset level s).tq = [] := by
  simp only [setReset, resetBlock_tq]
@[simp] theorem setReset_tqOvf (level : Bool) (s : State) : (setReset level s).tqOvf = false := by
  simp only [setReset, resetBlock_tqOvf]
@[simp] theorem setReset_fb (level : Bool) (s : State) : (setReset level s).fb = fbReset s.draws := by
  simp only [setReset, resetBlock_fb]
@[simp] theorem setReset_opm (level : Bool) (s : State) : (setReset level s).opm = s.opm := by
  simp only [setReset, resetBlock_opm]
@[simp] theorem setReset_platform (level : Bool) (s : State) : (setReset level s).platform = s.platform := by
  simp only [setReset, resetBlock_platform]
@[simp] theorem setReset_inbox (level : Bool) (s : State) : (setReset level s).inbox = s.inbox := by
  simp only [setReset, resetBlock_inbox]

/-- While reset is asserted no edge is captured (R176). -/
theorem captureEdge_of_inReset {s : State} (h : s.inReset = true) (e : Trigger) : captureEdge e s = s := by
  simp [captureEdge, h]

/-- While reset is asserted a step takes a word or an edge from the pending events and does nothing else (R176). -/
theorem step_of_inReset {s : State} (h : s.inReset = true) (w : Word) (e : Trigger) (more : List HostEvent) :
    step { s with inbox := .command w :: more } = .next { s with inbox := more } ∧
      step { s with inbox := .edge e :: more } = .next { s with inbox := more } :=
  ⟨wordWhileBusyOrInResetIsDropped _ w more (.inr h) rfl,
    (step_of_event rfl).trans (congrArg _ (captureEdge_of_inReset (s := { s with inbox := more }) h e))⟩

/-- Settles O12: the fields of `setReset`, and what a step does while reset is asserted. -/
theorem resetInputLeavesResetValues : Obligations.ResetInputLeavesResetValues := by
  intro s rest asserted hi
  refine ⟨_, step_of_event hi, setReset_inReset _ _, setReset_busy _ _, setReset_res _ _, setReset_cur _ _,
    setReset_last_valid _ _, setReset_bto_valid _ _, setReset_ten _ _, setReset_tq _ _, setReset_tqOvf _ _,
    fun _ inside => ?_, setReset_port _ _, setReset_opm _ _, setReset_platform _ _, setReset_inbox _ _,
    fun held => step_of_inReset ((setReset_inReset _ _).trans held)⟩
  rw [setReset_fb]
  exact fbRead_fbReset s.draws inside

/-! ## An operation abandoned by reset (R176) -/

/-- A step that abandons an operation leaves the block in reset, cut after `k` entries of the operation (R176). -/
theorem step_commandCutByReset {s t : State} {w : Word} {ws : List (BitVec 16 × Byte)} {i : Instr} {k : Nat}
    {rest : List HostEvent} (hs : s.Accepts) (hi : s.inbox = .commandCutByReset w ws k :: rest) (hw : decode w = .ok i)
    (h : exec i { writtenDuring ws { s with inbox := rest } with busy := true } = .next t) :
    step s = .next (cutByReset k (writtenDuring ws { s with inbox := rest }) t) := by
  have accepts : (writtenDuring ws { s with inbox := rest }).Accepts := by
    rw [writtenDuring_frame]
    exact hs
  rw [step_of_event hi]
  simp only [handle, presentWordThenReset, presentWord_of_accepts accepts hw, h]

theorem Port.length_busLog (p : Port) : p.busLog.length = p.log.length := List.length_reverse

/-- An operation cut after `k` entries leaves its first `k` entries in the bus log (R176, log 18). -/
theorem cutByReset_busLog (k : Nat) (s after : State) :
    (cutByReset k s after).port.busLog =
      s.port.busLog ++ (after.port.busLog.drop s.port.busLog.length).take k := by
  rw [cutByReset, setReset_port, replay_busLog, Port.length_busLog]

/-- Settles O13: the log of `cutByReset`, and the operand memory the writes left before the reset. -/
theorem abandonedOperationLeavesAPrefix : Obligations.AbandonedOperationLeavesAPrefix := by
  intro s t w ws i k rest hs hi hw h
  have log := cutByReset_busLog k (writtenDuring ws { s with inbox := rest }) t
  rw [writtenDuring_port] at log
  refine ⟨_, step_commandCutByReset hs hi hw h, setReset_inReset _ _, setReset_busy _ _, setReset_res _ _,
    setReset_tq _ _, setReset_bto_valid _ _, log, fun a => ?_, ?_⟩
  · rw [cutByReset, setReset_opm, opmRead_writtenDuring]
  · rw [cutByReset, setReset_platform, writtenDuring_frame]

end Sys2Proof.Machine
end

section
/-! PROOFS. Which operations end (R184): every one but a string, the sequencer's within a bounded number of samples; and
the strings that never end (R192). -/

namespace Sys2Proof.Machine

/-! ## Every operation but a string ends (R184) -/

theorem EndsOnPort.busy {s t : State} (h : EndsOnPort s t) : t.busy = false := by
  obtain ⟨r, p, -, rfl⟩ := h
  rfl

theorem moveSprite_busy (dir : Trigger) (s : State) : (moveSprite dir s).busy = false := by
  rcases moveSprite_cases dir s with h | ⟨_, _, -, h⟩ <;> exact h.busy

/-- Settles O54: each operation but WR.STR ends in `finish`, a bus or sequencer operation after its traffic. -/
theorem onlyAStringCanStayBusy : Obligations.OnlyAStringCanStayBusy := by
  intro i s t hop h
  cases i with
  | busStart | busStop | busAddr b | busByte b | busBurst a n | flush =>
    exact (exec_endsOnPort (by simp [Instr.op]) h).busy
  | fbFill c | fbPixel x y c | curSet x y | cfgTimeout v | cfgTrig r l q =>
    obtain rfl := Host.Outcome.next.inj h
    rfl
  | wrChar ch font wrap c => rcases execWrChar_cases h with ⟨r, -, rfl⟩ | ⟨f, u, r, -, -, rfl⟩ <;> rfl
  | wrStr a font wrap c => exact absurd rfl hop
  | wrImg k c => rcases execWrImg_cases h with rfl | ⟨sp, r, -, -, rfl⟩ <;> rfl
  | init => rcases execInit_cases h with h | h <;> exact h.busy
  | moveR => obtain rfl := Host.Outcome.next.inj h; exact moveSprite_busy .right s
  | moveL => obtain rfl := Host.Outcome.next.inj h; exact moveSprite_busy .left s
  | trigSvc =>
    rcases execTrigSvc_cases h with ⟨-, rfl⟩ | ⟨e, q, -, rfl⟩
    · rfl
    · exact moveSprite_busy e _

/-! ## Samples of a transaction (R90, R126, R184) -/

theorem PollSamples.length_le {n : Nat} {vs : List Bool} {ok : Bool} (h : PollSamples n vs ok) :
    vs.length ≤ n + 1 := by
  rcases h with ⟨-, k, hk, rfl⟩ | ⟨-, rfl⟩
  · simpa using hk
  · exact List.length_replicate.le

@[simp] theorem sampleCount_append (es fs : List BusEvent) :
    sampleCount (es ++ fs) = sampleCount es + sampleCount fs := List.countP_append

@[simp] theorem sampleCount_txData (b : Byte) (es : List BusEvent) :
    sampleCount (.txData b :: es) = sampleCount es := rfl

@[simp] theorem sampleCount_samplesOf (f : Flag) (vs : List Bool) : sampleCount (samplesOf f vs) = vs.length := by
  induction vs with
  | nil => rfl
  | cons v vs ih => exact (sampleCount_append [.sample f v] (samplesOf f vs)).trans (by rw [ih, Nat.add_comm]; rfl)

@[simp] theorem sampleCount_statusPair (first : Bool) : sampleCount (statusPair first) = 0 := by cases first <;> rfl

/-- A burst polls once for each byte and once for the end of the transfer (R95, R96). -/
theorem BurstLog.sampleCount_le {n : Nat} {ds : List Byte} {es : List BusEvent} {ok : Bool} (h : BurstLog n ds es ok) :
    sampleCount es ≤ (ds.length + 1) * (n + 1) := by
  induction h with
  | done polled => simpa using polled.length_le
  | byte polled _ ih =>
    have := polled.length_le
    rw [sampleCount_append, sampleCount_samplesOf, sampleCount_txData, List.length_cons, Nat.succ_mul]
    omega
  | full polled =>
    rw [sampleCount_samplesOf]
    exact polled.length_le.trans (Nat.le_mul_of_pos_left _ (Nat.succ_pos _))

/-- A transaction polls for the start, for the address, twice for the control byte, and for its payload (R126, R127). -/
theorem Transaction.sampleCount_le {n : Nat} {ctrl : Byte} {ds : List Byte} {es : List BusEvent} {ok : Bool}
    (h : Transaction n ctrl ds es ok) : sampleCount es ≤ (ds.length + 5) * (n + 1) := by
  obtain ⟨vs, ws, cs, ps, first, okStart, okAddr, okCtrl, okData, hstart, haddr, hctrl, hdata, rfl, -⟩ := h
  have starts := hstart.length_le
  have addresses := haddr.length_le
  have controls := hctrl.sampleCount_le
  have payload := hdata.sampleCount_le
  have status : sampleCount (if okAddr then statusPair first else []) = 0 := by
    cases okAddr
    · rfl
    · exact sampleCount_statusPair first
  have count : sampleCount ([.reqStart] ++ samplesOf .start vs ++ [.txAddr 0x78#8] ++ samplesOf .addr ws ++
      (if okAddr then statusPair first else []) ++ cs ++ ps ++ [.reqStop]) =
      vs.length + ws.length + sampleCount cs + sampleCount ps := by
    simp only [sampleCount_append, sampleCount_samplesOf, status]
    simp [sampleCount]
  rw [List.length_singleton] at controls
  rw [count]
  calc vs.length + ws.length + sampleCount cs + sampleCount ps
      ≤ (n + 1) + (n + 1) + (1 + 1) * (n + 1) + (ds.length + 1) * (n + 1) := by gcongr
    _ = (ds.length + 5) * (n + 1) := by ring

theorem Transactions.sampleCount_le {n : Nat} {plan : List (Byte × List Byte)} {es : List BusEvent} {ok : Bool}
    (h : Transactions n plan es ok) : sampleCount es ≤ (plan.map fun c => c.2.length + 5).sum * (n + 1) := by
  induction h with
  | nil => exact Nat.zero_le _
  | cons one _ ih =>
    rw [sampleCount_append, List.map_cons, List.sum_cons, Nat.add_mul]
    exact Nat.add_le_add one.sampleCount_le ih

/-! ## Sequencer operations (R184) -/

/-- `t` is idle and made entries after those of `s`, at most `n` of them samples. -/
def EndsWithin (n : Nat) (s t : State) : Prop :=
  t.busy = false ∧ ∃ es, t.port.busLog = s.port.busLog ++ es ∧ sampleCount es ≤ n

theorem endsWithin_of_finish (n : Nat) (r : Res) (s : State) : EndsWithin n s (finish r s) :=
  ⟨rfl, [], (List.append_nil _).symm, Nat.zero_le n⟩

/-- The 32 transactions of a flush take at most 1208 polls (R129). -/
theorem flush_sampleCount_le {n : Nat} {m : Memory} {es : List BusEvent} {ok : Bool}
    (h : Transactions n (flushPlan m) es ok) : sampleCount es ≤ 1208 * (n + 1) :=
  flushPlan_sample_sum m ▸ h.sampleCount_le

/-- The 28 transactions of INIT's command phase take at most 168 polls (R128). -/
theorem initPlan_sampleCount_le {n : Nat} {es : List BusEvent} {ok : Bool} (h : Transactions n initPlan es ok) :
    sampleCount es ≤ 168 * (n + 1) := h.sampleCount_le

theorem moveSprite_endsWithin {s : State} (hv : s.bto.valid = true) (dir : Trigger) :
    EndsWithin (1208 * (s.bto.value.toNat + 1)) s (moveSprite dir s) := by
  cases hl : s.last.valid with
  | false => rw [moveSprite_of_no_sprite hl]; exact endsWithin_of_finish _ _ s
  | true =>
    cases hk : spriteOf s.platform s.last.id with
    | none => rw [moveSprite_of_missing hk]; exact endsWithin_of_finish _ _ s
    | some sp =>
      obtain ⟨p, es, ok, moved, pages, log⟩ := moveSprite_of_installed (dir := dir) hv hl hk
      rw [moved]
      exact ⟨rfl, es, log, flush_sampleCount_le pages⟩

/-- FLUSH and the animation steps flush the panel at most once (R129, R130). -/
theorem exec_endsWithin_flush {i : Instr} {s : State} (hv : s.bto.valid = true)
    (hi : i.op ∈ [Op.flush, .moveR, .moveL, .trigSvc]) :
    ∃ t, exec i s = .next t ∧ EndsWithin (1208 * (s.bto.value.toNat + 1)) s t := by
  cases i with
  | flush =>
    obtain ⟨t, es, ok, ends, pages, log, frame⟩ := flushSendsEveryPage s hv
    exact ⟨t, ends, by rw [frame], es, log, flush_sampleCount_le pages⟩
  | moveR => exact ⟨_, exec_moveR s, moveSprite_endsWithin hv .right⟩
  | moveL => exact ⟨_, exec_moveL s, moveSprite_endsWithin hv .left⟩
  | trigSvc =>
    cases hq : s.tq with
    | nil => exact ⟨_, exec_trigSvc_of_empty hq, endsWithin_of_finish _ _ s⟩
    | cons dir q => exact ⟨_, exec_trigSvc_of_entry hq, moveSprite_endsWithin (s := { s with tq := q }) hv dir⟩
  | busStart | busStop | busAddr | busByte | busBurst | fbFill | fbPixel | curSet | wrChar | wrStr | wrImg | init
  | cfgTimeout | cfgTrig => simp [Instr.op] at hi

/-- INIT makes its commands and, when they are good, flushes the panel (R128). -/
theorem exec_init_endsWithin {s : State} (hv : s.bto.valid = true) :
    ∃ t, exec .init s = .next t ∧ EndsWithin (1376 * (s.bto.value.toNat + 1)) s t := by
  obtain ⟨t, es, ok, ends, commands, failed, commanded⟩ := initBringsThePanelUp s hv
  have commandSamples := initPlan_sampleCount_le commands
  cases ok with
  | false =>
    obtain ⟨log, frame⟩ := failed rfl
    exact ⟨t, ends, by rw [frame], es, log, by omega⟩
  | true =>
    obtain ⟨fs, okFlush, pages, log, -, frame⟩ := commanded rfl
    have pageSamples := flush_sampleCount_le pages
    refine ⟨t, ends, by rw [frame], es ++ fs, by rw [log, List.append_assoc], ?_⟩
    rw [sampleCount_append]
    omega

/-- Settles O44: every poll takes at most one sample more than its bound, and a plan fixes how many polls there are. -/
theorem sequencerSamplesAreBounded : Obligations.SequencerSamplesAreBounded := by
  intro i s hv
  refine ⟨fun hi => ?_, fun hi => ?_⟩
  · obtain ⟨t, ends, idle, es, log, samples⟩ := exec_endsWithin_flush hv hi
    exact ⟨t, es, ends, idle, log, samples⟩
  · obtain rfl : i = .init := by cases i <;> simp_all [Instr.op]
    obtain ⟨t, ends, idle, es, log, samples⟩ := exec_init_endsWithin hv
    exact ⟨t, es, ends, idle, log, samples⟩

/-! ## A string without an end (R192) -/

/-- No read of operand memory can return the terminator, and every character fits (R59, R192). -/
structure State.NeverEnding (f : Font) (wrap : Bool) (s : State) : Prop where
  noTerminator : ∀ a b, CanRead s a b → b ≠ 0x00#8
  fits : s.cur.FitsForever f wrap

theorem State.NeverEnding.withDraws {f : Font} {wrap : Bool} {s : State} (h : s.NeverEnding f wrap) (d : Nat) :
    State.NeverEnding f wrap { s with draws := d } := ⟨h.noTerminator, h.fits⟩

theorem State.NeverEnding.after_writeChar {f : Font} {ch : Byte} {wrap : Bool} {c : Color} {s s' : State}
    (h : s.NeverEnding f wrap) (hd : writeChar f ch wrap c s = some s') : s'.NeverEnding f wrap where
  noTerminator := by
    rw [writeChar_frame hd]
    exact h.noTerminator
  fits := h.fits.after_writeChar hd

/-- The characters drawn leave such a string where it cannot end, `RES` and the port as they were (R115). -/
theorem State.NeverEnding.after_charsRead {f : Font} {wrap : Bool} {c : Color} {a : BitVec 16} {cs : List Byte}
    {s t : State} (h : s.NeverEnding f wrap) (hr : CharsRead f wrap c a cs s t) :
    t.NeverEnding f wrap ∧ t.res = s.res ∧ t.port = s.port := by
  induction hr with
  | nil => exact ⟨h, rfl, rfl⟩
  | cons d _ _ hd _ ih =>
    obtain ⟨never, res, port⟩ := ih ((h.withDraws d).after_writeChar hd)
    have frame := writeChar_frame hd
    exact ⟨never, by rw [res, frame], by rw [port, frame]⟩

/-- Such a string ends neither at a terminator nor at a character that fails, so the block stays busy (R192). -/
theorem State.NeverEnding.of_stringStep {f : Font} {r : StringRun} {n : Nat} {s u : State} (h : s.NeverEnding f r.wrap)
    (hu : StringStep f r n s u) : u.busy = true ∧ u.res = s.res ∧ u.port = s.port := by
  obtain ⟨cs, t, d, read, ends⟩ := hu
  obtain ⟨never, res, port⟩ := h.after_charsRead read
  rcases ends with ⟨-, terminator, -⟩ | ⟨-, ch, -, -, failed, -⟩ | ⟨-, rfl⟩
  · exact absurd rfl (never.noTerminator _ _ terminator)
  · obtain ⟨s', drawn⟩ := (never.withDraws d).fits.exists_writeChar ch r.color
    exact nomatch failed.symm.trans drawn
  · exact ⟨rfl, res, port⟩

/-- The two forms of R192, at the start of the run: every character will fit. -/
theorem fitsForever_of_beginString {f : Font} {wrap : Bool} {s : State}
    (h : (f.width = 0#8 ∧ s.cur.x.toNat ≤ 128 ∧ s.cur.y.toNat + f.height.toNat ≤ 64) ∨
      (wrap = true ∧ f.height = 0#8 ∧ s.cur.y = 0#16)) : (beginString s).cur.FitsForever f wrap := by
  rcases h with ⟨hw, hx, hy⟩ | ⟨rfl, hh, hy⟩
  · exact .inl ⟨by rw [hw]; rfl, hx, hy⟩
  · exact .inr ⟨rfl, by simp [hh], by simp [hy], by simp [hy]⟩

/-- Settles O31: a string begun so is never ending, and WR.STR is a step of it. -/
theorem stringWithoutEndStaysBusy : Obligations.StringWithoutEndStaysBusy := by
  intro addr font wrap c s f hf noTerminator forms
  have never : (beginString s).NeverEnding f wrap := ⟨noTerminator, fitsForever_of_beginString forms⟩
  exact ⟨_, exec_wrStr_of_installed hf addr wrap c,
    never.of_stringStep (r := { font := font, wrap := wrap, color := c, addr := addr }) (runString_step f _ _ _)⟩

end Sys2Proof.Machine
end

section
/-! PROOFS. Identifiers with no asset (U4, log 9): the drawing operations and the moves end in `Usage`. -/

namespace Sys2Proof.Machine

theorem exec_wrStr_of_missing {font : BitVec 4} {s : State} (hf : fontOf s.platform font = none) (addr : BitVec 16)
    (wrap : Bool) (c : Color) : exec (.wrStr addr font wrap c) s = .next (finishUsage s) := by
  simp only [exec, execWrStr, hf]

/-- A move of a missing sprite ends in `Usage` on the state it starts from: the queue names no sprite. -/
theorem AnimationStep.exec_of_missing {i : Instr} {dir : Trigger} {s s0 : State} (h : AnimationStep i dir s s0)
    (hk : spriteOf s.platform s.last.id = none) : exec i s = .next (finishUsage s0) := by
  obtain ⟨q, rfl⟩ := h.start_withQueue
  exact h.exec_eq.trans (congrArg _ (moveSprite_of_missing (s := { s with tq := q }) hk dir))

/-- Settles O34: the asset is looked up before anything is done, save that TRIG.SVC has removed its entry (log 9). -/
theorem missingAssetEndsInUsage : Obligations.MissingAssetEndsInUsage := by
  intro s
  refine ⟨fun font ch addr wrap c hf => ⟨?_, ?_⟩, fun k c hk => ?_, fun i dir s0 hstep _ hk => ?_⟩
  · exact exec_wrChar_of_missing hf ch wrap c
  · exact exec_wrStr_of_missing hf addr wrap c
  · exact exec_wrImg_of_missing hk c
  · exact hstep.exec_of_missing hk

end Sys2Proof.Machine
end
